-- ==== Sys2Proof/Word.lean ====
section
/-! DEFINITION. The two bit-vector types of the block: a byte (rule R8; also a command word, rule R80, and a
register number, rule R51) and the 32-bit word of `STATUS` (rule R26). Everything else the block computes with is an
exact integer (rule R8), so it is a `Nat` or an `Int` and no bit vector. -/

namespace Sys2Proof

/-- A byte (R8): an element of a byte string, a command word (R80) or a register number (R51). -/
abbrev Byte := BitVec 8

/-- The 32-bit word a host read of `STATUS` returns (R26). -/
abbrev StatusWord := BitVec 32

end Sys2Proof
end

