-- ==== Sys2Proof/Config.lean ====
section
/-! DEFINITION. What is fixed for one machine: the literals of rule R6, the type of the open parameters of rule R7, and
the values nothing constrains (opaque, no body): the random source and the sampler past their scripted answers
(R15, R31), the round-count increments past a table (R114), and what a fault leaves in the destinations of the command
that raised it (R207). -/

namespace Sys2Proof

/-- The named literals of rule R6. `suffix` is the decimal string of `SUFFIX`, one digit an entry. -/
structure Literals where
  blockBytes : Nat
  tag        : Nat
  suffix     : List Nat
  keyBits    : Nat
deriving DecidableEq, Repr

/-- The values this hardware takes (R6, D28). -/
def Config.literals : Literals :=
  { blockBytes := 16, tag := 10000, suffix := [0, 0, 0, 0], keyBits := 512 }

/-- `BLOCK_BYTES` (R6). -/
def Config.blockBytes : Nat := Config.literals.blockBytes

/-- `TAG` (R6). -/
def Config.tag : Nat := Config.literals.tag

/-- `SUFFIX` (R6), as its decimal digits. -/
def Config.suffix : List Nat := Config.literals.suffix

/-- `KEYBYTES = KEYBITS / 8` (R6). -/
def Config.keyBytes : Nat := Config.literals.keyBits / 8

/-- The parameter `ROUNDS` of rule R7 as plain data: the spec's default `ROUNDS(d) = d`, or the increments of a monotone
function with values `>= 1`, given by a table and past the table's end by `Config.roundIncrement`
(`Machine.roundCount` reads it; assumption log 5). -/
inductive Rounds where
  | digitCount
  | increments (table : List Nat)
deriving DecidableEq, Repr

/-- The open parameters of rule R7 that a rule reads. `none` is infinity. `HOSTBUS` has no field: no rule depends on it
(D30). -/
structure Params where
  rounds          : Rounds
  retryCap        : Option Nat
  xbits           : Option Nat
  ledgerEntryBits : Option Nat
deriving DecidableEq, Repr

/-- The defaults of rule R7. -/
def Params.default : Params :=
  { rounds := .digitCount, retryCap := none, xbits := none, ledgerEntryBits := none }

/-- Free value: how much `ROUNDS` grows at a digit count past the end of a table (R114 gives only `>= 1` and
monotone). Log 5. -/
opaque Config.roundIncrement : Nat → Nat

/-- Free value: the `n`-th byte the random source gives once its scripted answers are used up (R15, R31, U2). Log 6. -/
opaque Config.rngByte : Nat → Byte

/-- Free value: the `n`-th answer of the bounded sampler once its scripted answers are used up, before it is brought into
the range `[1, c-1]` that rule R15 gives it (R115, U1). Log 6. -/
opaque Config.samplerAnswer : Nat → Nat

/-- Free value: what a fault leaves in `BLKCNT`, `IPOS` or `LPOS` (R207, U6). Log 7. -/
opaque Config.unspecifiedNat : Nat → Nat

/-- Free value: what a fault leaves in an integer register, any integer (R207, R21, U5). Log 7. -/
opaque Config.unspecifiedInt : Nat → Int

/-- Free value: what a fault leaves in `OUT` (R207, U6). Log 7. -/
opaque Config.unspecifiedBytes : Nat → List Byte

/-- Free value: what a fault leaves in `LEDGER` (R207, U6). Log 7. -/
opaque Config.unspecifiedNats : Nat → List Nat

end Sys2Proof
end

