-- ==== Sys2Proof/Machine/Numeric.lean ====
section
/-! DEFINITION. The arithmetic primitives of rules R11 to R14: `modexp`, the two byte-string conversions, the decimal
functions and the codec. Each loop runs on a count that bounds it, so that it evaluates; `Sys2Proof/Laws/Numeric.lean`
proves each equal to what its rule says. -/

namespace Sys2Proof.Machine

/-- `be_to_nat` (R12): the first byte of the string is the most significant (R52). -/
def beToNat (bs : List Byte) : Nat := bs.foldl (fun v b => v * 256 + b.toNat) 0

/-- The bytes of `v`, most significant first and none for 0, put before `acc`. -/
def natToBeLoop : Nat → Nat → List Byte → List Byte
  | 0, _, acc => acc
  | k + 1, v, acc => if v = 0 then acc else natToBeLoop k (v / 256) (BitVec.ofNat 8 v :: acc)

/-- `nat_to_be` (R12): minimal, and one byte `00` for 0. -/
def natToBe (v : Nat) : List Byte := if v = 0 then [0x00] else natToBeLoop v v []

/-- The decimal digits of `v`, most significant first and none for 0, put before `acc`. -/
def decLoop : Nat → Nat → List Nat → List Nat
  | 0, _, acc => acc
  | k + 1, v, acc => if v = 0 then acc else decLoop k (v / 10) (v % 10 :: acc)

/-- `dec` (R13): the decimal numeral with no leading zero, as its digits; "0" for 0. -/
def dec (v : Nat) : List Nat := if v = 0 then [0] else decLoop v v []

/-- `ndigits` (R13). -/
def ndigits (v : Nat) : Nat := (dec v).length

/-- `ends_suffix` (R13): the decimal numeral ends in `SUFFIX`. -/
def endsSuffix (v : Nat) : Bool := Config.suffix.isSuffixOf (dec v)

/-- `tag` (R14). -/
def tagOf (m : Nat) : Nat := m * Config.tag

/-- `untag` (R14): floor division. -/
def untagOf (m : Nat) : Nat := m / Config.tag

/-- Square and multiply: `acc * b ^ e mod m`, the first count bounding the bits of `e` (R102: any algorithm with the
result of rule R11 conforms). -/
def modexpLoop : Nat → Nat → Nat → Nat → Nat → Nat
  | 0, _, _, _, acc => acc
  | k + 1, b, e, m, acc =>
    if e = 0 then acc
    else modexpLoop k (b * b % m) (e / 2) m (if e % 2 = 1 then acc * b % m else acc)

/-- `modexp` (R11): `(b ^ e) mod m`, with `b ^ 0 = 1`. -/
def modexp (b e m : Nat) : Nat := modexpLoop e (b % m) e m (1 % m)

end Sys2Proof.Machine
end

