-- ==== Sys2Proof/Syntax.lean ====
section
/-! DEFINITION. The commands of rule R83 (`Instr`, one constructor a row of `opcode_table.json`), the sixteen integer
registers of rule R21 (`IntReg`), everything a register number can name (rule R51, `Target`), and the host's moves of
rule R62 (`HostMove`). -/

namespace Sys2Proof

/-- The fourteen commands of rule R83. Format `C8` has no field but `OPCODE` (R81), so none has an operand. -/
inductive Instr where
  | nop
  | prime
  | modexp
  | egcd
  | genmod
  | keygenp
  | keygenq
  | tag
  | untag
  | crt
  | select
  | enc
  | dec
  | srst
deriving DecidableEq, Repr

/-- The sixteen integer registers of rule R21, in the order of their numbers. -/
inductive IntReg where
  | p | q | n | a | b | m | r | x | y | mp | mq | m1 | m2 | m3 | m4 | sel
deriving DecidableEq, Repr

/-- What a register number names (R51): an integer register, a control and status register (R26), a read position or
a buffer (R27). -/
inductive Target where
  | int (reg : IntReg)
  | cmd
  | status
  | fcode
  | finfo
  | blkcnt
  | ipos
  | lpos
  | inp
  | out
  | ledger
deriving DecidableEq, Repr

/-- The host's moves (R62), as entries of a host script (R88). `stall` says for how many further steps an accepted
command stays `BUSY` before the sequencer ends it (R19, R251: the duration is unspecified, so it is an input; log 3).
`await` is the wait that a script's `CMD` line includes (R88): the host makes no other move until `BUSY = 0`. -/
inductive HostMove where
  | wr (number : Byte) (bytes : List Byte)
  | rd (number : Byte)
  | loadIn (bytes : List Byte)
  | loadLedger (entries : List Nat)
  | cmd (word : Byte) (stall : Nat)
  | hardReset
  | await
deriving DecidableEq, Repr

end Sys2Proof
end

