-- ==== Sys2Proof/Decode.lean ====
section
/-! DEFINITION. The opcode map of rule R83 as a table of rows, the decoder that reads it (total, R86: one of the
fourteen commands, or `reserved`), and the encoder, written apart from it from the OPCODE column. Beside them the
register-number map of rule R51, read both ways. -/

namespace Sys2Proof

/-- One row of the opcode map (R83): a word `w` selects the row when `w & mask = match`. -/
structure OpcodeRow where
  mnemonic : String
  bits     : Byte
  mask     : Byte
  instr    : Instr
deriving DecidableEq, Repr

/-- The fourteen rows of rule R83; every mask is 0xFF. -/
def opcodeTable : List OpcodeRow :=
  [ ⟨"NOP",     0x00, 0xFF, .nop⟩,
    ⟨"PRIME",   0x01, 0xFF, .prime⟩,
    ⟨"MODEXP",  0x02, 0xFF, .modexp⟩,
    ⟨"EGCD",    0x03, 0xFF, .egcd⟩,
    ⟨"GENMOD",  0x04, 0xFF, .genmod⟩,
    ⟨"KEYGENP", 0x05, 0xFF, .keygenp⟩,
    ⟨"KEYGENQ", 0x06, 0xFF, .keygenq⟩,
    ⟨"TAG",     0x07, 0xFF, .tag⟩,
    ⟨"UNTAG",   0x08, 0xFF, .untag⟩,
    ⟨"CRT",     0x09, 0xFF, .crt⟩,
    ⟨"SELECT",  0x0A, 0xFF, .select⟩,
    ⟨"ENC",     0x0B, 0xFF, .enc⟩,
    ⟨"DEC",     0x0C, 0xFF, .dec⟩,
    ⟨"SRST",    0xFF, 0xFF, .srst⟩ ]

/-- `w & mask = match` (R83). -/
def OpcodeRow.selects (row : OpcodeRow) (w : Byte) : Bool := w &&& row.mask == row.bits

/-- What a command word is (R86): one of the fourteen commands, or a reserved opcode, rejected by name with its word
(R85: writing it raises `IllegalCommand`). -/
inductive Decoded where
  | command (i : Instr)
  | reserved (w : Byte)
deriving DecidableEq, Repr

/-- The decoder (R83, R85, R86), total on the 256 words. -/
def decode (w : Byte) : Decoded :=
  match opcodeTable.find? (·.selects w) with
  | some row => .command row.instr
  | none     => .reserved w

/-- Why a byte string does not begin with a command. -/
inductive DecodeError where
  | empty
  | reserved (w : Byte)
deriving DecidableEq, Repr

/-- Reading one command from the front of a byte string: every command is one byte (R80, R87). -/
def decodeBytes : List Byte → Except DecodeError (Instr × List Byte)
  | [] => .error .empty
  | w :: rest =>
    match decode w with
    | .command i  => .ok (i, rest)
    | .reserved w => .error (.reserved w)

/-- The OPCODE of a command, from the OPCODE column of rule R83. -/
def encode : Instr → Byte
  | .nop     => 0x00
  | .prime   => 0x01
  | .modexp  => 0x02
  | .egcd    => 0x03
  | .genmod  => 0x04
  | .keygenp => 0x05
  | .keygenq => 0x06
  | .tag     => 0x07
  | .untag   => 0x08
  | .crt     => 0x09
  | .select  => 0x0A
  | .enc     => 0x0B
  | .dec     => 0x0C
  | .srst    => 0xFF

/-- The command an instruction of the opcode table is, its bits numbered as the table numbers them: a command is 8 bits
(R80), so its bits are the byte itself. -/
def decodeTableWord (nbits w : Nat) : Option Instr :=
  if nbits = 8 ∧ w < 256 then
    match decode (BitVec.ofNat 8 w) with
    | .command i  => some i
    | .reserved _ => none
  else none

/-- The register numbers 0x00 to 0x0F (R21). -/
def IntReg.number : IntReg → Byte
  | .p => 0x00 | .q => 0x01 | .n => 0x02 | .a => 0x03 | .b => 0x04 | .m => 0x05 | .r => 0x06 | .x => 0x07
  | .y => 0x08 | .mp => 0x09 | .mq => 0x0A | .m1 => 0x0B | .m2 => 0x0C | .m3 => 0x0D | .m4 => 0x0E | .sel => 0x0F

/-- The register-number map of rule R51. -/
def Target.number : Target → Byte
  | .int reg => reg.number
  | .cmd     => 0x10
  | .status  => 0x11
  | .fcode   => 0x12
  | .finfo   => 0x13
  | .blkcnt  => 0x14
  | .ipos    => 0x15
  | .lpos    => 0x16
  | .inp     => 0x20
  | .out     => 0x21
  | .ledger  => 0x22

/-- Everything that has a register number, in the order of rule R51. -/
def Target.all : List Target :=
  [.int .p, .int .q, .int .n, .int .a, .int .b, .int .m, .int .r, .int .x,
   .int .y, .int .mp, .int .mq, .int .m1, .int .m2, .int .m3, .int .m4, .int .sel,
   .cmd, .status, .fcode, .finfo, .blkcnt, .ipos, .lpos, .inp, .out, .ledger]

/-- What a register number names; `none` for the reserved numbers 0x17 to 0x1F and 0x23 to 0xFF (R51). -/
def Target.ofNumber (number : Byte) : Option Target :=
  Target.all.find? (·.number == number)

/-- The integer registers rule R21 marks "read, write" for the host (R62, first row). -/
def IntReg.hostWritable : IntReg → Bool
  | .p | .q | .a | .b | .m | .m1 | .m2 | .m3 | .m4 => true
  | .n | .r | .x | .y | .mp | .mq | .sel => false

end Sys2Proof
end

