-- ==== Sys2Proof/Machine/State.lean ====
section
/-! DEFINITION. The state of the block (rules R20 to R34) as plain data, the outcome types, and the state after reset.
Beside the spec's state it holds what the spec makes an argument of the step relation or an input (R18, R20): the
open parameters, the host's coming moves, the oracles' answers, the index of the next unspecified value. These stand in
`Env`; neither reset touches them. -/

namespace Sys2Proof.Machine

/-- The eight fault causes of rule R200. Raising one is a NEXT state: the fault entry of rule R206. -/
inductive Cause where
  | invalidInput
  | arithmeticPrecondition
  | ambiguousOrCorruptCiphertext
  | illegalCommand
  | modulusZero
  | truncatedCiphertext
  | capacityExceeded
  | retryExhausted
deriving DecidableEq, Repr

/-- A fault on its way to the fault entry: its cause and its information for `FINFO` (`raise <Fault>(info)`, R9). -/
structure Trap where
  cause : Cause
  info  : Nat
deriving DecidableEq, Repr

/-- A step that stops the machine. No constructor: every fault of the spec is entered (R206) and the block goes on, and
nothing in the spec stops it otherwise (93_implementation_defined.md, the end of Part 1). -/
inductive Fault where
deriving DecidableEq, Repr

/-- A step that has no meaning. -/
inductive Refusal where
  /-- Raised by an arm of `exec` whose instruction has no meaning yet, by its mnemonic; safe. No arm is one now. -/
  | notModelled (mnemonic : String)
deriving DecidableEq, Repr

/-- The sixteen integer registers, each one exact integer (R21). `A`, `B` and `M` are naturals: the host alone writes them,
and it writes naturals only (R22). Every other one is the destination of some command, and a fault leaves an arbitrary
integer there (R207); after completed commands all but `X` and `Y` are natural again (R23, `State.Inv.naturals`), and a
command reads an operand as its natural (`Int.toNat`; log 1). -/
structure Regs where
  p   : Int
  q   : Int
  n   : Int
  a   : Nat
  b   : Nat
  m   : Nat
  r   : Int
  x   : Int
  y   : Int
  mp  : Int
  mq  : Int
  m1  : Int
  m2  : Int
  m3  : Int
  m4  : Int
  sel : Int
deriving DecidableEq, Repr

/-- The fields of `STATUS` that are stored: bit 1 `DONE`, bit 2 `FAULT`, bit 3 `RESULT` (R26, R28). Bit 0 `BUSY` has its
one home in `State.running` (`State.busy`); `Machine.statusWord` puts the four together. -/
structure Flags where
  done   : Bool
  fault  : Bool
  result : Bool
deriving DecidableEq, Repr

/-- The three buffers and the two read positions (R27). -/
structure Streams where
  inp    : List Byte
  out    : List Byte
  ledger : List Nat
  ipos   : Nat
  lpos   : Nat
deriving DecidableEq, Repr

/-- The accepted command that is running (R25): the command, for how many further steps it stays busy, and, for key
generation, the calls of `RngFill` made so far (the temporary `tries` of rule R120). -/
structure Job where
  cmd   : Instr
  stall : Nat
  tries : Nat
deriving DecidableEq, Repr

/-- The two oracles (R15): answers fixed in advance (the `ORACLE` lines of rule R88; any list at all), then the open
source, of which the counters say how far it has been read (log 6). -/
structure Oracle where
  bytes     : List Byte
  bases     : List Nat
  byteDraws : Nat
  baseDraws : Nat
deriving DecidableEq, Repr

/-- What a host read returns (R62): the exact integer of a register (of `X`, `Y` too: U21; of a control and status
register, its word), the content of a byte buffer, or of the ledger. -/
inductive HostValue where
  | number (v : Int)
  | bytes (bs : List Byte)
  | naturals (ls : List Nat)
deriving DecidableEq, Repr

/-- What became of the host's last move: accepted, refused (R62, R63), ignored (R84), or a read's value. It is the
model's record and no flag of the block. -/
inductive Reply where
  | none
  | accepted
  | refused
  | ignored
  | value (v : HostValue)
deriving DecidableEq, Repr

/-- What the block is given from outside: the parameters (R7), the host's coming moves (R62), what became of the last
one, the oracles (R15), and the index of the next unspecified value (R207). -/
structure Env where
  params : Params
  script : List HostMove
  reply  : Reply
  oracle : Oracle
  free   : Nat
deriving DecidableEq, Repr

/-- The state of the block (R20) and its environment. -/
structure State where
  regs    : Regs
  flags   : Flags
  fcode   : Byte
  finfo   : Nat
  blkcnt  : Nat
  streams : Streams
  running : Option Job
  env     : Env
deriving DecidableEq, Repr

/-- `STATUS.BUSY` (R28): an accepted command has neither completed nor faulted. -/
def State.busy (s : State) : Bool := s.running.isSome

/-- The integer registers after reset (R34). -/
def Regs.reset : Regs :=
  { p := 0, q := 0, n := 0, a := 0, b := 0, m := 0, r := 0, x := 0, y := 0, mp := 0, mq := 0,
    m1 := 0, m2 := 0, m3 := 0, m4 := 0, sel := 0 }

/-- The flags after reset (R34). -/
def Flags.reset : Flags := { done := false, fault := false, result := false }

/-- The buffers and positions after reset (R34). -/
def Streams.reset : Streams := { inp := [], out := [], ledger := [], ipos := 0, lpos := 0 }

/-- An environment in which the parameters have the defaults of rule R7, the host makes no move and no oracle answer is
fixed. -/
def Env.initial : Env :=
  { params := .default, script := [], reply := .none,
    oracle := { bytes := [], bases := [], byteDraws := 0, baseDraws := 0 }, free := 0 }

/-- The reset state of rule R34 in a given environment: both resets leave what is outside the block alone (R232). -/
def State.resetIn (e : Env) : State :=
  { regs := .reset, flags := .reset, fcode := 0, finfo := 0, blkcnt := 0, streams := .reset, running := none, env := e }

/-- The block right after reset (R34). -/
def State.reset : State := State.resetIn .initial

end Sys2Proof.Machine
end

