-- ==== Sys2Proof/Machine/Flags.lean ====
section
/-! DEFINITION. The fault codes of rule R200, the word a read of `STATUS` returns (R26), and what issue, completion, a
verdict and a fault do to the flags (R28, R84, R206). -/

namespace Sys2Proof.Machine

/-- The number a fault writes to `FCODE` (R200). -/
def Cause.code : Cause → Byte
  | .invalidInput                 => 1
  | .arithmeticPrecondition       => 2
  | .ambiguousOrCorruptCiphertext => 3
  | .illegalCommand               => 4
  | .modulusZero                  => 5
  | .truncatedCiphertext          => 6
  | .capacityExceeded             => 7
  | .retryExhausted               => 8

/-- The word of `STATUS` (R26): bit 0 `BUSY`, bit 1 `DONE`, bit 2 `FAULT`, bit 3 `RESULT`; bits 31:4 read as 0. -/
def statusWord (s : State) : StatusWord :=
  BitVec.ofNat 32 (s.busy.toNat + 2 * s.flags.done.toNat + 4 * s.flags.fault.toNat + 8 * s.flags.result.toNat)

/-- Acceptance of a command (R84): `DONE <- 0`. -/
def Flags.issued (f : Flags) : Flags := { f with done := false }

/-- Completion without fault (R84): `DONE <- 1`. -/
def Flags.completed (f : Flags) : Flags := { f with done := true }

/-- Fault entry (R206): `DONE <- 0`, `FAULT <- 1`. -/
def Flags.faulted (f : Flags) : Flags := { f with done := false, fault := true }

/-- The verdict of PRIME (R113): `RESULT <- v`. -/
def Flags.withResult (f : Flags) (v : Bool) : Flags := { f with result := v }

end Sys2Proof.Machine
end

