-- ==== Sys2Proof/Machine/Operands.lean ====
section
/-! DEFINITION. The operands: reading and writing an integer register by its name (R9, R21), what a host read of each
register number returns (R26, R27, R62), and the bounded capacity of rule R24. -/

namespace Sys2Proof.Machine

/-- `x[reg]` (R9). -/
def Regs.get (g : Regs) : IntReg → Int
  | .p   => g.p
  | .q   => g.q
  | .n   => g.n
  | .a   => g.a
  | .b   => g.b
  | .m   => g.m
  | .r   => g.r
  | .x   => g.x
  | .y   => g.y
  | .mp  => g.mp
  | .mq  => g.mq
  | .m1  => g.m1
  | .m2  => g.m2
  | .m3  => g.m3
  | .m4  => g.m4
  | .sel => g.sel

/-- `x[reg] <- v` (R9). `A`, `B` and `M` are written by the host only, with naturals (R22). -/
def Regs.set (g : Regs) (v : Int) : IntReg → Regs
  | .p   => { g with p := v }
  | .q   => { g with q := v }
  | .n   => { g with n := v }
  | .a   => { g with a := v.toNat }
  | .b   => { g with b := v.toNat }
  | .m   => { g with m := v.toNat }
  | .r   => { g with r := v }
  | .x   => { g with x := v }
  | .y   => { g with y := v }
  | .mp  => { g with mp := v }
  | .mq  => { g with mq := v }
  | .m1  => { g with m1 := v }
  | .m2  => { g with m2 := v }
  | .m3  => { g with m3 := v }
  | .m4  => { g with m4 := v }
  | .sel => { g with sel := v }

/-- What a host read of a register or buffer returns (R62); `CMD` reads as 0 (R26). -/
def State.read (s : State) : Target → HostValue
  | .int reg => .number (s.regs.get reg)
  | .cmd     => .number 0
  | .status  => .number (statusWord s).toNat
  | .fcode   => .number s.fcode.toNat
  | .finfo   => .number s.finfo
  | .blkcnt  => .number s.blkcnt
  | .ipos    => .number s.streams.ipos
  | .lpos    => .number s.streams.lpos
  | .inp     => .bytes s.streams.inp
  | .out     => .bytes s.streams.out
  | .ledger  => .naturals s.streams.ledger

end Sys2Proof.Machine

namespace Sys2Proof

/-- The integer fits `XBITS` (R24): its magnitude is below `2 ^ XBITS`, always so when that is infinite. -/
def Params.fits (ps : Params) (v : Int) : Bool :=
  match ps.xbits with
  | none      => true
  | some bits => decide (v.natAbs < 2 ^ bits)

/-- The ledger entry fits `LEDGER_ENTRY_BITS` (R27). -/
def Params.entryFits (ps : Params) (v : Nat) : Bool :=
  match ps.ledgerEntryBits with
  | none      => true
  | some bits => decide (v < 2 ^ bits)

end Sys2Proof
end

