-- ==== Sys2Proof/Machine/Ops.lean ====
section
/-! DEFINITION. The operations the meanings share: the stream primitives (R16), the oracle draws (R15), a value held to
the capacity (R24), completion (R84), and the fault entry (R206) with the unspecified destinations it leaves (R207).
There is no return from a fault (R210) but a reset. -/

namespace Sys2Proof.Machine

/-! ### Streams (R16) -/

/-- `InRead(k)` (R16): at most `k` bytes from `IPOS`, fewer only at the end of `IN`; they are consumed (R57). -/
def Streams.inRead (st : Streams) (k : Nat) : List Byte × Streams :=
  ((st.inp.drop st.ipos).take k, { st with ipos := st.ipos + min k (st.inp.length - st.ipos) })

/-- `OutAppend(bs)` (R16). -/
def Streams.outAppend (st : Streams) (bs : List Byte) : Streams := { st with out := st.out ++ bs }

/-- `LedgerAppend(v)` (R16). -/
def Streams.ledgerAppend (st : Streams) (v : Nat) : Streams := { st with ledger := st.ledger ++ [v] }

/-- `LedgerNext()` (R16); `none` where it is not defined, at the end of the ledger. -/
def Streams.ledgerNext (st : Streams) : Option (Nat × Streams) :=
  match st.ledger[st.lpos]? with
  | some v => some (v, { st with lpos := st.lpos + 1 })
  | none   => none

/-- The read positions are within their buffers (R27). -/
def Streams.wf (st : Streams) : Bool :=
  decide (st.ipos ≤ st.inp.length) && decide (st.lpos ≤ st.ledger.length)

/-! ### Oracles (R15) -/

/-- The next byte of the random source: the next scripted answer, or the open source. -/
def Oracle.nextByte (o : Oracle) : Byte × Oracle :=
  match o.bytes with
  | b :: rest => (b, { o with bytes := rest })
  | []        => (Config.rngByte o.byteDraws, { o with byteDraws := o.byteDraws + 1 })

/-- `RngFill(k)` (R15): a byte string of length `k`. -/
def Oracle.rngFill : Nat → Oracle → List Byte × Oracle
  | 0, o => ([], o)
  | k + 1, o => (o.nextByte.1 :: (rngFill k o.nextByte.2).1, (rngFill k o.nextByte.2).2)

/-- An answer of the sampler, scripted or open, before it is brought into range. -/
def Oracle.nextAnswer (o : Oracle) : Nat × Oracle :=
  match o.bases with
  | a :: rest => (a, { o with bases := rest })
  | []        => (Config.samplerAnswer o.baseDraws, { o with baseDraws := o.baseDraws + 1 })

/-- An answer brought into `[1, c - 1]` (R15, R115); one that lies there already is taken as it is. -/
def intoRange (c answer : Nat) : Nat := 1 + (answer - 1) % (c - 1)

/-- `SampleBelow(c)` (R15). -/
def Oracle.sampleBelow (o : Oracle) (c : Nat) : Nat × Oracle :=
  (intoRange c o.nextAnswer.1, o.nextAnswer.2)

/-! ### Calculations that can fault -/

/-- A calculation of a rule: a value, or the first fault its pseudocode reaches (R211). -/
abbrev Calc (α : Type) := Except Cause α

/-- A natural that is written or named by a rule, held to the capacity (R24): never wrapped, never truncated. -/
def hold (ps : Params) (v : Nat) : Calc Nat :=
  if ps.fits v then .ok v else .error .capacityExceeded

/-- An integer that is written or named by a rule, held to the capacity (R24). -/
def holdInt (ps : Params) (v : Int) : Calc Int :=
  if ps.fits v then .ok v else .error .capacityExceeded

/-- The faults of a calculation, raised with the block index `blk` (R200, FINFO). -/
def atBlock {α : Type} (blk : Nat) : Calc α → Except Trap α
  | .ok v    => .ok v
  | .error c => .error { cause := c, info := blk }

/-! ### Destinations and what a fault leaves in them (R207) -/

/-- A piece of state a command can write, but for the `STATUS` flags, `FCODE` and `FINFO` (R83, R207). -/
inductive Dest where
  | reg (which : IntReg)
  | out
  | ledger
  | ipos
  | lpos
  | blkcnt
deriving DecidableEq, Repr

/-- The register or buffer a destination is (R51). -/
def Dest.target : Dest → Target
  | .reg which => .int which
  | .out       => .out
  | .ledger    => .ledger
  | .ipos      => .ipos
  | .lpos      => .lpos
  | .blkcnt    => .blkcnt

/-- The destinations of each command: the "writes" column of rule R83 less the flags. SRST writes all state and never
faults (R192). -/
def destinations : Instr → List Dest
  | .nop     => []
  | .prime   => []
  | .modexp  => [.reg .r]
  | .egcd    => [.reg .x, .reg .y]
  | .genmod  => [.reg .n]
  | .keygenp => [.reg .p]
  | .keygenq => [.reg .q]
  | .tag     => [.reg .r]
  | .untag   => [.reg .r]
  | .crt     => [.reg .n, .reg .mp, .reg .mq, .reg .x, .reg .y, .reg .m1, .reg .m2, .reg .m3, .reg .m4]
  | .select  => [.reg .sel, .reg .r]
  | .enc     => [.reg .n, .out, .ledger, .ipos, .lpos, .blkcnt]
  | .dec     => [.reg .n, .out, .ipos, .lpos, .blkcnt]
  | .srst    => []

/-- One destination takes an unspecified value of its type, an integer register any integer (R21); a position stays within
its buffer (R207). -/
def State.unspecify (s : State) (d : Dest) : State :=
  let k := s.env.free
  let s := { s with env := { s.env with free := k + 1 } }
  match d with
  | .reg which => { s with regs := s.regs.set (Config.unspecifiedInt k) which }
  | .out    => { s with streams := { s.streams with out := Config.unspecifiedBytes k } }
  | .ledger => { s with streams := { s.streams with ledger := Config.unspecifiedNats k } }
  | .ipos   => { s with streams := { s.streams with ipos := Config.unspecifiedNat k % (s.streams.inp.length + 1) } }
  | .lpos   => { s with streams := { s.streams with lpos := Config.unspecifiedNat k % (s.streams.ledger.length + 1) } }
  | .blkcnt => { s with blkcnt := Config.unspecifiedNat k }

/-! ### Completion and fault entry -/

/-- Completion without fault (R84): `BUSY <- 0`, `DONE <- 1`. -/
def complete (s : State) : State := { s with running := none, flags := s.flags.completed }

/-- Fault entry (R206): `BUSY <- 0`, `DONE <- 0`, `FAULT <- 1`, `FCODE` and `FINFO` written; nothing else is saved and
control goes nowhere. -/
def enterFault (t : Trap) (s : State) : State :=
  { s with running := none, flags := s.flags.faulted, fcode := t.cause.code, finfo := t.info }

/-- A running command raises a fault: its destinations are left unspecified (R207), and the fault is entered (R206). -/
def raise (i : Instr) (t : Trap) (s : State) : State :=
  enterFault t ((destinations i).foldl State.unspecify s)

/-- The end of a command (R84): the rule's writes and completion, or the fault it raised. -/
def settle {α : Type} (i : Instr) (result : Except Trap α) (write : α → State → State) (s : State) : State :=
  match result with
  | .ok v    => complete (write v s)
  | .error t => raise i t s

/-- The integer registers change, nothing else. -/
def State.withRegs (s : State) (g : Regs) : State := { s with regs := g }

/-- The oracles have been asked, nothing else. -/
def State.withOracle (s : State) (o : Oracle) : State := { s with env := { s.env with oracle := o } }

end Sys2Proof.Machine
end

