-- ==== Sys2Proof/Machine/HostPort.lean ====
section
/-! DEFINITION. The host's moves (R62), when each is taken (R63), and the issue of a command (R84). A move that is
refused or ignored changes nothing in the block and sets no flag. -/

namespace Sys2Proof.Machine

/-- What became of the host's move, noted; nothing in the block changes. -/
def State.reply (s : State) (what : Reply) : State := { s with env := { s.env with reply := what } }

/-- The host's coming moves. -/
def State.withScript (s : State) (moves : List HostMove) : State := { s with env := { s.env with script := moves } }

/-- A move that is taken only while no command is running (R63). -/
def State.whenIdle (s : State) (move : State → State) : State := if s.busy then s.reply .refused else move s

/-- `WR reg, bs` (R62, R22); a value past a finite `XBITS` is refused (R24). -/
def writeMove (number : Byte) (bs : List Byte) (s : State) : State :=
  match Target.ofNumber number with
  | some (.int reg) =>
    if reg.hostWritable && s.env.params.fits (beToNat bs) then
      ((s.withRegs (s.regs.set (beToNat bs) reg)).reply .accepted)
    else s.reply .refused
  | some _ => s.reply .refused
  | none   => s.reply .refused

/-- `RD reg` (R62): `STATUS` at any time, the others while no command is running; a reserved number is refused (R51). -/
def readMove (number : Byte) (s : State) : State :=
  match Target.ofNumber number with
  | some t => if s.busy && t != .status then s.reply .refused else s.reply (.value (s.read t))
  | none   => s.reply .refused

/-- `LOAD IN, bs` (R62). -/
def loadInMove (bs : List Byte) (s : State) : State :=
  { s with streams := { s.streams with inp := bs, ipos := 0 } }.reply .accepted

/-- `LOAD LEDGER, ls` (R62); an entry past a finite `LEDGER_ENTRY_BITS` is refused (R27). -/
def loadLedgerMove (ls : List Nat) (s : State) : State :=
  if ls.all s.env.params.entryFits then
    { s with streams := { s.streams with ledger := ls, lpos := 0 } }.reply .accepted
  else s.reply .refused

/-- Both resets (R192, R230): every piece of state takes its reset value, whatever was running. -/
def resetMove (s : State) : State := (State.resetIn s.env).reply .accepted

/-- Acceptance of a command (R84): `BUSY <- 1`, `DONE <- 0`. -/
def accept (i : Instr) (stall : Nat) (s : State) : State :=
  { s with running := some { cmd := i, stall := stall, tries := 0 }, flags := s.flags.issued }.reply .accepted

/-- `CMD op`: an issue attempt (R84). While a fault is recorded SRST is accepted and acts at once, since `BUSY = 1`
implies `FAULT = 0` (R28). A reserved opcode raises `IllegalCommand`, which changes no register and no buffer (R85,
R205). -/
def issue (w : Byte) (stall : Nat) (s : State) : State :=
  if s.busy then s.reply .ignored
  else if s.flags.fault then
    if w = 0xFF then resetMove s else s.reply .ignored
  else
    match decode w with
    | .command i  => accept i stall s
    | .reserved _ => (enterFault { cause := .illegalCommand, info := 0 } s).reply .accepted

/-- The wait of a script's `CMD` line (R88): the move stays at the head of the script until `BUSY = 0`. -/
def awaitMove (s : State) : State := if s.busy then s.withScript (.await :: s.env.script) else s

/-- The host makes one move (R62). -/
def hostMove (move : HostMove) (s : State) : State :=
  match move with
  | .wr number bs   => s.whenIdle (writeMove number bs)
  | .rd number      => readMove number s
  | .loadIn bs      => s.whenIdle (loadInMove bs)
  | .loadLedger ls  => s.whenIdle (loadLedgerMove ls)
  | .cmd w stall    => issue w stall s
  | .hardReset      => resetMove s
  | .await          => awaitMove s

end Sys2Proof.Machine
end

