-- ==== Sys2Proof/Machine/HostScript.lean ====
section
/-! DEFINITION. The lines and the pseudo-commands of a host script (rules R88 and R89) as lists of host moves. They add
no behaviour. -/

namespace Sys2Proof.Machine

/-- `WR reg, v` (R88): the natural is sent as `nat_to_be(v)`. -/
def scriptWr (reg : IntReg) (v : Nat) : List HostMove := [.wr reg.number (natToBe v)]

/-- `CMD 0xNN` (R88): the byte is written, then the host waits until `BUSY = 0`. -/
def scriptCmdByte (w : Byte) : List HostMove := [.cmd w 0, .await]

/-- `CMD mnemonic` (R88). -/
def scriptCmd (i : Instr) : List HostMove := scriptCmdByte (encode i)

/-- `RD` of a register or buffer (R88). -/
def scriptRd (t : Target) : List HostMove := [.rd t.number]

/-- `KEYPAIR` (R89). -/
def scriptKeypair : List HostMove := scriptCmd .keygenp ++ scriptCmd .keygenq ++ scriptCmd .genmod

/-- `ENCRYPT bytes` (R89). -/
def scriptEncrypt (bs : List Byte) : List HostMove := .loadIn bs :: scriptCmd .enc

/-- `DECRYPT bytes, ledger` (R89). -/
def scriptDecrypt (bs : List Byte) (ls : List Nat) : List HostMove := .loadIn bs :: .loadLedger ls :: scriptCmd .dec

/-- `DECBLOCK c` (R89). -/
def scriptDecblock (c : Nat) : List HostMove := scriptWr .a c ++ scriptCmd .crt ++ scriptCmd .select

/-- `SQRMOD` (R89). -/
def scriptSqrmod : List HostMove := scriptWr .b 2 ++ scriptCmd .modexp

end Sys2Proof.Machine
end

