-- ==== Sys2Proof/Machine/Egcd.lean ====
section
/-! DEFINITION. The extended_gcd_solver unit: EGCD (42_egcd.md). -/

namespace Sys2Proof.Machine

/-- The six variables of the recurrence of rule R141. -/
structure Bezout where
  r0 : Nat
  r1 : Nat
  s0 : Int
  s1 : Int
  t0 : Int
  t1 : Int
deriving DecidableEq, Repr

/-- One iteration (R141): the three parallel assignments, with the quotient `qt` of the values before it. -/
def Bezout.next (v : Bezout) : Bezout :=
  let qt := v.r0 / v.r1
  { r0 := v.r1, r1 := v.r0 - qt * v.r1,
    s0 := v.s1, s1 := v.s0 - qt * v.s1,
    t0 := v.t1, t1 := v.t0 - qt * v.t1 }

/-- The variables are within the capacity (R24). -/
def Bezout.fits (ps : Params) (v : Bezout) : Bool :=
  ps.fits v.r0 && ps.fits v.r1 && ps.fits v.s0 && ps.fits v.s1 && ps.fits v.t0 && ps.fits v.t1

/-- The loop of rule R141, `while r1 > 1`; the remainder strictly decreases, so a count of its first value bounds it
(R250). -/
def bezoutLoop (ps : Params) : Nat → Bezout → Calc Bezout
  | 0, v => .ok v
  | k + 1, v =>
    if 1 < v.r1 then
      if ps.fits (v.r0 / v.r1 : Nat) && v.next.fits ps then bezoutLoop ps k v.next
      else .error .capacityExceeded
    else .ok v

/-- The operands in order, the greater first (R141: swapped on strict `a < b`). -/
def bezoutStart (a b : Nat) : Bezout :=
  if a < b then { r0 := b, r1 := a, s0 := 1, s1 := 0, t0 := 0, t1 := 1 }
  else { r0 := a, r1 := b, s0 := 1, s1 := 0, t0 := 0, t1 := 1 }

/-- `extended_gcd(a, b)` (R141): the coefficient of `a` and that of `b`; a loop that ends on remainder 0 raises
`ArithmeticPrecondition` (R144). -/
def extendedGcd (ps : Params) (a b : Nat) : Calc (Int × Int) :=
  if (bezoutStart a b).fits ps then
    match bezoutLoop ps (bezoutStart a b).r1 (bezoutStart a b) with
    | .error c => .error c
    | .ok v =>
      if v.r1 ≠ 1 then .error .arithmeticPrecondition
      else if a < b then .ok (v.t1, v.s1) else .ok (v.s1, v.t1)
  else .error .capacityExceeded

/-- EGCD (R142): `X` the coefficient of `A`, `Y` that of `B`. -/
def execEgcd (s : State) : Host.Outcome State Fault Refusal :=
  .next (settle .egcd (atBlock 0 (extendedGcd s.env.params s.regs.a s.regs.b))
    (fun xy s => s.withRegs { s.regs with x := xy.1, y := xy.2 }) s)

end Sys2Proof.Machine
end

