-- ==== Sys2Proof/Machine/Crt.lean ====
section
/-! DEFINITION. The crt_quadratic_residue_selector unit: CRT and SELECT (43_codec_crt_select.md, sections 2 and 3). -/

namespace Sys2Proof.Machine

/-- What `crt_roots` returns (R154). -/
structure Roots where
  n  : Nat
  mp : Nat
  mq : Nat
  yp : Int
  yq : Int
  m1 : Nat
  m2 : Nat
  m3 : Nat
  m4 : Nat
deriving DecidableEq, Repr

/-- The true modulo of an integer (R10): the representative in `[0, n)`. -/
def intMod (v : Int) (n : Nat) : Nat := (v % (n : Int)).toNat

/-- `crt_roots(c, p, q)` (R154), its faults in the listing's order (R211). -/
def crtRoots (ps : Params) (c p q : Nat) : Calc Roots := do
  let n ← hold ps (p * q)
  if p = 0 then throw .modulusZero
  let mp ← hold ps (modexp c ((p + 1) / 4) p)
  if q = 0 then throw .modulusZero
  let mq ← hold ps (modexp c ((q + 1) / 4) q)
  let (yp, yq) ← extendedGcd ps p q
  let m1 ← hold ps (intMod (yp * p * mq + yq * q * mp) n)
  let m2 ← hold ps (n - m1)
  let m3 ← hold ps (intMod (yp * p * mq - yq * q * mp) n)
  let m4 ← hold ps (n - m3)
  return { n, mp, mq, yp, yq, m1, m2, m3, m4 }

/-- `select_root` (R157): the matches are counted by position, and exactly one must match. -/
def selectRoot (m1 m2 m3 m4 : Nat) : Calc Nat :=
  match [m1, m2, m3, m4].filter endsSuffix with
  | [hit] => .ok hit
  | _     => .error .ambiguousOrCorruptCiphertext

/-- CRT (R152): the root quadruple of `A` under `P`, `Q`. -/
def execCrt (s : State) : Host.Outcome State Fault Refusal :=
  .next (settle .crt (atBlock 0 (crtRoots s.env.params s.regs.a s.regs.p.toNat s.regs.q.toNat))
    (fun v s => s.withRegs { s.regs with
      n := v.n, mp := v.mp, mq := v.mq, x := v.yp, y := v.yq, m1 := v.m1, m2 := v.m2, m3 := v.m3, m4 := v.m4 }) s)

/-- SELECT (R158): the selected root, still tagged, and untagged. -/
def execSelect (s : State) : Host.Outcome State Fault Refusal :=
  .next (settle .select (atBlock 0 (selectRoot s.regs.m1.toNat s.regs.m2.toNat s.regs.m3.toNat s.regs.m4.toNat))
    (fun sel s => s.withRegs { s.regs with sel := sel, r := untagOf sel }) s)

end Sys2Proof.Machine
end

