-- ==== Sys2Proof/Machine/Cipher.lean ====
section
/-! DEFINITION. The rabin_block_cipher_engine unit: ENC and DEC (44_block_cipher.md). -/

namespace Sys2Proof.Machine

/-- `encrypt_block(chunk, n)` (R171); its temporaries `m` and `c` are held to the capacity (R24). -/
def encryptBlock (ps : Params) (chunk : List Byte) (n : Nat) : Calc (List Byte) := do
  let m ← hold ps (beToNat chunk)
  let c ← hold ps (modexp (tagOf m) 2 n)
  return natToBe c

/-- One block of ENC from the chunk its `InRead` returned (R172): the streams with the block appended. The temporary `j`
of `InRead` (R16), the length of the chunk, is held to the capacity first (R24); for the empty chunk, which ends the
loop, it is 0 and always fits. -/
def encBlock (ps : Params) (n : Nat) (chunk : List Byte) (st : Streams) : Calc Streams :=
  match hold ps chunk.length with
  | .error c => .error c
  | .ok _ =>
    if n = 0 then .error .modulusZero
    else
      match encryptBlock ps chunk n with
      | .error c => .error c
      | .ok bs =>
        if ps.entryFits bs.length then .ok ((st.ledgerAppend bs.length).outAppend bs) else .error .capacityExceeded

/-- `blk <- blk + 1`, held to the capacity (R24); a fault carries the block just processed. -/
def nextBlk (ps : Params) (blk : Nat) : Except Trap Nat := atBlock blk (hold ps (blk + 1))

/-- The loop of ENC (R172). The count bounds the reads: each but the last consumes a byte of `IN` (R250). -/
def encryptLoop (ps : Params) (n : Nat) : Nat → Streams → Nat → Except Trap (Streams × Nat)
  | 0, st, blk => .ok (st, blk)
  | k + 1, st, blk =>
    if (st.inRead Config.blockBytes).1 = [] then .ok ((st.inRead Config.blockBytes).2, blk)
    else
      match atBlock blk (encBlock ps n (st.inRead Config.blockBytes).1 (st.inRead Config.blockBytes).2) with
      | .error t => .error t
      | .ok st' =>
        match nextBlk ps blk with
        | .error t  => .error t
        | .ok blk'  => encryptLoop ps n k st' blk'

/-- The calculation of ENC (R172): the modulus, the streams and the block count it ends with. A modulus past the capacity
faults before any block is processed, and the information is then 0: the spec gives no index there (DESIGN CHOICE, log
18). -/
def encCalc (ps : Params) (p q : Nat) (st : Streams) : Except Trap (Nat × Streams × Nat) :=
  match atBlock 0 (hold ps (p * q)) with
  | .error t => .error t
  | .ok n =>
    match encryptLoop ps n (st.inp.length - st.ipos + 1) { st with out := [], ledger := [], lpos := 0 } 0 with
    | .error t       => .error t
    | .ok (st', blk) => .ok (n, st', blk)

/-- `decrypt_block(c, p, q)` (R160), the selected root untagged. -/
def decryptBlock (ps : Params) (c p q : Nat) : Calc Nat :=
  match crtRoots ps c p q with
  | .error e => .error e
  | .ok v =>
    match selectRoot v.m1 v.m2 v.m3 v.m4 with
    | .error e => .error e
    | .ok sel  => .ok (untagOf sel)

/-- One block of DEC once its `len` bytes are asked for and `cb` has been read (R176): the plaintext block. -/
def decBlock (ps : Params) (p q len : Nat) (cb : List Byte) : Calc (List Byte) :=
  if cb.length < len then .error .truncatedCiphertext
  else
    match hold ps (beToNat cb) with
    | .error e => .error e
    | .ok c =>
      match decryptBlock ps c p q with
      | .error e => .error e
      | .ok m    => .ok (natToBe m)

/-- The loop of DEC (R176); it stops without fault in the cases of rule R178. The count bounds the ledger reads
(R250). The temporary `j` of `InRead` (R16) is at most `L`, which has been held, so it fits (R24). -/
def decryptLoop (ps : Params) (p q : Nat) : Nat → Streams → Nat → Except Trap (Streams × Nat)
  | 0, st, blk => .ok (st, blk)
  | k + 1, st, blk =>
    match st.ledgerNext with
    | none => .ok (st, blk)
    | some (len, st1) =>
      match atBlock blk (hold ps len) with
      | .error t => .error t
      | .ok _ =>
        if (st1.inRead len).1 = [] then .ok ((st1.inRead len).2, blk)
        else
          match atBlock blk (decBlock ps p q len (st1.inRead len).1) with
          | .error t => .error t
          | .ok bs =>
            match nextBlk ps blk with
            | .error t => .error t
            | .ok blk' => decryptLoop ps p q k ((st1.inRead len).2.outAppend bs) blk'

/-- The calculation of DEC (R176). A modulus past the capacity faults before any block is processed, and the information is
then 0: the spec gives no index there (DESIGN CHOICE, log 18). -/
def decCalc (ps : Params) (p q : Nat) (st : Streams) : Except Trap (Nat × Streams × Nat) :=
  match atBlock 0 (hold ps (p * q)) with
  | .error t => .error t
  | .ok n =>
    match decryptLoop ps p q (st.ledger.length - st.lpos) { st with out := [] } 0 with
    | .error t       => .error t
    | .ok (st', blk) => .ok (n, st', blk)

/-- The writes of ENC and DEC at completion (R172, R176). -/
def writeCipher (v : Nat × Streams × Nat) (s : State) : State :=
  { s with regs := { s.regs with n := v.1 }, streams := v.2.1, blkcnt := v.2.2 }

/-- ENC (R172): encrypt the rest of `IN`. -/
def execEnc (s : State) : Host.Outcome State Fault Refusal :=
  .next (settle .enc (encCalc s.env.params s.regs.p.toNat s.regs.q.toNat s.streams) writeCipher s)

/-- DEC (R176): decrypt `IN` by the ledger. -/
def execDec (s : State) : Host.Outcome State Fault Refusal :=
  .next (settle .dec (decCalc s.env.params s.regs.p.toNat s.regs.q.toNat s.streams) writeCipher s)

end Sys2Proof.Machine
end

