-- ==== Sys2Proof/Machine/Codec.lean ====
section
/-! DEFINITION. The disambiguation codec: TAG and UNTAG (43_codec_crt_select.md, section 1). -/

namespace Sys2Proof.Machine

/-- TAG (R150). -/
def execTag (s : State) : Host.Outcome State Fault Refusal :=
  .next (settle .tag (atBlock 0 (hold s.env.params (tagOf s.regs.a)))
    (fun v s => s.withRegs { s.regs with r := v }) s)

/-- UNTAG (R151): floor division, no test of the suffix, no fault (R212). -/
def execUntag (s : State) : Host.Outcome State Fault Refusal :=
  .next (complete (s.withRegs { s.regs with r := untagOf s.regs.a }))

end Sys2Proof.Machine
end

