-- ==== Sys2Proof/Machine/Modexp.lean ====
section
/-! DEFINITION. The modular_exponentiation unit: MODEXP (40_modexp.md). -/

namespace Sys2Proof.Machine

/-- The calculation of rule R101: the modulus is tested before anything is computed. -/
def modexpCalc (ps : Params) (b e m : Nat) : Calc Nat :=
  if m = 0 then .error .modulusZero else hold ps (modexp b e m)

/-- MODEXP (R101). -/
def execModexp (s : State) : Host.Outcome State Fault Refusal :=
  .next (settle .modexp (atBlock 0 (modexpCalc s.env.params s.regs.a s.regs.b s.regs.m))
    (fun v s => s.withRegs { s.regs with r := v }) s)

end Sys2Proof.Machine
end

