-- ==== Sys2Proof/Machine/Primality.lean ====
section
/-! DEFINITION. The miller_rabin_tester unit: PRIME, KEYGENP, KEYGENQ and GENMOD (41_primality_keygen.md). -/

namespace Sys2Proof.Machine

/-- The result of one round (R112). -/
inductive Verdict where
  | pass
  | composite
deriving DecidableEq, Repr

/-- Repeated halving while even, counting the halvings (R111). -/
def decompLoop : Nat → Nat → Nat → Nat × Nat
  | 0, s, t => (s, t)
  | k + 1, s, t => if t % 2 = 0 then decompLoop k (s + 1) (t / 2) else (s, t)

/-- `decomp(c)` (R111): the pair `(s, t)` with `c - 1 = 2^s * t` and `t` odd. -/
def decomp (c : Nat) : Nat × Nat := decompLoop (c - 1) 0 (c - 1)

/-- The inner loop of a round (R112): the given number of squarings; the test for 1 comes before that for `c - 1`. -/
def squarings (c : Nat) : Nat → Nat → Verdict
  | 0, _ => .composite
  | k + 1, x =>
    if modexp x 2 c = 1 then .composite
    else if modexp x 2 c = c - 1 then .pass
    else squarings c k (modexp x 2 c)

/-- `round(c, s, t, a)` (R112). -/
def mrRound (c s t a : Nat) : Verdict :=
  if modexp a t c = 1 ∨ modexp a t c = c - 1 then .pass else squarings c (s - 1) (modexp a t c)

/-- `ROUNDS(d)` (R7, R114): at least 1 for `d >= 1` and monotone, whichever the parameter. -/
def roundCount : Rounds → Nat → Nat
  | .digitCount, d => d
  | .increments table, d =>
    1 + ((List.range d).map fun i => table.getD i (Config.roundIncrement i)).sum

/-- The rounds of the test (R116): each draws its base; the first that answers composite ends the test. -/
def rounds (c s t : Nat) : Nat → Oracle → Bool × Oracle
  | 0, o => (true, o)
  | k + 1, o =>
    match mrRound c s t (o.sampleBelow c).1 with
    | .composite => (false, (o.sampleBelow c).2)
    | .pass      => rounds c s t k (o.sampleBelow c).2

/-- `is_probable_prime(c)` (R116): its verdict and the oracles after its draws, or `InvalidInput` before any draw. This is
the test as PRIME runs it, which the table of rule R212 never lets raise `CapacityExceeded` (log 8). -/
def isProbablePrime (ps : Params) (c : Nat) (o : Oracle) : Calc (Bool × Oracle) :=
  if c ≤ 2 then .error .invalidInput
  else if c % 2 = 0 then .ok (false, o)
  else .ok (rounds c (decomp c).1 (decomp c).2 (roundCount ps.rounds (ndigits c)) o)

/-- PRIME (R113): the verdict goes to `STATUS.RESULT`. -/
def execPrime (s : State) : Host.Outcome State Fault Refusal :=
  .next (settle .prime (atBlock 0 (isProbablePrime s.env.params s.regs.a s.env.oracle))
    (fun v s => { s.withOracle v.2 with flags := s.flags.withResult v.1 }) s)

/-- One pass of the loop of key generation (R120) ends in one of these. -/
inductive Attempt where
  | accept (v : Nat)
  | again
  | fault (c : Cause)
deriving DecidableEq, Repr

/-- `rounds <- ROUNDS(ndigits(c))` (R116, R114), where the test reaches it, does not fit the capacity. The other
temporaries of the test are smaller than `c`. -/
def roundsOverflow (ps : Params) (c : Nat) : Bool :=
  decide (2 < c) && decide (c % 2 = 1) && !ps.fits (roundCount ps.rounds (ndigits c) : Nat)

/-- `is_probable_prime(c)` as key generation runs it: its temporary `rounds` is held to the capacity before any base is
drawn (R24, R212). -/
def heldTest (ps : Params) (c : Nat) (o : Oracle) : Calc (Bool × Oracle) :=
  if roundsOverflow ps c then .error .capacityExceeded else isProbablePrime ps c o

/-- A sample read as a big-endian two's-complement integer is negative (R54): bit 7 of its first byte is 1. -/
def negativeSample (bs : List Byte) : Bool :=
  match bs with
  | []     => false
  | b :: _ => decide (0x80 ≤ b.toNat)

/-- What becomes of a sample (R120, from its sign to its residue class). -/
def judgeSample (ps : Params) (bs : List Byte) (o : Oracle) : Attempt × Oracle :=
  if negativeSample bs then (.again, o)
  else if ps.fits (beToNat bs) then
    match heldTest ps (beToNat bs) o with
    | .error c        => (.fault c, o)
    | .ok (false, o') => (.again, o')
    | .ok (true, o')  => if beToNat bs % 4 = 3 then (.accept (beToNat bs), o') else (.again, o')
  else (.fault .capacityExceeded, o)

/-- One pass of the loop of rule R120 after `tries` passes: the cap (R130), the draw of a sample, and what becomes of
it. -/
def keyAttempt (ps : Params) (tries : Nat) (o : Oracle) : Attempt × Oracle :=
  if ps.retryCap = some tries then (.fault .retryExhausted, o)
  else if ps.fits (tries + 1 : Nat) then
    judgeSample ps (o.rngFill Config.keyBytes).1 (o.rngFill Config.keyBytes).2
  else (.fault .capacityExceeded, o)

/-- The calls of `RngFill` the running command has made (R120). -/
def State.tries (s : State) : Nat :=
  match s.running with
  | some job => job.tries
  | none     => 0

/-- One pass of key generation into `dst`: accepted, it completes; faulted, the fault is entered; else it stays running
(`BUSY = 1`) with one try more, and the next step makes the next pass (R120, R132). -/
def keygenPass (i : Instr) (dst : IntReg) (s : State) : State :=
  match keyAttempt s.env.params s.tries s.env.oracle with
  | (.accept v, o) => complete ((s.withOracle o).withRegs (s.regs.set v dst))
  | (.again, o)    => { s.withOracle o with running := some { cmd := i, stall := 0, tries := s.tries + 1 } }
  | (.fault c, o)  => raise i { cause := c, info := 0 } (s.withOracle o)

/-- KEYGENP (R124). -/
def execKeygenp (s : State) : Host.Outcome State Fault Refusal := .next (keygenPass .keygenp .p s)

/-- KEYGENQ (R125). -/
def execKeygenq (s : State) : Host.Outcome State Fault Refusal := .next (keygenPass .keygenq .q s)

/-- GENMOD (R128). -/
def execGenmod (s : State) : Host.Outcome State Fault Refusal :=
  .next (settle .genmod (atBlock 0 (hold s.env.params (s.regs.p.toNat * s.regs.q.toNat)))
    (fun n s => s.withRegs { s.regs with n := n }) s)

end Sys2Proof.Machine
end

