-- ==== Sys2Proof/Machine/System.lean ====
section
/-! DEFINITION. The system commands NOP and SRST (45_system.md). -/

namespace Sys2Proof.Machine

/-- NOP (R190): nothing but its completion. -/
def execNop (s : State) : Host.Outcome State Fault Refusal := .next (complete s)

/-- SRST (R192): every piece of state takes its reset value, `DONE` among it; what is outside the block stays. -/
def execSrst (s : State) : Host.Outcome State Fault Refusal := .next (State.resetIn s.env)

end Sys2Proof.Machine
end

