-- ==== Sys2Proof/Machine/Dispatch.lean ====
section
/-! DEFINITION. The one match from a command to its meaning: what the sequencer does with an accepted command (R84). -/

namespace Sys2Proof.Machine

def exec (i : Instr) (s : State) : Host.Outcome State Fault Refusal :=
  match i with
  | .nop => Sys2Proof.Machine.execNop s
  | .prime => Sys2Proof.Machine.execPrime s
  | .modexp => Sys2Proof.Machine.execModexp s
  | .egcd => Sys2Proof.Machine.execEgcd s
  | .genmod => Sys2Proof.Machine.execGenmod s
  | .keygenp => Sys2Proof.Machine.execKeygenp s
  | .keygenq => Sys2Proof.Machine.execKeygenq s
  | .tag => Sys2Proof.Machine.execTag s
  | .untag => Sys2Proof.Machine.execUntag s
  | .crt => Sys2Proof.Machine.execCrt s
  | .select => Sys2Proof.Machine.execSelect s
  | .enc => Sys2Proof.Machine.execEnc s
  | .dec => Sys2Proof.Machine.execDec s
  | .srst => Sys2Proof.Machine.execSrst s

end Sys2Proof.Machine
end

