-- ==== Sys2Proof/Machine/Sequencer.lean ====
section
/-! DEFINITION. The two agents of a step (rules R18, R19): the host makes its next move, if it has one, and then the
sequencer has its turn with the command that is running. -/

namespace Sys2Proof.Machine

/-- The sequencer's turn: none while no command is running; a command that stays busy counts down; else the command
takes its whole effect at once (R19), key generation one pass of its loop (R120). -/
def sequencerTurn (s : State) : Host.Outcome State Fault Refusal :=
  match s.running with
  | none => .next s
  | some { cmd := i, stall := 0, tries := _ } => exec i s
  | some { cmd := i, stall := k + 1, tries := t } => .next { s with running := some { cmd := i, stall := k, tries := t } }

/-- The host's next move is made (R62); with no move left the host is silent. -/
def hostTurn (s : State) : State :=
  match s.env.script with
  | [] => s
  | move :: rest => hostMove move (s.withScript rest)

/-- A state in which the host is about to write the command word `w`, the block idle and without a recorded fault. -/
def State.withCommand (s : State) (w : Byte) : State :=
  { s with
    running := none
    flags := { s.flags with fault := false }
    fcode := if s.flags.fault then 0 else s.fcode
    finfo := if s.flags.fault then 0 else s.finfo
    env := { s.env with script := .cmd w 0 :: s.env.script } }

end Sys2Proof.Machine
end

