-- ==== Sys2Proof/Machine/Step.lean ====
section
/-! DEFINITION. One step of the machine, and where a command stands that the next step is to run. -/

namespace Sys2Proof.Machine

/-- One step (R18, R19): the host's move, then the sequencer's turn. -/
def step (s : State) : Host.Outcome State Fault Refusal := sequencerTurn (hostTurn s)

/-- The command of an opcode-table row where the next step takes it: at the head of the host's moves, as a write of
`CMD` that the block accepts. A command is 8 bits (R80), so the word is its byte, and the bits above
`nbits` are 0. -/
def State.withFetchWord (s : State) (nbits w : Nat) : State :=
  s.withCommand (BitVec.ofNat 8 (w % 2 ^ nbits))

end Sys2Proof.Machine
end

