-- ==== Sys2Proof/WellFormed.lean ====
section
/-! DEFINITION. What is well formed, as decidable checks: a command, a command word, a host move, and the literals of
rule R6. A command has no operand (R81), so the check of a command accepts every term; the other three refuse some. -/

namespace Sys2Proof

/-- A command is well formed: format `C8` has no field beside `OPCODE` (R81), so there is nothing to refuse. -/
def Instr.wf (_ : Instr) : Bool := true

/-- A command word is well formed when it is one of the fourteen OPCODEs (R83), not a reserved one (R85). -/
def commandWordWf (w : Byte) : Bool :=
  match decode w with
  | .command _  => true
  | .reserved _ => false

/-- A host move names what it may name (R51, R62): `WR` a host-writable integer register, `RD` a number that is not
reserved. Whether the block takes a well-formed move still depends on `BUSY` (R63). -/
def HostMove.wf : HostMove → Bool
  | .wr number _ =>
    match Target.ofNumber number with
    | some (.int reg) => reg.hostWritable
    | some _          => false
    | none            => false
  | .rd number    => (Target.ofNumber number).isSome
  | .loadIn _     => true
  | .loadLedger _ => true
  | .cmd _ _      => true
  | .hardReset    => true
  | .await        => true

/-- The literals agree (R6): `TAG` is a 1 followed by the digits of `SUFFIX`, and `KEYBITS` is a multiple of 8. -/
def Literals.wf (l : Literals) : Bool :=
  l.tag == l.suffix.foldl (fun v d => v * 10 + d) 1 && l.keyBits % 8 == 0

end Sys2Proof
end

