-- ==== Sys2Proof/Safety.lean ====
section
/-! DEFINITION. What the statements mean by a good state: the invariant of the block, a block ready for a command, and the
keys of rule R29. -/

namespace Sys2Proof.Machine

/-- What every step keeps. Of the spec: positions within their buffers (R27); at most one of `BUSY` and `DONE`, and
`BUSY = 1` implies `FAULT = 0` (R28); a fault is recorded exactly when `FCODE` is not 0, and then it is a code of rule
R200; `FINFO` is 0 while no fault is recorded (R26); and while none is, every integer register and ledger entry is within a
finite capacity (R24, R27) and every register but `X` and `Y` is a natural (R23). -/
structure State.Inv (s : State) : Prop where
  positions : s.streams.wf = true
  notDone   : s.busy = true → s.flags.done = false
  notFault  : s.busy = true → s.flags.fault = false
  recorded  : s.flags.fault = true ↔ s.fcode ≠ 0
  codes     : s.fcode.toNat ≤ 8
  noInfo    : s.flags.fault = false → s.finfo = 0
  regsFit   : s.flags.fault = false → ∀ reg, s.env.params.fits (s.regs.get reg) = true
  entryFit  : s.flags.fault = false → ∀ v ∈ s.streams.ledger, s.env.params.entryFits v = true
  naturals  : s.flags.fault = false → ∀ reg, reg ≠ .x → reg ≠ .y → 0 ≤ s.regs.get reg

/-- The block takes any command: no command runs and no fault is recorded (R84). -/
def State.Ready (s : State) : Prop := s.busy = false ∧ s.flags.fault = false

/-- A Blum prime (R17): a prime congruent to 3 modulo 4. -/
def BlumPrime (p : Nat) : Prop := p.Prime ∧ p % 4 = 3

/-- A keypair (R29): two distinct Blum primes. -/
def Keypair (p q : Nat) : Prop := BlumPrime p ∧ BlumPrime q ∧ p ≠ q

/-- `P` and `Q` hold these naturals. No state that a run reaches without a fault holds anything else there (R23,
`State.Inv.naturals`). -/
def State.HoldsKey (s : State) (p q : Nat) : Prop := s.regs.p = p ∧ s.regs.q = q

/-- The capacities are infinite, the defaults of rule R7. -/
def Unbounded (ps : Params) : Prop := ps.xbits = none ∧ ps.ledgerEntryBits = none

end Sys2Proof.Machine
end

