-- ==== Sys2Proof/Certificates/Slice0/Obligations.lean ====
section
/-! DEFINITION. The statements for the provers, from the numbered rules of the spec. Where a statement can, it gives the
next state as a whole (what is not named is unchanged) and in plain arithmetic, not in the model's own functions. -/

namespace Sys2Proof.Machine

/-- What every register number but those in `except` reads as is the same in both states (R51: the sixteen integer
registers, the control and status registers, the positions, and the whole content of the three buffers). -/
def Same (except : List Target) (s t : State) : Prop := ∀ g, g ∉ except → t.read g = s.read g

/-- The environment is the same but for the oracles and the index of the next unspecified value. -/
def SameOutside (s t : State) : Prop :=
  t.env.params = s.env.params ∧ t.env.script = s.env.script ∧ t.env.reply = s.env.reply

/-- The command has faulted (R206, R207): `BUSY = 0`, `DONE = 0`, `FAULT = 1`, `FCODE` and `FINFO` as given, `RESULT`
unchanged, and nothing changed but these and the destinations `dests`. -/
def FaultedAs (code info : Nat) (dests : List Target) (s t : State) : Prop :=
  t.busy = false ∧ t.flags.done = false ∧ t.flags.fault = true ∧ t.flags.result = s.flags.result ∧
  t.fcode.toNat = code ∧ t.finfo = info ∧
  Same (.status :: .fcode :: .finfo :: dests) s t ∧ SameOutside s t ∧ t.env.oracle = s.env.oracle

/-- The decimal numeral ends in four zeros after another digit (R13, its arithmetic form). -/
def EndsInFourZeros (m : Nat) : Prop := 10000 ≤ m ∧ m % 10000 = 0

/-- The candidate `c` passes the round of base `a` (R112 in terms of powers): with `c - 1 = 2^s * t`, `t` odd, `a^t` is
1, or some `a^(2^r * t)` with `r < s` is `c - 1`, modulo `c`. -/
def PassesBase (c a : Nat) : Prop :=
  ∃ s t, c - 1 = 2 ^ s * t ∧ t % 2 = 1 ∧ (a ^ t % c = 1 ∨ ∃ r < s, a ^ (2 ^ r * t) % c = c - 1)

/-- The destinations of each command as register numbers name them (R83, the "writes" column less the flags). -/
def writesOf : Instr → List Target
  | .nop     => []
  | .prime   => []
  | .modexp  => [.int .r]
  | .egcd    => [.int .x, .int .y]
  | .genmod  => [.int .n]
  | .keygenp => [.int .p]
  | .keygenq => [.int .q]
  | .tag     => [.int .r]
  | .untag   => [.int .r]
  | .crt     => [.int .n, .int .mp, .int .mq, .int .x, .int .y, .int .m1, .int .m2, .int .m3, .int .m4]
  | .select  => [.int .sel, .int .r]
  | .enc     => [.int .n, .out, .ledger, .ipos, .lpos, .blkcnt]
  | .dec     => [.int .n, .out, .ipos, .lpos, .blkcnt]
  | .srst    => []

/-- The fault codes each command can record (R212, the table). -/
def codesOf : Instr → List Nat
  | .nop     => []
  | .prime   => [1]
  | .modexp  => [5, 7]
  | .egcd    => [2, 7]
  | .genmod  => [7]
  | .keygenp => [1, 7, 8]
  | .keygenq => [1, 7, 8]
  | .tag     => [7]
  | .untag   => []
  | .crt     => [2, 5, 7]
  | .select  => [3]
  | .enc     => [5, 7]
  | .dec     => [2, 3, 5, 6, 7]
  | .srst    => []

/-- The state with the capacities infinite, the defaults of rule R7. -/
def State.uncapped (s : State) : State :=
  { s with env := { s.env with params := { s.env.params with xbits := none, ledgerEntryBits := none } } }

/-- All the state of the block is at its reset value (R34). -/
def AllReset (t : State) : Prop :=
  (∀ reg, t.regs.get reg = 0) ∧ t.busy = false ∧ t.flags.done = false ∧ t.flags.fault = false ∧
  t.flags.result = false ∧ t.fcode = 0 ∧ t.finfo = 0 ∧ t.blkcnt = 0 ∧ t.streams.inp = [] ∧ t.streams.out = [] ∧
  t.streams.ledger = [] ∧ t.streams.ipos = 0 ∧ t.streams.lpos = 0

/-- The two key generations and their destinations (R124, R125). -/
def KeyCommand (i : Instr) (dst : IntReg) : Prop := (i = .keygenp ∧ dst = .p) ∨ (i = .keygenq ∧ dst = .q)

/-- Chunk `i` of what is left of `IN` (R55): `IN[IPOS + 16*i .. min(IPOS + 16*i + 16, len(IN)))`. -/
def State.chunk (s : State) (i : Nat) : List Byte := (s.streams.inp.drop (s.streams.ipos + 16 * i)).take 16

/-- The number of chunks of what is left of `IN` (R173). -/
def State.chunkCount (s : State) : Nat := (s.streams.inp.length - s.streams.ipos + 15) / 16

/-- The number tagged and squared of chunk `i` modulo `n`, serialised (R171): its ciphertext block. -/
def State.cipher (s : State) (n i : Nat) : List Byte := natToBe ((beToNat (s.chunk i) * 10000) ^ 2 % n)

/-- The nine destinations of CRT (R83). -/
abbrev nine : List Target := writesOf .crt

/-- The coming sample of the random source and what follows it, for an attempt that neither the cap nor the capacity of
`tries` ends (R120, R130, R24). -/
def State.Samples (s : State) (bs rest : List Byte) : Prop :=
  s.env.oracle.bytes = bs ++ rest ∧ bs.length = 64 ∧ s.env.params.retryCap ≠ some s.tries ∧
  s.env.params.fits (s.tries + 1 : Nat) = true

end Sys2Proof.Machine

open Sys2Proof Sys2Proof.Machine

/-! ### Encoding, and how a step comes to a command -/

/-- R83: the fourteen words of the opcode map, and the two ends of the reserved space (R85). -/
def Obligations.WrittenWordsDecode : Prop :=
  decode 0b00000000 = .command .nop ∧ decode 0b00000001 = .command .prime ∧ decode 0b00000010 = .command .modexp ∧
  decode 0b00000011 = .command .egcd ∧ decode 0b00000100 = .command .genmod ∧ decode 0b00000101 = .command .keygenp ∧
  decode 0b00000110 = .command .keygenq ∧ decode 0b00000111 = .command .tag ∧ decode 0b00001000 = .command .untag ∧
  decode 0b00001001 = .command .crt ∧ decode 0b00001010 = .command .select ∧ decode 0b00001011 = .command .enc ∧
  decode 0b00001100 = .command .dec ∧ decode 0b11111111 = .command .srst ∧
  decode 0b00001101 = .reserved 0b00001101 ∧ decode 0b11111110 = .reserved 0b11111110

/-- R86: a decoder is total: every word is one of the fourteen commands, and then it is the word the encoder gives that
command, or it is a reserved word, 0x0D to 0xFE, which leads to `IllegalCommand`; and decoding what the encoder gives returns
the command. -/
def Obligations.DecodeEncodeRoundTrip : Prop :=
  (∀ i : Instr, decode (encode i) = .command i) ∧
  (∀ w : Byte, (∃ i, decode w = .command i ∧ encode i = w) ∨
    (0x0D ≤ w.toNat ∧ w.toNat ≤ 0xFE ∧ decode w = .reserved w)) ∧
  ∀ (s : State) (w v : Byte) (k : Nat), s.Ready → decode w = .reserved v →
    (hostMove (.cmd w k) s).flags.fault = true ∧ (hostMove (.cmd w k) s).fcode = 4

/-- R84, the issue of a command as the model steps it (log 3): a ready block whose host writes a command word, which is to
stay busy for no further step, runs that command on the state in which it has been accepted. -/
def Obligations.StepRunsTheDecodedCommand : Prop :=
  ∀ (s : State) (w : Byte) (i : Instr) (rest : List HostMove),
    s.Ready → s.env.script = .cmd w 0 :: rest → decode w = .command i →
    step s = exec i { s with
      running := some { cmd := i, stall := 0, tries := 0 }
      flags := { s.flags with done := false }
      env := { s.env with script := rest, reply := .accepted } }

/-- R19: between issue and completion nothing is visible but `BUSY = 1` and `DONE = 0`; the running command takes its
effect in the step in which it is no longer to stay busy. How long it stays busy, and that a step counts it down, is the
model's choice (log 3). -/
def Obligations.RunningCommandShowsNothing : Prop :=
  (∀ (s : State) (w : Byte) (i : Instr) (k : Nat) (rest : List HostMove),
    s.Ready → s.env.script = .cmd w (k + 1) :: rest → decode w = .command i →
    ∃ t, step s = .next t ∧ t.busy = true ∧ t.flags.done = false ∧ Same [.status] s t ∧
      t.running = some { cmd := i, stall := k, tries := 0 }) ∧
  (∀ (s : State) (i : Instr) (k n : Nat),
    s.env.script = [] → s.running = some { cmd := i, stall := k + 1, tries := n } →
    step s = .next { s with running := some { cmd := i, stall := k, tries := n } }) ∧
  (∀ (s : State) (i : Instr) (n : Nat),
    s.env.script = [] → s.running = some { cmd := i, stall := 0, tries := n } → step s = exec i s)

/-- Every step answers a next state: nothing in the spec stops the machine (93_implementation_defined.md, the end of
Part 1). -/
def Obligations.EveryStepAnswersNext : Prop := ∀ s : State, ∃ t, step s = .next t

/-! ### Reset, and the invariant of the block -/

/-- R34: the state after reset. -/
def Obligations.ResetStateIsAllZero : Prop := AllReset State.reset

/-- The reset state meets the invariant. -/
def Obligations.ResetMeetsTheInvariant : Prop := State.reset.Inv

/-- Every step keeps the invariant of the block: positions within their buffers (R27), `BUSY` against `DONE` and `FAULT`
(R28), `FCODE` and `FINFO` against `FAULT` (R26, R200), and while no fault is recorded registers and ledger entries within
a finite capacity (R24, R27) and every register but `X` and `Y` a natural (R23). -/
def Obligations.StepKeepsTheInvariant : Prop := ∀ s t : State, s.Inv → step s = .next t → t.Inv

/-- R192: SRST puts all state at its reset value, `DONE` among it, and touches nothing outside the block (R232). -/
def Obligations.SoftResetClearsAllState : Prop :=
  ∀ s : State, ∃ t, exec .srst s = .next t ∧ AllReset t ∧ t.env = s.env

/-- R230: hard reset acts in every state, whatever is running, and none of the running command's writes becomes visible. -/
def Obligations.HardResetActsAtAnyTime : Prop :=
  ∀ (s : State) (rest : List HostMove), s.env.script = .hardReset :: rest →
    ∃ t, step s = .next t ∧ AllReset t ∧ t.env = { s.env with script := rest, reply := .accepted }

/-! ### The host's moves -/

/-- R84: what a write of `CMD` does, in the order it is decided. That SRST written while a fault is recorded resets at once,
without a `BUSY` phase, is the model's reading (log 9). -/
def Obligations.IssueIsDecidedInOrder : Prop :=
  ∀ (s : State) (w : Byte) (k : Nat),
    (s.busy = true → hostMove (.cmd w k) s = s.reply .ignored) ∧
    (s.busy = false → s.flags.fault = true → w ≠ 0xFF → hostMove (.cmd w k) s = s.reply .ignored) ∧
    (s.busy = false → s.flags.fault = true → w = 0xFF → AllReset (hostMove (.cmd w k) s) ∧
      (hostMove (.cmd w k) s).env = { s.env with reply := .accepted }) ∧
    (∀ i, s.Ready → decode w = .command i → hostMove (.cmd w k) s = { s with
      running := some { cmd := i, stall := k, tries := 0 }
      flags := { s.flags with done := false }
      env := { s.env with reply := .accepted } })

/-- R205: a reserved opcode written to a ready block raises `IllegalCommand`: `DONE <- 0`, `FAULT <- 1`, `FCODE <- 4`,
`FINFO <- 0` (R84); `BUSY` never becomes 1, and no register and no buffer changes (R85). It is the only fault a host move
raises: every other one comes from inside a running command. -/
def Obligations.ReservedOpcodeRaisesIllegalCommand : Prop :=
  (∀ (s : State) (w : Byte) (k : Nat), s.Ready → 0x0D ≤ w.toNat → w.toNat ≤ 0xFE →
    hostMove (.cmd w k) s = { s with
      flags := { s.flags with done := false, fault := true }
      fcode := 4
      finfo := 0
      env := { s.env with reply := .accepted } }) ∧
  ∀ (s : State) (move : HostMove), s.flags.fault = false → (hostMove move s).flags.fault = true →
    s.busy = false ∧ ∃ w k, move = .cmd w k ∧ 0x0D ≤ w.toNat ∧ w.toNat ≤ 0xFE

/-- R63: while a command runs every move but `RD STATUS`, `CMD` and hard reset is refused; `RD STATUS` returns the status, a
write of `CMD` is ignored, and hard reset resets. -/
def Obligations.MovesAreRefusedWhileBusy : Prop :=
  ∀ s : State, s.busy = true →
    (∀ number bs, hostMove (.wr number bs) s = s.reply .refused) ∧
    (∀ bs, hostMove (.loadIn bs) s = s.reply .refused) ∧
    (∀ ls, hostMove (.loadLedger ls) s = s.reply .refused) ∧
    (∀ number, number ≠ 0x11 → hostMove (.rd number) s = s.reply .refused) ∧
    hostMove (.rd 0x11) s = s.reply (.value (.number (statusWord s).toNat)) ∧
    (∀ w k, hostMove (.cmd w k) s = s.reply .ignored) ∧
    AllReset (hostMove .hardReset s)

/-- R62, R51: `WR` of a register that is not host-writable is refused (N 0x02, R, X, Y, MP, MQ 0x06 to 0x0A, SEL 0x0F, STATUS
to LPOS 0x11 to 0x16, OUT 0x21), and `WR` and `RD` of a reserved number (0x17 to 0x1F, 0x23 to 0xFF), in every state. That `WR`
to the numbers of `CMD`, `IN` and `LEDGER` (0x10, 0x20, 0x22) is refused too is the model's reading (log 12). -/
def Obligations.IllFormedMovesAreRefused : Prop :=
  ∀ (s : State) (number : Byte) (bs : List Byte),
    (number ∈ [0x02, 0x06, 0x07, 0x08, 0x09, 0x0A, 0x0F, 0x11, 0x12, 0x13, 0x14, 0x15, 0x16, 0x21] →
      hostMove (.wr number bs) s = s.reply .refused) ∧
    ((0x17 ≤ number.toNat ∧ number.toNat ≤ 0x1F) ∨ 0x23 ≤ number.toNat →
      hostMove (.wr number bs) s = s.reply .refused ∧ hostMove (.rd number) s = s.reply .refused) ∧
    (number ∈ [0x10, 0x20, 0x22] → hostMove (.wr number bs) s = s.reply .refused)

/-- R62, R22, R52: `WR` stores the big-endian value of the bytes in the one register its number names (R51); with a finite
`XBITS` a value that does not fit is refused (R24). The registers are P, Q, A, B, M, M1, M2, M3, M4. -/
def Obligations.HostWriteStoresTheNatural : Prop :=
  ∀ (s : State) (number : Byte) (reg : IntReg) (bs : List Byte), s.busy = false →
    (number, reg) ∈ [((0x00 : Byte), IntReg.p), (0x01, .q), (0x03, .a), (0x04, .b), (0x05, .m),
      (0x0B, .m1), (0x0C, .m2), (0x0D, .m3), (0x0E, .m4)] →
    (s.env.params.fits (Nat.ofDigits 256 (bs.reverse.map BitVec.toNat) : Nat) = true →
      (hostMove (.wr number bs) s).regs.get reg = (Nat.ofDigits 256 (bs.reverse.map BitVec.toNat) : Nat) ∧
      Same [.int reg] s (hostMove (.wr number bs) s) ∧
      (hostMove (.wr number bs) s).env = { s.env with reply := .accepted }) ∧
    (s.env.params.fits (Nat.ofDigits 256 (bs.reverse.map BitVec.toNat) : Nat) = false →
      hostMove (.wr number bs) s = s.reply .refused)

/-- R62: `LOAD IN` and `LOAD LEDGER` replace the whole content and set the position to 0, also while a fault is recorded;
with a finite `LEDGER_ENTRY_BITS` a ledger with a larger entry is refused (R27). -/
def Obligations.HostLoadsReplaceTheBuffer : Prop :=
  ∀ s : State, s.busy = false →
    (∀ bs, hostMove (.loadIn bs) s = { s with
      streams := { s.streams with inp := bs, ipos := 0 }, env := { s.env with reply := .accepted } }) ∧
    (∀ ls : List Nat, (∀ v ∈ ls, s.env.params.entryFits v = true) → hostMove (.loadLedger ls) s = { s with
      streams := { s.streams with ledger := ls, lpos := 0 }, env := { s.env with reply := .accepted } }) ∧
    (∀ ls : List Nat, (∃ v ∈ ls, s.env.params.entryFits v = false) → hostMove (.loadLedger ls) s = s.reply .refused)

/-- R62, R57: while no command runs a read returns the value of what its number names (R51), also while a fault is
recorded, and has no side effect; `CMD` reads as 0 (R26). That a read of `X` or `Y` returns the integer, not its sign and
magnitude, is the model's reading (log 14), and that `CMD` reads as 0 only here, log 12. -/
def Obligations.HostReadsReturnTheValue : Prop :=
  ∀ s : State, s.busy = false →
    (∀ (number : Byte) (reg : IntReg), (number, reg) ∈ [((0x00 : Byte), IntReg.p), (0x01, .q), (0x02, .n), (0x03, .a),
        (0x04, .b), (0x05, .m), (0x06, .r), (0x07, .x), (0x08, .y), (0x09, .mp), (0x0A, .mq), (0x0B, .m1), (0x0C, .m2),
        (0x0D, .m3), (0x0E, .m4), (0x0F, .sel)] →
      hostMove (.rd number) s = s.reply (.value (.number (s.regs.get reg)))) ∧
    hostMove (.rd 0x10) s = s.reply (.value (.number 0)) ∧
    hostMove (.rd 0x11) s = s.reply (.value (.number (statusWord s).toNat)) ∧
    hostMove (.rd 0x12) s = s.reply (.value (.number s.fcode.toNat)) ∧
    hostMove (.rd 0x13) s = s.reply (.value (.number s.finfo)) ∧
    hostMove (.rd 0x14) s = s.reply (.value (.number s.blkcnt)) ∧
    hostMove (.rd 0x15) s = s.reply (.value (.number s.streams.ipos)) ∧
    hostMove (.rd 0x16) s = s.reply (.value (.number s.streams.lpos)) ∧
    hostMove (.rd 0x20) s = s.reply (.value (.bytes s.streams.inp)) ∧
    hostMove (.rd 0x21) s = s.reply (.value (.bytes s.streams.out)) ∧
    hostMove (.rd 0x22) s = s.reply (.value (.naturals s.streams.ledger))

/-- R26: bit 0 of `STATUS` is `BUSY`, bit 1 `DONE`, bit 2 `FAULT`, bit 3 `RESULT`, and bits 31:4 read as 0. -/
def Obligations.StatusWordFields : Prop :=
  ∀ s : State, (statusWord s).getLsbD 0 = s.busy ∧ (statusWord s).getLsbD 1 = s.flags.done ∧
    (statusWord s).getLsbD 2 = s.flags.fault ∧ (statusWord s).getLsbD 3 = s.flags.result ∧
    ∀ b, 4 ≤ b → (statusWord s).getLsbD b = false

/-! ### The commands -/

/-- R190: NOP does nothing but complete. -/
def Obligations.NopOnlyCompletes : Prop :=
  ∀ s : State, exec .nop s = .next { s with running := none, flags := { s.flags with done := true } }

/-- R101: MODEXP writes `(A ^ B) mod M` and nothing else; with modulus 0 it raises `ModulusZero`, whatever the other
operands; a power past a finite capacity raises `CapacityExceeded`. -/
def Obligations.ModexpWritesTheModularPower : Prop :=
  decode 0x02 = .command .modexp ∧ ∀ s : State,
    (s.regs.m ≠ 0 → s.env.params.fits (s.regs.a ^ s.regs.b % s.regs.m : Nat) = true →
      exec .modexp s = .next { s with
        regs := { s.regs with r := (s.regs.a ^ s.regs.b % s.regs.m : Nat) }
        running := none
        flags := { s.flags with done := true } }) ∧
    (s.regs.m = 0 → ∃ t, exec .modexp s = .next t ∧ FaultedAs 5 0 [.int .r] s t) ∧
    (s.regs.m ≠ 0 → s.env.params.fits (s.regs.a ^ s.regs.b % s.regs.m : Nat) = false →
      ∃ t, exec .modexp s = .next t ∧ FaultedAs 7 0 [.int .r] s t)

/-- R150, R151: TAG writes `A * 10000`, or past a finite capacity raises `CapacityExceeded`; UNTAG writes the floor of
`A / 10000` in every state, with no test of the suffix and no fault. -/
def Obligations.TagAndUntagWriteTheirResult : Prop :=
  decode 0x07 = .command .tag ∧ decode 0x08 = .command .untag ∧ ∀ s : State,
    (s.env.params.fits (s.regs.a * 10000 : Nat) = true → exec .tag s = .next { s with
      regs := { s.regs with r := (s.regs.a * 10000 : Nat) }
      running := none
      flags := { s.flags with done := true } }) ∧
    (s.env.params.fits (s.regs.a * 10000 : Nat) = false → ∃ t, exec .tag s = .next t ∧ FaultedAs 7 0 [.int .r] s t) ∧
    exec .untag s = .next { s with
      regs := { s.regs with r := (s.regs.a / 10000 : Nat) }
      running := none
      flags := { s.flags with done := true } }

/-- R128: GENMOD writes `P * Q`, with no check of `P` and `Q`, or past a finite capacity raises `CapacityExceeded`. -/
def Obligations.GenmodMultipliesThePrimes : Prop :=
  decode 0x04 = .command .genmod ∧ ∀ (s : State) (p q : Nat), s.HoldsKey p q →
    (s.env.params.fits (p * q : Nat) = true → exec .genmod s = .next { s with
      regs := { s.regs with n := (p * q : Nat) }
      running := none
      flags := { s.flags with done := true } }) ∧
    (s.env.params.fits (p * q : Nat) = false → ∃ t, exec .genmod s = .next t ∧ FaultedAs 7 0 [.int .n] s t)

/-- R24, R204: in CRT, ENC and DEC a product `P * Q` whose magnitude is `2 ^ XBITS` or more raises `CapacityExceeded` in place
of everything that follows; so do, at the first block, the length of the chunk ENC has read and its integer, and in DEC the
ledger entry and the integer of the ciphertext block. What is below `2 ^ XBITS` fits. That `FINFO` is 0 where the product
faults, before any block, is the model's choice (log 18). -/
def Obligations.CapacityFaultReplacesTheWrite : Prop :=
  ∀ (s : State) (bits p q : Nat), s.env.params.xbits = some bits → s.HoldsKey p q →
    (2 ^ bits ≤ p * q →
      (∃ t, exec .crt s = .next t ∧ FaultedAs 7 0 nine s t) ∧
      (∃ t, exec .enc s = .next t ∧ FaultedAs 7 0 [.int .n, .out, .ledger, .ipos, .lpos, .blkcnt] s t) ∧
      (∃ t, exec .dec s = .next t ∧ FaultedAs 7 0 [.int .n, .out, .ipos, .lpos, .blkcnt] s t)) ∧
    (p * q < 2 ^ bits → 2 ^ bits ≤ (s.chunk 0).length ∨ (p * q ≠ 0 ∧ 2 ^ bits ≤ beToNat (s.chunk 0)) →
      ∃ t, exec .enc s = .next t ∧ FaultedAs 7 0 [.int .n, .out, .ledger, .ipos, .lpos, .blkcnt] s t) ∧
    (∀ (len : Nat) (more : List Nat), p * q < 2 ^ bits → s.streams.ledger.drop s.streams.lpos = len :: more →
      2 ^ bits ≤ len ∨ (len ≤ s.streams.inp.length - s.streams.ipos ∧
        2 ^ bits ≤ beToNat ((s.streams.inp.drop s.streams.ipos).take len)) →
      ∃ t, exec .dec s = .next t ∧ FaultedAs 7 0 [.int .n, .out, .ipos, .lpos, .blkcnt] s t) ∧
    ∀ v : Int, s.env.params.fits v = true ↔ v.natAbs < 2 ^ bits

/-- R24, R204: a finite capacity only adds faults: every command does what it does with infinite capacity, or it has
faulted with `CapacityExceeded`. -/
def Obligations.CapacityNeverChangesAValue : Prop :=
  ∀ (i : Instr) (s t u : State), exec i s = .next t → exec i s.uncapped = .next u →
    u = t.uncapped ∨ (t.flags.fault = true ∧ t.fcode = 7)

/-- R142, R143: on coprime operands, none of them 0, EGCD writes to `X` and `Y`, and nothing else, a pair with
`A*X + B*Y = 1` and the bounds of (c) and (d), which leave one pair only where both operands are at least 2; with an
operand equal to 1 the pair of (e); and on the operands exchanged the pair exchanged (b). -/
def Obligations.EgcdWritesTheBezoutPair : Prop :=
  ∀ s : State, s.env.params.xbits = none → Nat.gcd s.regs.a s.regs.b = 1 → s.regs.a ≠ 0 → s.regs.b ≠ 0 →
    ∃ x y : Int, exec .egcd s = .next { s with
        regs := { s.regs with x := x, y := y }
        running := none
        flags := { s.flags with done := true } } ∧
      s.regs.a * x + s.regs.b * y = 1 ∧ x.natAbs ≤ s.regs.b ∧ y.natAbs ≤ s.regs.a ∧ x * y ≤ 0 ∧
      (2 ≤ s.regs.a → 2 ≤ s.regs.b → x * y < 0 ∧ 2 * x.natAbs ≤ s.regs.b ∧ 2 * y.natAbs ≤ s.regs.a) ∧
      (s.regs.b = 1 → x = 0 ∧ y = 1) ∧ (s.regs.a = 1 → 2 ≤ s.regs.b → x = 1 ∧ y = 0) ∧
      (s.regs.a ≠ s.regs.b → exec .egcd { s with regs := { s.regs with a := s.regs.b, b := s.regs.a } } =
        .next { s with
          regs := { s.regs with a := s.regs.b, b := s.regs.a, x := y, y := x }
          running := none
          flags := { s.flags with done := true } })

/-- R144: EGCD raises `ArithmeticPrecondition` exactly when the gcd of its operands is not 1, or they are `(1, 0)` or
`(0, 1)`. -/
def Obligations.EgcdFaultsExactlyWhenNotCoprime : Prop :=
  ∀ s : State, s.env.params.xbits = none →
    ((Nat.gcd s.regs.a s.regs.b ≠ 1 ∨ (s.regs.a = 1 ∧ s.regs.b = 0) ∨ (s.regs.a = 0 ∧ s.regs.b = 1)) →
      ∃ t, exec .egcd s = .next t ∧ FaultedAs 2 0 [.int .x, .int .y] s t) ∧
    (s.flags.fault = false →
      ¬ (Nat.gcd s.regs.a s.regs.b ≠ 1 ∨ (s.regs.a = 1 ∧ s.regs.b = 0) ∨ (s.regs.a = 0 ∧ s.regs.b = 1)) →
      ∃ t, exec .egcd s = .next t ∧ t.flags.fault = false ∧ t.flags.done = true)

/-- R152, R154: CRT under coprime `P` and `Q`, none of them 0, writes the nine values of the listing: with the pair EGCD
gives for `P` and `Q`, the true modulo of the two sums, and `M2`, `M4` not reduced. -/
def Obligations.CrtWritesTheListing : Prop :=
  ∀ (s e : State) (p q : Nat), s.env.params.xbits = none → s.HoldsKey p q → Nat.gcd p q = 1 → p ≠ 0 → q ≠ 0 →
    exec .egcd { s with regs := { s.regs with a := p, b := q } } = .next e →
    let mp := s.regs.a ^ ((p + 1) / 4) % p
    let mq := s.regs.a ^ ((q + 1) / 4) % q
    let m1 := (e.regs.x * p * mq + e.regs.y * q * mp) % (p * q)
    let m3 := (e.regs.x * p * mq - e.regs.y * q * mp) % (p * q)
    exec .crt s = .next { s with
      regs := { s.regs with
        n := p * q, mp := mp, mq := mq, x := e.regs.x, y := e.regs.y,
        m1 := m1, m2 := p * q - m1, m3 := m3, m4 := p * q - m3 }
      running := none
      flags := { s.flags with done := true } }

/-- R152, R211: the faults of CRT in their order: `ModulusZero` for `P`, then for `Q`, then `ArithmeticPrecondition`. -/
def Obligations.CrtFaultsInOrder : Prop :=
  ∀ (s : State) (p q : Nat), s.env.params.xbits = none → s.HoldsKey p q →
    (p = 0 ∨ q = 0 → ∃ t, exec .crt s = .next t ∧ FaultedAs 5 0 nine s t) ∧
    (p ≠ 0 → q ≠ 0 → Nat.gcd p q ≠ 1 → ∃ t, exec .crt s = .next t ∧ FaultedAs 2 0 nine s t)

/-- R156 (a), (b): the ranges and the residues of the four roots, for coprime `P` and `Q` that are at least 2. -/
def Obligations.CrtRootsHaveTheResidues : Prop :=
  ∀ (s t : State) (p q : Nat), s.env.params.xbits = none → s.HoldsKey p q → 2 ≤ p → 2 ≤ q → Nat.gcd p q = 1 →
    exec .crt s = .next t →
    t.regs.n = p * q ∧
    0 ≤ t.regs.m1 ∧ t.regs.m1 < t.regs.n ∧ 0 ≤ t.regs.m3 ∧ t.regs.m3 < t.regs.n ∧
    0 < t.regs.m2 ∧ t.regs.m2 ≤ t.regs.n ∧ 0 < t.regs.m4 ∧ t.regs.m4 ≤ t.regs.n ∧
    t.regs.m1 + t.regs.m2 = t.regs.n ∧ t.regs.m3 + t.regs.m4 = t.regs.n ∧
    t.regs.m1 ≡ t.regs.mp [ZMOD p] ∧ t.regs.m1 ≡ t.regs.mq [ZMOD q] ∧
    t.regs.m3 ≡ -t.regs.mp [ZMOD p] ∧ t.regs.m3 ≡ t.regs.mq [ZMOD q]

/-- R156 (d): under a keypair, for `A` the square of a natural `x` with `1 <= x < n`, CRT completes, `x` is one of the
four roots, and each of the four is a square root of `A` modulo `n`. -/
def Obligations.CrtFindsTheSquareRoots : Prop :=
  ∀ (s : State) (p q x : Nat), s.env.params.xbits = none → s.HoldsKey p q → Keypair p q → 1 ≤ x → x < p * q →
    s.regs.a = x ^ 2 % (p * q) →
    ∃ t, exec .crt s = .next t ∧ t.flags.done = true ∧ t.busy = false ∧ t.flags.fault = s.flags.fault ∧
      (x : Int) ∈ [t.regs.m1, t.regs.m2, t.regs.m3, t.regs.m4] ∧
      ∀ m ∈ [t.regs.m1, t.regs.m2, t.regs.m3, t.regs.m4], m ^ 2 % (p * q) = s.regs.a

/-- R157, R158: SELECT, when exactly one of the four positions ends in `0000`, writes that value to `SEL` and its floor by
10000 to `R`; when none does, or two do, even with the same value, it raises `AmbiguousOrCorruptCiphertext`. -/
def Obligations.SelectTakesExactlyOneMatch : Prop :=
  decode 0x0A = .command .select ∧ ∀ (s : State) (m1 m2 m3 m4 : Nat),
    s.regs.m1 = m1 → s.regs.m2 = m2 → s.regs.m3 = m3 → s.regs.m4 = m4 →
    let four : List Nat := [m1, m2, m3, m4]
    (∀ k m : Nat, four[k]? = some m → EndsInFourZeros m →
      (∀ j m' : Nat, four[j]? = some m' → EndsInFourZeros m' → j = k) →
      exec .select s = .next { s with
        regs := { s.regs with sel := m, r := (m / 10000 : Nat) }
        running := none
        flags := { s.flags with done := true } }) ∧
    ((∀ m ∈ four, ¬ EndsInFourZeros m) ∨
      (∃ j k m m' : Nat, j ≠ k ∧ four[j]? = some m ∧ four[k]? = some m' ∧ EndsInFourZeros m ∧ EndsInFourZeros m') →
      ∃ t, exec .select s = .next t ∧ FaultedAs 3 0 [.int .sel, .int .r] s t)

/-- R160: CRT followed by SELECT computes `decrypt_block(A, P, Q)` into `R`. -/
def Obligations.CrtThenSelectDecryptsABlock : Prop :=
  ∀ (s t u : State) (p q : Nat), s.HoldsKey p q → s.flags.fault = false → exec .crt s = .next t →
    t.flags.fault = false → exec .select t = .next u → u.flags.fault = false →
    ∃ m : Nat, decryptBlock s.env.params s.regs.a p q = .ok m ∧ u.regs.r = m

/-- R161: under a keypair CRT then SELECT, on the square of a tagged `m`, gives `m` back without a fault exactly when `m` is
positive, its tagged value is below `n`, and one position only of the four ends in `0000`. -/
def Obligations.BlockDecryptsExactlyWhen : Prop :=
  ∀ (s t u : State) (p q m : Nat), s.env.params.xbits = none → s.flags.fault = false → s.HoldsKey p q → Keypair p q →
    s.regs.a = (m * 10000) ^ 2 % (p * q) →
    exec .crt s = .next t → exec .select t = .next u →
    ((u.flags.fault = false ∧ u.regs.r = m) ↔
      (1 ≤ m ∧ m * 10000 < p * q ∧
        ∃ k < 4, ∀ (j : Nat) (v : Int), [t.regs.m1, t.regs.m2, t.regs.m3, t.regs.m4][j]? = some v →
          (EndsInFourZeros v.toNat ↔ j = k)))

/-! ### The primality test and key generation -/

/-- R113: PRIME on 0, 1 or 2 raises `InvalidInput` before any draw and leaves `RESULT`; on an even number from 4 on it
completes with `RESULT = 0` and draws nothing. -/
def Obligations.PrimeOnSmallAndEvenNumbers : Prop :=
  ∀ s : State,
    (s.regs.a ≤ 2 → ∃ t, exec .prime s = .next t ∧ FaultedAs 1 0 [] s t) ∧
    (4 ≤ s.regs.a → s.regs.a % 2 = 0 → exec .prime s = .next { s with
      running := none, flags := { s.flags with done := true, result := false } })

/-- R113, R116: PRIME on an odd number from 3 on, whatever it draws, completes and changes nothing but `STATUS` and what the
sampler has answered. -/
def Obligations.PrimeCompletesOnOddNumbers : Prop :=
  ∀ s : State, 3 ≤ s.regs.a → s.regs.a % 2 = 1 →
    ∃ (v : Bool) (o : Oracle), exec .prime s = .next { s with
        running := none
        flags := { s.flags with done := true, result := v }
        env := { s.env with oracle := o } } ∧
      o.bytes = s.env.oracle.bytes ∧ o.byteDraws = s.env.oracle.byteDraws

/-- R116, R112, R114: where the sampler's coming answers are `bases`, as many as `ROUNDS` says and each within `[1, A - 1]`,
the verdict of PRIME is that `A` passes every one of them, and a candidate that is accepted has drawn them all. The first
base that `A` does not pass ends the test: the bases after it are not drawn. `ROUNDS` is at least 1 and monotone. -/
def Obligations.PrimeVerdictIsThatOfItsBases : Prop :=
  (∀ (s t : State) (bases rest : List Nat), 3 ≤ s.regs.a → s.regs.a % 2 = 1 →
    s.env.oracle.bases = bases ++ rest →
    bases.length = roundCount s.env.params.rounds (Nat.digits 10 s.regs.a).length →
    (∀ a ∈ bases, 1 ≤ a ∧ a ≤ s.regs.a - 1) →
    exec .prime s = .next t →
    (t.flags.result = true ↔ ∀ a ∈ bases, PassesBase s.regs.a a) ∧
    (t.flags.result = true → t.env.oracle = { s.env.oracle with bases := rest })) ∧
  (∀ (s t : State) (passed rest : List Nat) (a : Nat), 3 ≤ s.regs.a → s.regs.a % 2 = 1 →
    s.env.oracle.bases = passed ++ a :: rest →
    passed.length < roundCount s.env.params.rounds (Nat.digits 10 s.regs.a).length →
    (∀ b ∈ passed, 1 ≤ b ∧ b ≤ s.regs.a - 1 ∧ PassesBase s.regs.a b) →
    1 ≤ a → a ≤ s.regs.a - 1 → ¬ PassesBase s.regs.a a →
    exec .prime s = .next t →
    t.flags.result = false ∧ t.env.oracle = { s.env.oracle with bases := rest }) ∧
  ∀ (r : Rounds) (d e : Nat), (1 ≤ d → 1 ≤ roundCount r d) ∧ (d ≤ e → roundCount r d ≤ roundCount r e)

/-- R117 (b), R118: PRIME accepts every odd prime, under every sequence of draws. -/
def Obligations.PrimeAcceptsEveryOddPrime : Prop :=
  ∀ s : State, s.regs.a.Prime → 2 < s.regs.a →
    ∃ t, exec .prime s = .next t ∧ t.flags.result = true ∧ t.flags.done = true ∧ t.busy = false

/-- R124, R125, R120: key generation whose coming sample is non-negative, a prime congruent to 3 modulo 4, and within the
cap and the capacity, writes it, whatever bases are drawn; `RESULT` is not written (D26). -/
def Obligations.KeyGenerationWritesTheSample : Prop :=
  ∀ (s : State) (i : Instr) (dst : IntReg) (bs rest : List Byte), KeyCommand i dst → s.Samples bs rest →
    beToNat bs < 2 ^ 511 → (beToNat bs).Prime → beToNat bs % 4 = 3 → s.env.params.fits (beToNat bs : Nat) = true →
    s.env.params.fits (roundCount s.env.params.rounds (Nat.digits 10 (beToNat bs)).length : Nat) = true →
    ∃ o : Oracle, exec i s = .next { s with
        regs := s.regs.set (beToNat bs : Nat) dst
        running := none
        flags := { s.flags with done := true }
        env := { s.env with oracle := o } } ∧
      o.bytes = rest ∧ o.byteDraws = s.env.oracle.byteDraws

/-- R126: what key generation writes when it completes without fault: the sample `v` it has drawn, with
`3 <= v <= 2^511 - 1` and `v mod 4 = 3`, on which the test run inside it, from the oracles as the draw left them, returned
`true`. -/
def Obligations.KeyGenerationPostcondition : Prop :=
  ∀ (s t : State) (i : Instr) (dst : IntReg), KeyCommand i dst → exec i s = .next t → t.busy = false →
    t.flags.done = true →
    let v := beToNat (s.env.oracle.rngFill 64).1
    t.regs.get dst = v ∧ 3 ≤ v ∧ v ≤ 2 ^ 511 - 1 ∧ v % 4 = 3 ∧
      isProbablePrime s.env.params v (s.env.oracle.rngFill 64).2 = .ok (true, t.env.oracle)

/-- R120: a sample that is negative, even, odd and rejected by one of the bases drawn for it, or a prime congruent to 1
modulo 4 is discarded: the command stays busy with one try more, and nothing of the block changes. That a step makes one
pass of the loop is the model's choice (log 10). -/
def Obligations.RejectedSampleKeepsItBusy : Prop :=
  ∀ (s : State) (i : Instr) (dst : IntReg) (bs rest : List Byte), KeyCommand i dst → s.Samples bs rest →
    (2 ^ 511 ≤ beToNat bs ∨
      (s.env.params.fits (beToNat bs : Nat) = true ∧ 3 ≤ beToNat bs ∧
        (beToNat bs % 2 = 0 ∨
          (s.env.params.fits (roundCount s.env.params.rounds (Nat.digits 10 (beToNat bs)).length : Nat) = true ∧
            (((beToNat bs).Prime ∧ beToNat bs % 4 = 1) ∨
              (beToNat bs % 2 = 1 ∧ ∃ (passed more : List Nat) (a : Nat), s.env.oracle.bases = passed ++ a :: more ∧
                passed.length < roundCount s.env.params.rounds (Nat.digits 10 (beToNat bs)).length ∧
                (∀ b ∈ passed, 1 ≤ b ∧ b ≤ beToNat bs - 1 ∧ PassesBase (beToNat bs) b) ∧
                1 ≤ a ∧ a ≤ beToNat bs - 1 ∧ ¬ PassesBase (beToNat bs) a)))))) →
    ∃ o : Oracle, exec i s = .next { s with
        running := some { cmd := i, stall := 0, tries := s.tries + 1 }
        env := { s.env with oracle := o } } ∧
      o.bytes = rest ∧ o.byteDraws = s.env.oracle.byteDraws

/-- R127, R130: a sample of 0, 1 or 2 ends key generation with `InvalidInput`; and with a finite `RETRY_CAP` the attempt after
the last allowed one raises `RetryExhausted` and draws nothing. -/
def Obligations.KeyGenerationFaults : Prop :=
  ∀ (s : State) (i : Instr) (dst : IntReg), KeyCommand i dst →
    (∀ bs rest : List Byte, s.Samples bs rest → beToNat bs ≤ 2 → s.env.params.fits (beToNat bs : Nat) = true →
      ∃ t, exec i s = .next t ∧ FaultedAs 1 0 [.int dst] (s.withOracle { s.env.oracle with bytes := rest }) t) ∧
    (s.env.params.retryCap = some s.tries → ∃ t, exec i s = .next t ∧ FaultedAs 8 0 [.int dst] s t)

/-- R24, R204, R212: with a finite `XBITS` key generation raises `CapacityExceeded` in place of a `tries` that does not fit,
before it draws; of a sample that does not fit, before it is tested; and of a round count that does not fit, before a base
is drawn. -/
def Obligations.KeyGenerationHoldsItsTemporaries : Prop :=
  ∀ (s : State) (i : Instr) (dst : IntReg) (bits : Nat), KeyCommand i dst → s.env.params.xbits = some bits →
    (s.env.params.retryCap ≠ some s.tries → 2 ^ bits ≤ s.tries + 1 →
      ∃ t, exec i s = .next t ∧ FaultedAs 7 0 [.int dst] s t) ∧
    (∀ bs rest : List Byte, s.Samples bs rest → beToNat bs < 2 ^ 511 →
      2 ^ bits ≤ beToNat bs ∨ (3 ≤ beToNat bs ∧ beToNat bs % 2 = 1 ∧
        2 ^ bits ≤ roundCount s.env.params.rounds (Nat.digits 10 (beToNat bs)).length) →
      ∃ t, exec i s = .next t ∧ FaultedAs 7 0 [.int dst] (s.withOracle { s.env.oracle with bytes := rest }) t)

/-- R132: with `RETRY_CAP` infinite key generation stays busy for as many steps as its samples are negative, or even and
more than 2, however many: no bound on the samples ends it. That a step makes one pass of the loop is the model's choice
(log 10). -/
def Obligations.KeyGenerationNeedNotEnd : Prop :=
  ∀ (s : State) (i : Instr) (dst : IntReg) (samples : List (List Byte)) (rest : List Byte), KeyCommand i dst →
    s.env.params.retryCap = none → s.env.params.xbits = none → s.env.script = [] →
    s.running = some { cmd := i, stall := 0, tries := 0 } →
    s.env.oracle.bytes = samples.flatten ++ rest →
    (∀ bs ∈ samples, bs.length = 64 ∧ (2 ^ 511 ≤ beToNat bs ∨ (2 < beToNat bs ∧ beToNat bs % 2 = 0))) →
    ∃ t, Sys2Proof.core.run samples.length s = .next t ∧ t.busy = true ∧ t.tries = samples.length ∧ Same [] s t

/-! ### The stream commands -/

/-- R172, R171, R173: ENC under a key without a zero, with infinite capacity, encrypts every chunk of what is left of `IN`
in order: `OUT` is the ciphertext blocks put together, `LEDGER` their lengths, `BLKCNT` their number. -/
def Obligations.EncEncryptsEveryChunk : Prop :=
  ∀ (s : State) (p q : Nat), Unbounded s.env.params → s.HoldsKey p q → p ≠ 0 → q ≠ 0 →
    s.streams.ipos ≤ s.streams.inp.length →
    exec .enc s = .next { s with
      regs := { s.regs with n := p * q }
      streams :=
        { inp := s.streams.inp
          out := ((List.range s.chunkCount).map (s.cipher (p * q))).flatten
          ledger := (List.range s.chunkCount).map fun i => (s.cipher (p * q) i).length
          ipos := s.streams.inp.length
          lpos := 0 }
      blkcnt := s.chunkCount
      running := none
      flags := { s.flags with done := true } }

/-- R172, D27: with a zero in the key ENC raises `ModulusZero` at the first chunk, block 0; and on an exhausted `IN` it
completes with empty outputs, whatever the key. -/
def Obligations.EncOnAZeroKeyAndOnNoInput : Prop :=
  ∀ (s : State) (p q : Nat), s.HoldsKey p q →
    (p = 0 ∨ q = 0 → s.streams.ipos < s.streams.inp.length →
      s.env.params.fits ((s.chunk 0).length : Nat) = true →
      ∃ t, exec .enc s = .next t ∧ FaultedAs 5 0 [.int .n, .out, .ledger, .ipos, .lpos, .blkcnt] s t) ∧
    (s.streams.ipos = s.streams.inp.length → s.env.params.fits (p * q : Nat) = true →
      exec .enc s = .next { s with
        regs := { s.regs with n := p * q }
        streams := { s.streams with out := [], ledger := [], lpos := 0 }
        blkcnt := 0
        running := none
        flags := { s.flags with done := true } })

/-- R173, R30: after ENC completes without fault, whatever the parameters: the positions, the block count, and the ledger
against the output. -/
def Obligations.EncLedgerMatchesItsOutput : Prop :=
  ∀ s t : State, s.flags.fault = false → s.streams.ipos ≤ s.streams.inp.length → exec .enc s = .next t →
    t.flags.fault = false →
    t.streams.ipos = t.streams.inp.length ∧ t.streams.lpos = 0 ∧
    t.blkcnt = t.streams.ledger.length ∧ t.blkcnt = (s.streams.inp.length - s.streams.ipos + 15) / 16 ∧
    (∀ v ∈ t.streams.ledger, 1 ≤ v) ∧ t.streams.ledger.sum = t.streams.out.length

/-- R172, R183: the ciphertext is a function of what is left of `IN`, `P` and `Q`, under one capacity. -/
def Obligations.EncDependsOnInputAndKeyOnly : Prop :=
  ∀ s s' t t' : State, s.flags.fault = false → s'.flags.fault = false →
    s.env.params = s'.env.params → s.regs.p = s'.regs.p → s.regs.q = s'.regs.q →
    s.streams.inp.drop s.streams.ipos = s'.streams.inp.drop s'.streams.ipos →
    exec .enc s = .next t → exec .enc s' = .next t' →
    t.flags.fault = t'.flags.fault ∧
    (t.flags.fault = true → t.fcode = t'.fcode ∧ t.finfo = t'.finfo) ∧
    (t.flags.fault = false →
      t.streams.out = t'.streams.out ∧ t.streams.ledger = t'.streams.ledger ∧ t.blkcnt = t'.blkcnt ∧
      t.regs.n = t'.regs.n)

/-- R176, R160: DEC on a ciphertext that the coming ledger entries cut into `pieces`, each decrypting to the block at its
place in `ms`, appends the blocks, serialised, and consumes the ledger and the pieces. -/
def Obligations.DecDecryptsEveryPiece : Prop :=
  ∀ (s : State) (p q : Nat) (pieces : List (List Byte)) (ms : List Nat) (rest : List Byte),
    s.env.params.xbits = none → s.HoldsKey p q → s.streams.wf = true →
    s.streams.inp.drop s.streams.ipos = pieces.flatten ++ rest →
    s.streams.ledger.drop s.streams.lpos = pieces.map List.length → (∀ cb ∈ pieces, cb ≠ []) →
    List.Forall₂ (fun cb m => decryptBlock s.env.params (beToNat cb) p q = .ok m) pieces ms →
    exec .dec s = .next { s with
      regs := { s.regs with n := p * q }
      streams := { s.streams with
        out := (ms.map natToBe).flatten
        ipos := s.streams.ipos + pieces.flatten.length
        lpos := s.streams.ledger.length }
      blkcnt := pieces.length
      running := none
      flags := { s.flags with done := true } }

/-- R176, R211: a block whose piece does not decrypt ends DEC with that fault and the block's index, whatever follows. -/
def Obligations.DecFaultsAtTheBlock : Prop :=
  ∀ (s : State) (p q : Nat) (pieces : List (List Byte)) (ms : List Nat) (bad rest : List Byte) (more : List Nat)
    (c : Cause), s.env.params.xbits = none → s.HoldsKey p q → s.streams.wf = true →
    s.streams.inp.drop s.streams.ipos = pieces.flatten ++ (bad ++ rest) →
    s.streams.ledger.drop s.streams.lpos = pieces.map List.length ++ bad.length :: more →
    (∀ cb ∈ pieces, cb ≠ []) → bad ≠ [] →
    List.Forall₂ (fun cb m => decryptBlock s.env.params (beToNat cb) p q = .ok m) pieces ms →
    decryptBlock s.env.params (beToNat bad) p q = .error c →
    ∃ t, exec .dec s = .next t ∧
      FaultedAs c.code.toNat pieces.length [.int .n, .out, .ipos, .lpos, .blkcnt] s t

/-- R177, R208: after blocks that decrypt, an entry that asks for more bytes than are left, with at least one left, raises
`TruncatedCiphertext` with the block's index. -/
def Obligations.DecFaultsOnATruncatedBlock : Prop :=
  ∀ (s : State) (p q : Nat) (pieces : List (List Byte)) (ms : List Nat) (left : List Byte) (len : Nat) (more : List Nat),
    s.env.params.xbits = none → s.HoldsKey p q → s.streams.wf = true →
    s.streams.inp.drop s.streams.ipos = pieces.flatten ++ left →
    s.streams.ledger.drop s.streams.lpos = pieces.map List.length ++ len :: more →
    (∀ cb ∈ pieces, cb ≠ []) → 1 ≤ left.length → left.length < len →
    List.Forall₂ (fun cb m => decryptBlock s.env.params (beToNat cb) p q = .ok m) pieces ms →
    ∃ t, exec .dec s = .next t ∧ FaultedAs 6 pieces.length [.int .n, .out, .ipos, .lpos, .blkcnt] s t

/-- R178: the silent stops of DEC after blocks that decrypt: at an entry 0, or at any entry once `IN` is exhausted. What has
been appended is kept, the stopping entry is consumed, and nothing more of `IN` is. With the ledger exhausted at once, DEC
gives empty output and does not use the key. -/
def Obligations.DecStopsSilently : Prop :=
  (∀ (s : State) (p q : Nat) (pieces : List (List Byte)) (ms : List Nat) (left : List Byte) (len : Nat) (more : List Nat),
    s.env.params.xbits = none → s.HoldsKey p q → s.streams.wf = true →
    s.streams.inp.drop s.streams.ipos = pieces.flatten ++ left →
    s.streams.ledger.drop s.streams.lpos = pieces.map List.length ++ len :: more →
    (∀ cb ∈ pieces, cb ≠ []) → len = 0 ∨ left = [] →
    List.Forall₂ (fun cb m => decryptBlock s.env.params (beToNat cb) p q = .ok m) pieces ms →
    exec .dec s = .next { s with
      regs := { s.regs with n := p * q }
      streams := { s.streams with
        out := (ms.map natToBe).flatten
        ipos := s.streams.ipos + pieces.flatten.length
        lpos := s.streams.lpos + pieces.length + 1 }
      blkcnt := pieces.length
      running := none
      flags := { s.flags with done := true } }) ∧
  (∀ (s : State) (p q : Nat), s.HoldsKey p q → s.env.params.fits (p * q : Nat) = true →
    s.streams.lpos = s.streams.ledger.length →
    exec .dec s = .next { s with
      regs := { s.regs with n := p * q }
      streams := { s.streams with out := [] }
      blkcnt := 0
      running := none
      flags := { s.flags with done := true } })

/-- R180: the round trip. Under a keypair with infinite capacity, for an `IN` whose every chunk begins with a byte that is
not zero, has its tagged value below `n`, and has one root only that ends in `0000`: ENC, then `LOAD IN` with `OUT`, then
DEC, gives back the data. -/
def Obligations.DecryptionInvertsEncryption : Prop :=
  ∀ (s : State) (p q : Nat), Unbounded s.env.params → s.HoldsKey p q → Keypair p q → s.streams.ipos = 0 →
    (∀ i < s.chunkCount,
      (s.chunk i).head? ≠ some 0 ∧
      beToNat (s.chunk i) * 10000 < p * q ∧
      ∀ r, crtRoots s.env.params ((beToNat (s.chunk i) * 10000) ^ 2 % (p * q)) p q = .ok r →
        [r.m1, r.m2, r.m3, r.m4].countP (fun m => decide (10000 ≤ m ∧ m % 10000 = 0)) = 1) →
    ∃ t u, exec .enc s = .next t ∧ t.flags.done = true ∧ t.flags.fault = s.flags.fault ∧
      exec .dec { t with streams := { t.streams with inp := t.streams.out, ipos := 0 } } = .next u ∧
      u.flags.done = true ∧ u.busy = false ∧ u.flags.fault = s.flags.fault ∧
      u.streams.out = s.streams.inp ∧ u.blkcnt = s.chunkCount

/-- R181: a chunk of zero bytes only encrypts to the single byte 00, and DEC faults on it with
`AmbiguousOrCorruptCiphertext`. -/
def Obligations.AllZeroChunkDoesNotSurvive : Prop :=
  ∀ (s : State) (p q k : Nat), Unbounded s.env.params → s.HoldsKey p q → Keypair p q → 1 ≤ k → k ≤ 16 →
    s.streams.ipos = 0 → s.streams.inp = List.replicate k 0 →
    ∃ t u, exec .enc s = .next t ∧ t.streams.out = [0] ∧ t.streams.ledger = [1] ∧
      exec .dec { t with streams := { t.streams with inp := t.streams.out, ipos := 0 } } = .next u ∧
      u.flags.fault = true ∧ u.fcode = 3 ∧ u.finfo = 0

/-! ### Rules about every command, and about every step -/

/-- R206, R207: a command that faults changes nothing but its destinations, the `STATUS` flags, `FCODE` and `FINFO`;
`RESULT` is unchanged. -/
def Obligations.FaultChangesOnlyDestinations : Prop :=
  ∀ (i : Instr) (s t : State), s.flags.fault = false → exec i s = .next t → t.flags.fault = true →
    t.busy = false ∧ t.flags.done = false ∧ t.flags.result = s.flags.result ∧
    Same (.status :: .fcode :: .finfo :: writesOf i) s t ∧ SameOutside s t ∧
    (s.streams.wf = true → t.streams.wf = true)

/-- R83, R207: a command but SRST that does not fault changes nothing but its destinations and `STATUS`; of the flags
`RESULT` only by PRIME (R28). -/
def Obligations.CompletionChangesOnlyDestinations : Prop :=
  ∀ (i : Instr) (s t : State), i ≠ .srst → s.flags.fault = false → exec i s = .next t → t.flags.fault = false →
    Same (.status :: writesOf i) s t ∧ SameOutside s t ∧ t.env.free = s.env.free ∧
    (i ≠ .prime → t.flags.result = s.flags.result)

/-- R212: which command can raise which fault. -/
def Obligations.EachCommandRaisesOnlyItsFaults : Prop :=
  ∀ (i : Instr) (s t : State), s.flags.fault = false → exec i s = .next t → t.flags.fault = true →
    t.fcode.toNat ∈ codesOf i ∧
    (t.fcode.toNat = 7 → s.env.params.xbits ≠ none ∨ s.env.params.ledgerEntryBits ≠ none) ∧
    (t.fcode.toNat = 8 → s.env.params.retryCap ≠ none) ∧
    (i ≠ .enc → i ≠ .dec → t.finfo = 0)

/-- R250: for every state, and so for every oracle answer, each command but the two key generations ends, completed or
faulted. -/
def Obligations.CommandsEnd : Prop :=
  ∀ (i : Instr) (s : State), i ≠ .keygenp → i ≠ .keygenq →
    ∃ t, exec i s = .next t ∧ t.busy = false ∧ (t.flags.done = true ∨ t.flags.fault = true ∨ i = .srst)

/-- R31: only PRIME and key generation draw from the oracles, and PRIME draws no byte of the random source. -/
def Obligations.OnlyThreeCommandsDraw : Prop :=
  ∀ (i : Instr) (s t : State), exec i s = .next t →
    (i ≠ .prime → i ≠ .keygenp → i ≠ .keygenq → t.env.oracle = s.env.oracle) ∧
    (i = .prime → t.env.oracle.bytes = s.env.oracle.bytes ∧ t.env.oracle.byteDraws = s.env.oracle.byteDraws)

/-- R210: a recorded fault stays, with its code and information, through every step whose host move is neither hard reset
nor a write of SRST. -/
def Obligations.FaultIsStickyUntilReset : Prop :=
  ∀ s t : State, s.Inv → s.flags.fault = true → step s = .next t →
    s.env.script.head? ≠ some .hardReset → (∀ k, s.env.script.head? ≠ some (.cmd 0xFF k)) →
    t.flags.fault = true ∧ t.fcode = s.fcode ∧ t.finfo = s.finfo ∧ t.busy = false

/-- R28: `RESULT` changes in a step only where PRIME runs, or at a reset. -/
def Obligations.ResultIsWrittenByPrimeOnly : Prop :=
  ∀ s t : State, step s = .next t → t.flags.result ≠ s.flags.result →
    (∃ job, (hostTurn s).running = some job ∧ (job.cmd = .prime ∨ job.cmd = .srst)) ∨
    s.env.script.head? = some .hardReset ∨ ∃ k, s.env.script.head? = some (.cmd 0xFF k)
end

