-- ==== Sys2Proof/Laws/Numeric.lean ====
section
/-! SUPPORT. The arithmetic primitives are what rules R11 to R14 say. -/

namespace Sys2Proof.Machine

@[simp] theorem blockBytes_eq : Config.blockBytes = 16 := rfl
@[simp] theorem tag_eq : Config.tag = 10000 := rfl
@[simp] theorem keyBytes_eq : Config.keyBytes = 64 := rfl

/-! ### modexp (R11) -/

theorem modexpLoop_mod (m : Nat) : ∀ k b e acc, e ≤ k → modexpLoop k b e m acc % m = acc * b ^ e % m := by
  intro k
  induction k with
  | zero =>
    intro b e acc h
    obtain rfl : e = 0 := by omega
    simp [modexpLoop]
  | succ k ih =>
    intro b e acc h
    rw [modexpLoop]
    split
    · subst_vars; simp
    · rw [ih _ _ _ (by omega)]
      have hb : (b * b % m) ^ (e / 2) ≡ b ^ (2 * (e / 2)) [MOD m] := by
        have hsq : b ^ (2 * (e / 2)) = (b * b) ^ (e / 2) := by rw [pow_mul, pow_two]
        rw [hsq]; exact (Nat.mod_modEq _ _).pow _
      split
      · have he : b ^ e = b ^ (2 * (e / 2)) * b := by
          rw [← pow_succ]; congr 1; omega
        have h1 : acc * b % m * (b * b % m) ^ (e / 2) ≡ acc * b * b ^ (2 * (e / 2)) [MOD m] :=
          (Nat.mod_modEq _ _).mul hb
        rw [he]; rw [h1]; congr 1; ring
      · have he : b ^ e = b ^ (2 * (e / 2)) := by congr 1; omega
        rw [he]; exact (Nat.ModEq.refl acc).mul hb

theorem modexpLoop_lt (m : Nat) (hm : 0 < m) : ∀ k b e acc, acc < m → modexpLoop k b e m acc < m := by
  intro k
  induction k with
  | zero => intro b e acc h; simpa [modexpLoop] using h
  | succ k ih =>
    intro b e acc h
    rw [modexpLoop]
    split
    · exact h
    · apply ih
      split
      · exact Nat.mod_lt _ hm
      · exact h

/-- R11: `modexp` is the modular power. -/
theorem modexp_eq (b e m : Nat) (hm : 0 < m) : modexp b e m = b ^ e % m := by
  have hlt : modexp b e m < m := modexpLoop_lt m hm _ _ _ _ (Nat.mod_lt _ hm)
  rw [← Nat.mod_eq_of_lt hlt, modexp, modexpLoop_mod m _ _ _ _ le_rfl]
  exact ((Nat.mod_modEq 1 m).mul ((Nat.mod_modEq b m).pow e)).trans (by rw [one_mul])

/-- R11: the result is below the modulus. -/
theorem modexp_lt (b e m : Nat) (hm : 0 < m) : modexp b e m < m := by
  rw [modexp_eq b e m hm]; exact Nat.mod_lt _ hm

/-! ### Byte strings (R12) -/

theorem foldl_bytes (bs : List Byte) : ∀ v, bs.foldl (fun v b => v * 256 + b.toNat) v =
    v * 256 ^ bs.length + bs.foldl (fun v b => v * 256 + b.toNat) 0 := by
  induction bs with
  | nil => intro v; simp
  | cons b bs ih =>
    intro v
    rw [List.foldl_cons, List.foldl_cons, ih, ih (0 * 256 + b.toNat), List.length_cons]
    ring

@[simp] theorem beToNat_nil : beToNat [] = 0 := rfl

/-- The first byte is the most significant (R52). -/
theorem beToNat_cons (b : Byte) (bs : List Byte) : beToNat (b :: bs) = b.toNat * 256 ^ bs.length + beToNat bs := by
  rw [beToNat, List.foldl_cons, foldl_bytes]; simp [beToNat]

theorem beToNat_append (as bs : List Byte) : beToNat (as ++ bs) = beToNat as * 256 ^ bs.length + beToNat bs := by
  rw [beToNat, List.foldl_append, foldl_bytes]; rfl

/-- A string of `k` bytes is below `256 ^ k` (R53). -/
theorem beToNat_lt (bs : List Byte) : beToNat bs < 256 ^ bs.length := by
  induction bs with
  | nil => simp
  | cons b bs ih =>
    rw [beToNat_cons, List.length_cons, pow_succ]
    have := b.isLt
    nlinarith

theorem natToBeLoop_append : ∀ k v acc, natToBeLoop k v acc = natToBeLoop k v [] ++ acc := by
  intro k
  induction k with
  | zero => intro v acc; simp [natToBeLoop]
  | succ k ih =>
    intro v acc
    rw [natToBeLoop, natToBeLoop]
    split
    · simp
    · rw [ih, ih (v / 256) [_]]; simp

theorem beToNat_natToBeLoop : ∀ k v, v ≤ k → beToNat (natToBeLoop k v []) = v := by
  intro k
  induction k with
  | zero => intro v h; obtain rfl : v = 0 := by omega
            rfl
  | succ k ih =>
    intro v h
    rw [natToBeLoop]
    split
    · subst_vars; rfl
    · rw [natToBeLoop_append, beToNat_append, ih _ (by omega)]
      simp [beToNat_cons]
      omega

/-- R12: `be_to_nat(nat_to_be(v)) = v`. -/
@[simp] theorem beToNat_natToBe (v : Nat) : beToNat (natToBe v) = v := by
  rw [natToBe]; split
  · subst_vars; rfl
  · exact beToNat_natToBeLoop v v le_rfl

theorem head_natToBeLoop : ∀ k v, v ≤ k → v ≠ 0 → ∃ b bs, natToBeLoop k v [] = b :: bs ∧ b ≠ 0 := by
  intro k
  induction k with
  | zero => intro v h h0; omega
  | succ k ih =>
    intro v h h0
    rw [natToBeLoop, if_neg h0]
    by_cases hq : v / 256 = 0
    · refine ⟨BitVec.ofNat 8 v, [], ?_, ?_⟩
      · rw [hq]; cases k <;> simp [natToBeLoop]
      · intro hc
        have := congrArg BitVec.toNat hc
        simp at this; omega
    · obtain ⟨b, bs, hb, hne⟩ := ih (v / 256) (by omega) hq
      exact ⟨b, bs ++ [BitVec.ofNat 8 v], by rw [natToBeLoop_append, hb]; rfl, hne⟩

/-- R12: a serialised positive natural has no leading zero byte. -/
theorem natToBe_head (v : Nat) (hv : v ≠ 0) : ∃ b bs, natToBe v = b :: bs ∧ b ≠ 0 := by
  rw [natToBe, if_neg hv]; exact head_natToBeLoop v v le_rfl hv

/-- R12: every serialisation has at least one byte. -/
theorem natToBe_ne_nil (v : Nat) : natToBe v ≠ [] := by
  by_cases hv : v = 0
  · subst hv; simp [natToBe]
  · obtain ⟨b, bs, h, -⟩ := natToBe_head v hv; rw [h]; simp

theorem natToBe_length_pos (v : Nat) : 0 < (natToBe v).length := List.length_pos_iff.mpr (natToBe_ne_nil v)

/-- Two strings of one length with one value are one string. -/
theorem beToNat_inj : ∀ as bs : List Byte, as.length = bs.length → beToNat as = beToNat bs → as = bs
  | [], [], _, _ => rfl
  | a :: as, b :: bs, hl, hv => by
    have hl' : as.length = bs.length := by simpa using hl
    rw [beToNat_cons, beToNat_cons, hl'] at hv
    have h1 := beToNat_lt as
    have h2 := beToNat_lt bs
    rw [hl'] at h1
    have hp : 0 < 256 ^ bs.length := by positivity
    have hab : a.toNat = b.toNat := by
      have ha : (a.toNat * 256 ^ bs.length + beToNat as) / 256 ^ bs.length = a.toNat := by
        rw [mul_comm, Nat.mul_add_div hp, Nat.div_eq_of_lt h1, add_zero]
      have hb : (b.toNat * 256 ^ bs.length + beToNat bs) / 256 ^ bs.length = b.toNat := by
        rw [mul_comm, Nat.mul_add_div hp, Nat.div_eq_of_lt h2, add_zero]
      rw [← ha, ← hb, hv]
    have hv' : beToNat as = beToNat bs := by rw [hab] at hv; omega
    rw [BitVec.eq_of_toNat_eq hab, beToNat_inj as bs hl' hv']

/-- A string with no leading zero byte is longer than any of smaller value. -/
theorem pow_le_beToNat (b : Byte) (bs : List Byte) (hb : b ≠ 0) : 256 ^ bs.length ≤ beToNat (b :: bs) := by
  have : 1 ≤ b.toNat := by
    rcases Nat.eq_zero_or_pos b.toNat with h | h
    · exact absurd (BitVec.eq_of_toNat_eq (by simpa using h)) hb
    · exact h
  rw [beToNat_cons]; nlinarith [show 0 < 256 ^ bs.length by positivity]

/-- R12: `nat_to_be(be_to_nat(bs)) = bs` for a string whose first byte is not zero. -/
theorem natToBe_beToNat (b : Byte) (bs : List Byte) (hb : b ≠ 0) : natToBe (beToNat (b :: bs)) = b :: bs := by
  have hp : 0 < 256 ^ bs.length := by positivity
  have hv : beToNat (b :: bs) ≠ 0 := by have := pow_le_beToNat b bs hb; omega
  obtain ⟨c, cs, hc, hcne⟩ := natToBe_head _ hv
  have hval : beToNat (c :: cs) = beToNat (b :: bs) := by rw [← hc, beToNat_natToBe]
  have h1 := pow_le_beToNat b bs hb
  have h2 := pow_le_beToNat c cs hcne
  have h3 := beToNat_lt (b :: bs)
  have h4 := beToNat_lt (c :: cs)
  rw [List.length_cons] at h3 h4
  have hlen : cs.length = bs.length := by
    have ha : cs.length < bs.length + 1 := (Nat.pow_lt_pow_iff_right (by norm_num : 1 < 256)).mp (by omega)
    have hb : bs.length < cs.length + 1 := (Nat.pow_lt_pow_iff_right (by norm_num : 1 < 256)).mp (by omega)
    omega
  rw [hc]; exact beToNat_inj _ _ (by simp [hlen]) hval

/-! ### Decimal numerals (R13) -/

theorem decLoop_append : ∀ k v acc, decLoop k v acc = decLoop k v [] ++ acc := by
  intro k
  induction k with
  | zero => intro v acc; simp [decLoop]
  | succ k ih =>
    intro v acc
    rw [decLoop, decLoop]
    split
    · simp
    · rw [ih, ih (v / 10) [_]]; simp

theorem decLoop_enough : ∀ k v, v ≤ k → decLoop k v [] = decLoop v v [] := by
  intro k
  induction k using Nat.strong_induction_on with
  | _ k ih =>
    intro v h
    match k, v, h with
    | 0, v, h => obtain rfl : v = 0 := by omega
                 rfl
    | k + 1, 0, _ => simp [decLoop]
    | k + 1, v + 1, h =>
      rw [decLoop, decLoop, if_neg (by omega), if_neg (by omega), decLoop_append k, decLoop_append v,
        ih k (by omega) ((v + 1) / 10) (by omega)]
      congr 1
      rcases Nat.lt_or_ge v (k + 1) with hlt | hge
      · exact (ih v hlt _ (by omega)).symm
      · have : v = k := by omega
        subst this; exact (ih v (by omega) _ (by omega)).symm

/-- The numeral of a positive natural is that of its tenth, if that is positive, and its last digit. -/
theorem dec_step (v : Nat) (hv : 10 ≤ v) : dec v = dec (v / 10) ++ [v % 10] := by
  rw [dec, dec, if_neg (by omega), if_neg (by omega)]
  obtain ⟨k, rfl⟩ : ∃ k, v = k + 1 := ⟨v - 1, by omega⟩
  rw [decLoop, if_neg (by omega), decLoop_append, decLoop_enough k _ (by omega)]

theorem dec_digit (v : Nat) (hv : v < 10) : dec v = [v] := by
  interval_cases v <;> rfl

/-- R13: the digit count is at least 1. -/
theorem ndigits_pos (v : Nat) : 1 ≤ ndigits v := by
  rcases Nat.lt_or_ge v 10 with h | h
  · simp [ndigits, dec_digit v h]
  · simp [ndigits, dec_step v h]

/-- R13: the numeral ends in `0000` exactly when the number is a positive multiple of 10000. -/
theorem endsSuffix_iff (v : Nat) : endsSuffix v = true ↔ 10000 ≤ v ∧ v % 10000 = 0 := by
  have hs : Config.suffix = [0, 0, 0, 0] := rfl
  rw [endsSuffix, hs, List.isSuffixOf_iff_suffix]
  have peel : ∀ w, 10 ≤ w → ∀ l : List Nat, (l ++ [0]) <:+ dec w ↔ w % 10 = 0 ∧ l <:+ dec (w / 10) := by
    intro w hw l
    rw [dec_step w hw]
    constructor
    · rintro ⟨t, ht⟩
      rw [← List.append_assoc] at ht
      have := List.append_inj' ht rfl
      exact ⟨by simpa using this.2.symm, t, this.1⟩
    · rintro ⟨h0, t, ht⟩
      exact ⟨t, by rw [← List.append_assoc, ht, h0]⟩
  have short : ∀ w, w < 10 → ∀ l : List Nat, 1 < l.length → ¬ l <:+ dec w := by
    intro w hw l hl h
    have := h.length_le
    rw [dec_digit w hw] at this
    simp at this; omega
  have one : ∀ w, [0] <:+ dec w ↔ w % 10 = 0 := by
    intro w
    rcases Nat.lt_or_ge w 10 with h | h
    · rw [dec_digit w h]
      interval_cases w <;> simp [List.suffix_cons_iff]
    · have := peel w h []
      simpa using this
  rcases Nat.lt_or_ge v 10 with h1 | h1
  · exact iff_of_false (short v h1 _ (by simp)) (by omega)
  rw [show [0, 0, 0, 0] = [0, 0, 0] ++ [0] from rfl, peel v h1]
  rcases Nat.lt_or_ge (v / 10) 10 with h2 | h2
  · exact iff_of_false (fun h => short _ h2 _ (by simp) h.2) (by omega)
  rw [show [0, 0, 0] = [0, 0] ++ [0] from rfl, peel _ h2]
  rcases Nat.lt_or_ge (v / 10 / 10) 10 with h3 | h3
  · exact iff_of_false (fun h => short _ h3 _ (by simp) h.2.2) (by omega)
  rw [show [0, 0] = [0] ++ [0] from rfl, peel _ h3, one]
  omega

/-! ### The codec (R14) -/

/-- R14: `untag(tag(m)) = m`. -/
@[simp] theorem untag_tag (m : Nat) : untagOf (tagOf m) = m := by simp [untagOf, tagOf]

/-- R14: a tagged natural ends in the suffix exactly when it is positive. -/
theorem endsSuffix_tag (m : Nat) : endsSuffix (tagOf m) = true ↔ 1 ≤ m := by
  rw [endsSuffix_iff, tagOf, tag_eq]; omega

/-- `be_to_nat` (R12) in the library's terms: the bytes, the last first, are digits to base 256. -/
theorem ofDigits_bytes (bs : List Byte) : Nat.ofDigits 256 (bs.reverse.map BitVec.toNat) = beToNat bs := by
  induction bs with
  | nil => rfl
  | cons b bs ih =>
    rw [List.reverse_cons, List.map_append, Nat.ofDigits_append, ih, beToNat_cons]
    simp; ring

/-- `ndigits` (R13) in the library's terms, for a number that is not 0. -/
theorem ndigits_eq (v : Nat) (hv : v ≠ 0) : ndigits v = (Nat.digits 10 v).length := by
  induction v using Nat.strong_induction_on with
  | _ v ih =>
    rcases Nat.lt_or_ge v 10 with h | h
    · rw [ndigits, dec_digit v h, Nat.digits_of_lt 10 v hv h]
    · rw [ndigits, dec_step v h, List.length_append, Nat.digits_def' (by norm_num) (Nat.pos_of_ne_zero hv),
        List.length_cons (as := Nat.digits 10 (v / 10)), ← ih (v / 10) (by omega) (by omega)]
      rfl

end Sys2Proof.Machine
end

