-- ==== Sys2Proof/Laws/State.lean ====
section
/-! SUPPORT. One lemma a field for each update of the state, and the accessors of the integer registers. -/

namespace Sys2Proof.Machine

@[simp] theorem withRegs_regs (s : State) (g : Regs) : (s.withRegs g).regs = g := rfl
@[simp] theorem withRegs_flags (s : State) (g : Regs) : (s.withRegs g).flags = s.flags := rfl
@[simp] theorem withRegs_fcode (s : State) (g : Regs) : (s.withRegs g).fcode = s.fcode := rfl
@[simp] theorem withRegs_finfo (s : State) (g : Regs) : (s.withRegs g).finfo = s.finfo := rfl
@[simp] theorem withRegs_blkcnt (s : State) (g : Regs) : (s.withRegs g).blkcnt = s.blkcnt := rfl
@[simp] theorem withRegs_streams (s : State) (g : Regs) : (s.withRegs g).streams = s.streams := rfl
@[simp] theorem withRegs_running (s : State) (g : Regs) : (s.withRegs g).running = s.running := rfl
@[simp] theorem withRegs_env (s : State) (g : Regs) : (s.withRegs g).env = s.env := rfl

@[simp] theorem withOracle_regs (s : State) (o : Oracle) : (s.withOracle o).regs = s.regs := rfl
@[simp] theorem withOracle_flags (s : State) (o : Oracle) : (s.withOracle o).flags = s.flags := rfl
@[simp] theorem withOracle_fcode (s : State) (o : Oracle) : (s.withOracle o).fcode = s.fcode := rfl
@[simp] theorem withOracle_finfo (s : State) (o : Oracle) : (s.withOracle o).finfo = s.finfo := rfl
@[simp] theorem withOracle_blkcnt (s : State) (o : Oracle) : (s.withOracle o).blkcnt = s.blkcnt := rfl
@[simp] theorem withOracle_streams (s : State) (o : Oracle) : (s.withOracle o).streams = s.streams := rfl
@[simp] theorem withOracle_running (s : State) (o : Oracle) : (s.withOracle o).running = s.running := rfl
@[simp] theorem withOracle_params (s : State) (o : Oracle) : (s.withOracle o).env.params = s.env.params := rfl
@[simp] theorem withOracle_script (s : State) (o : Oracle) : (s.withOracle o).env.script = s.env.script := rfl
@[simp] theorem withOracle_reply (s : State) (o : Oracle) : (s.withOracle o).env.reply = s.env.reply := rfl
@[simp] theorem withOracle_oracle (s : State) (o : Oracle) : (s.withOracle o).env.oracle = o := rfl
@[simp] theorem withOracle_free (s : State) (o : Oracle) : (s.withOracle o).env.free = s.env.free := rfl

@[simp] theorem reply_regs (s : State) (w : Reply) : (s.reply w).regs = s.regs := rfl
@[simp] theorem reply_flags (s : State) (w : Reply) : (s.reply w).flags = s.flags := rfl
@[simp] theorem reply_fcode (s : State) (w : Reply) : (s.reply w).fcode = s.fcode := rfl
@[simp] theorem reply_finfo (s : State) (w : Reply) : (s.reply w).finfo = s.finfo := rfl
@[simp] theorem reply_blkcnt (s : State) (w : Reply) : (s.reply w).blkcnt = s.blkcnt := rfl
@[simp] theorem reply_streams (s : State) (w : Reply) : (s.reply w).streams = s.streams := rfl
@[simp] theorem reply_running (s : State) (w : Reply) : (s.reply w).running = s.running := rfl
@[simp] theorem reply_params (s : State) (w : Reply) : (s.reply w).env.params = s.env.params := rfl
@[simp] theorem reply_script (s : State) (w : Reply) : (s.reply w).env.script = s.env.script := rfl
@[simp] theorem reply_reply (s : State) (w : Reply) : (s.reply w).env.reply = w := rfl
@[simp] theorem reply_oracle (s : State) (w : Reply) : (s.reply w).env.oracle = s.env.oracle := rfl
@[simp] theorem reply_free (s : State) (w : Reply) : (s.reply w).env.free = s.env.free := rfl

@[simp] theorem withScript_regs (s : State) (l : List HostMove) : (s.withScript l).regs = s.regs := rfl
@[simp] theorem withScript_flags (s : State) (l : List HostMove) : (s.withScript l).flags = s.flags := rfl
@[simp] theorem withScript_fcode (s : State) (l : List HostMove) : (s.withScript l).fcode = s.fcode := rfl
@[simp] theorem withScript_finfo (s : State) (l : List HostMove) : (s.withScript l).finfo = s.finfo := rfl
@[simp] theorem withScript_blkcnt (s : State) (l : List HostMove) : (s.withScript l).blkcnt = s.blkcnt := rfl
@[simp] theorem withScript_streams (s : State) (l : List HostMove) : (s.withScript l).streams = s.streams := rfl
@[simp] theorem withScript_running (s : State) (l : List HostMove) : (s.withScript l).running = s.running := rfl
@[simp] theorem withScript_params (s : State) (l : List HostMove) : (s.withScript l).env.params = s.env.params := rfl
@[simp] theorem withScript_script (s : State) (l : List HostMove) : (s.withScript l).env.script = l := rfl
@[simp] theorem withScript_reply (s : State) (l : List HostMove) : (s.withScript l).env.reply = s.env.reply := rfl
@[simp] theorem withScript_oracle (s : State) (l : List HostMove) : (s.withScript l).env.oracle = s.env.oracle := rfl
@[simp] theorem withScript_free (s : State) (l : List HostMove) : (s.withScript l).env.free = s.env.free := rfl

@[simp] theorem complete_regs (s : State) : (complete s).regs = s.regs := rfl
@[simp] theorem complete_done (s : State) : (complete s).flags.done = true := rfl
@[simp] theorem complete_fault (s : State) : (complete s).flags.fault = s.flags.fault := rfl
@[simp] theorem complete_result (s : State) : (complete s).flags.result = s.flags.result := rfl
@[simp] theorem complete_fcode (s : State) : (complete s).fcode = s.fcode := rfl
@[simp] theorem complete_finfo (s : State) : (complete s).finfo = s.finfo := rfl
@[simp] theorem complete_blkcnt (s : State) : (complete s).blkcnt = s.blkcnt := rfl
@[simp] theorem complete_streams (s : State) : (complete s).streams = s.streams := rfl
@[simp] theorem complete_running (s : State) : (complete s).running = none := rfl
@[simp] theorem complete_env (s : State) : (complete s).env = s.env := rfl

@[simp] theorem enterFault_regs (t : Trap) (s : State) : (enterFault t s).regs = s.regs := rfl
@[simp] theorem enterFault_done (t : Trap) (s : State) : (enterFault t s).flags.done = false := rfl
@[simp] theorem enterFault_fault (t : Trap) (s : State) : (enterFault t s).flags.fault = true := rfl
@[simp] theorem enterFault_result (t : Trap) (s : State) : (enterFault t s).flags.result = s.flags.result := rfl
@[simp] theorem enterFault_fcode (t : Trap) (s : State) : (enterFault t s).fcode = t.cause.code := rfl
@[simp] theorem enterFault_finfo (t : Trap) (s : State) : (enterFault t s).finfo = t.info := rfl
@[simp] theorem enterFault_blkcnt (t : Trap) (s : State) : (enterFault t s).blkcnt = s.blkcnt := rfl
@[simp] theorem enterFault_streams (t : Trap) (s : State) : (enterFault t s).streams = s.streams := rfl
@[simp] theorem enterFault_running (t : Trap) (s : State) : (enterFault t s).running = none := rfl
@[simp] theorem enterFault_env (t : Trap) (s : State) : (enterFault t s).env = s.env := rfl

@[simp] theorem resetIn_regs (e : Env) : (State.resetIn e).regs = .reset := rfl
@[simp] theorem resetIn_flags (e : Env) : (State.resetIn e).flags = .reset := rfl
@[simp] theorem resetIn_fcode (e : Env) : (State.resetIn e).fcode = 0 := rfl
@[simp] theorem resetIn_finfo (e : Env) : (State.resetIn e).finfo = 0 := rfl
@[simp] theorem resetIn_blkcnt (e : Env) : (State.resetIn e).blkcnt = 0 := rfl
@[simp] theorem resetIn_streams (e : Env) : (State.resetIn e).streams = .reset := rfl
@[simp] theorem resetIn_running (e : Env) : (State.resetIn e).running = none := rfl
@[simp] theorem resetIn_env (e : Env) : (State.resetIn e).env = e := rfl

/-- A register reads back the natural written to it (R21, R22). -/
@[simp] theorem get_set_same (g : Regs) (v : Nat) (reg : IntReg) : (g.set v reg).get reg = v := by
  cases reg <;> simp [Regs.set, Regs.get]

/-- A write of one register leaves every other alone (R21: no aliases). -/
theorem get_set_other (g : Regs) (v : Int) {reg other : IntReg} (h : other ≠ reg) :
    (g.set v reg).get other = g.get other := by
  cases reg <;> cases other <;> first | rfl | exact absurd rfl h

/-- A write of a natural leaves every natural register natural (R22, R23). -/
theorem set_nonneg {g : Regs} (v : Nat) {reg other : IntReg} (h : 0 ≤ g.get other) : 0 ≤ (g.set v reg).get other := by
  by_cases he : other = reg
  · subst he; rw [get_set_same]; exact Int.natCast_nonneg v
  · rw [get_set_other _ _ he]; exact h

/-- After reset every register holds 0 (R34). -/
@[simp] theorem get_reset (reg : IntReg) : Regs.get .reset reg = 0 := by cases reg <;> rfl

end Sys2Proof.Machine
end

