-- ==== Sys2Proof/Laws/Ops.lean ====
section
/-! SUPPORT. What each shared operation can do: streams, oracles, capacity, fault entry with its unspecified destinations,
and the end of a command. -/

namespace Sys2Proof.Machine

/-! ### Capacity (R24) -/

theorem fits_of_infinite {ps : Params} (h : ps.xbits = none) (v : Int) : ps.fits v = true := by
  simp [Params.fits, h]

theorem entryFits_of_infinite {ps : Params} (h : ps.ledgerEntryBits = none) (v : Nat) : ps.entryFits v = true := by
  simp [Params.entryFits, h]

/-- What is smaller fits where the greater does. -/
theorem fits_mono {ps : Params} {v w : Int} (hw : ps.fits w = true) (h : v.natAbs ≤ w.natAbs) : ps.fits v = true := by
  unfold Params.fits at *
  split at hw
  · simp_all
  · next hx => simp only [decide_eq_true_eq] at *; omega

/-- The natural an operand register is read as fits where the register does. -/
theorem fits_toNat {ps : Params} {v : Int} (h : ps.fits v = true) : ps.fits (v.toNat : Nat) = true :=
  fits_mono h (by omega)

theorem fits_zero (ps : Params) : ps.fits 0 = true := by
  unfold Params.fits; split <;> simp

theorem hold_infinite {ps : Params} (h : ps.xbits = none) (v : Nat) : hold ps v = .ok v := by
  simp [hold, fits_of_infinite h]

/-- A held value is the value itself, and it fits. -/
theorem hold_ok {ps : Params} {v w : Nat} (h : hold ps v = .ok w) : w = v ∧ ps.fits v = true := by
  unfold hold at h; split at h <;> simp_all

theorem hold_error {ps : Params} {v : Nat} {c : Cause} (h : hold ps v = .error c) :
    c = .capacityExceeded ∧ ps.fits v = false := by
  unfold hold at h; split at h <;> simp_all

theorem atBlock_ok {α : Type} {blk : Nat} {e : Calc α} {v : α} : atBlock blk e = .ok v ↔ e = .ok v := by
  cases e <;> simp [atBlock]

theorem atBlock_error {α : Type} {blk : Nat} {e : Calc α} {t : Trap} :
    atBlock blk e = .error t ↔ e = .error t.cause ∧ t.info = blk := by
  cases e with
  | ok v => simp [atBlock]
  | error c =>
    obtain ⟨c', i⟩ := t
    simp [atBlock, eq_comm]

/-! ### Streams (R16) -/

@[simp] theorem inRead_fst (st : Streams) (k : Nat) : (st.inRead k).1 = (st.inp.drop st.ipos).take k := rfl
@[simp] theorem inRead_inp (st : Streams) (k : Nat) : (st.inRead k).2.inp = st.inp := rfl
@[simp] theorem inRead_out (st : Streams) (k : Nat) : (st.inRead k).2.out = st.out := rfl
@[simp] theorem inRead_ledger (st : Streams) (k : Nat) : (st.inRead k).2.ledger = st.ledger := rfl
@[simp] theorem inRead_lpos (st : Streams) (k : Nat) : (st.inRead k).2.lpos = st.lpos := rfl
@[simp] theorem inRead_ipos (st : Streams) (k : Nat) :
    (st.inRead k).2.ipos = st.ipos + min k (st.inp.length - st.ipos) := rfl

/-- A read returns what was asked for, or what is left (R16). -/
theorem inRead_length (st : Streams) (k : Nat) : (st.inRead k).1.length = min k (st.inp.length - st.ipos) := by simp

/-- `IPOS` advances by the bytes returned (R57). -/
theorem inRead_advance (st : Streams) (k : Nat) : (st.inRead k).2.ipos = st.ipos + (st.inRead k).1.length := by simp

/-- A read of at least one byte returns none only at the end of the stream (R16). -/
theorem inRead_eq_nil (st : Streams) (k : Nat) (hk : 0 < k) : (st.inRead k).1 = [] ↔ st.inp.length ≤ st.ipos := by
  rw [← List.length_eq_zero_iff, inRead_length]; omega

@[simp] theorem outAppend_inp (st : Streams) (bs : List Byte) : (st.outAppend bs).inp = st.inp := rfl
@[simp] theorem outAppend_out (st : Streams) (bs : List Byte) : (st.outAppend bs).out = st.out ++ bs := rfl
@[simp] theorem outAppend_ledger (st : Streams) (bs : List Byte) : (st.outAppend bs).ledger = st.ledger := rfl
@[simp] theorem outAppend_ipos (st : Streams) (bs : List Byte) : (st.outAppend bs).ipos = st.ipos := rfl
@[simp] theorem outAppend_lpos (st : Streams) (bs : List Byte) : (st.outAppend bs).lpos = st.lpos := rfl
@[simp] theorem ledgerAppend_inp (st : Streams) (v : Nat) : (st.ledgerAppend v).inp = st.inp := rfl
@[simp] theorem ledgerAppend_out (st : Streams) (v : Nat) : (st.ledgerAppend v).out = st.out := rfl
@[simp] theorem ledgerAppend_ledger (st : Streams) (v : Nat) : (st.ledgerAppend v).ledger = st.ledger ++ [v] := rfl
@[simp] theorem ledgerAppend_ipos (st : Streams) (v : Nat) : (st.ledgerAppend v).ipos = st.ipos := rfl
@[simp] theorem ledgerAppend_lpos (st : Streams) (v : Nat) : (st.ledgerAppend v).lpos = st.lpos := rfl

/-- `LedgerNext` is defined within the ledger, returns the entry there and advances `LPOS` by one (R16). -/
theorem ledgerNext_some {st st' : Streams} {v : Nat} (h : st.ledgerNext = some (v, st')) :
    st.lpos < st.ledger.length ∧ st.ledger[st.lpos]? = some v ∧ st' = { st with lpos := st.lpos + 1 } := by
  unfold Streams.ledgerNext at h
  split at h
  · next w hw =>
    simp only [Option.some.injEq, Prod.mk.injEq] at h
    obtain ⟨rfl, rfl⟩ := h
    exact ⟨(List.getElem?_eq_some_iff.mp hw).1, hw, rfl⟩
  · simp at h

theorem ledgerNext_none {st : Streams} : st.ledgerNext = none ↔ st.ledger.length ≤ st.lpos := by
  unfold Streams.ledgerNext
  split
  · next w hw => simpa using (List.getElem?_eq_some_iff.mp hw).1
  · next hn => simpa using hn

theorem wf_iff (st : Streams) : st.wf = true ↔ st.ipos ≤ st.inp.length ∧ st.lpos ≤ st.ledger.length := by
  simp [Streams.wf]

theorem inRead_wf {st : Streams} (k : Nat) (h : st.wf = true) : (st.inRead k).2.wf = true := by
  rw [wf_iff] at *; simp; omega

theorem outAppend_wf {st : Streams} (bs : List Byte) (h : st.wf = true) : (st.outAppend bs).wf = true := by
  rw [wf_iff] at *; simpa using h

theorem ledgerAppend_wf {st : Streams} (v : Nat) (h : st.wf = true) : (st.ledgerAppend v).wf = true := by
  rw [wf_iff] at *; simp; omega

theorem ledgerNext_wf {st st' : Streams} {v : Nat} (h : st.ledgerNext = some (v, st')) (hw : st.wf = true) :
    st'.wf = true := by
  obtain ⟨hlt, -, rfl⟩ := ledgerNext_some h
  rw [wf_iff] at *; exact ⟨hw.1, hlt⟩

/-! ### Oracles (R15) -/

/-- `RngFill(k)` returns `k` bytes (R15). -/
@[simp] theorem rngFill_length (k : Nat) : ∀ o : Oracle, (o.rngFill k).1.length = k := by
  induction k with
  | zero => intro o; rfl
  | succ k ih => intro o; simp [Oracle.rngFill, ih]

/-- A scripted sample is the sample drawn (R88, `ORACLE RngFill`). -/
theorem rngFill_scripted : ∀ (bs rest : List Byte) (o : Oracle), o.bytes = bs ++ rest →
    o.rngFill bs.length = (bs, { o with bytes := rest }) := by
  intro bs
  induction bs with
  | nil => intro rest o h; simp only [List.nil_append] at h; subst h; rfl
  | cons b bs ih =>
    intro rest o h
    have hn : o.nextByte = (b, { o with bytes := bs ++ rest }) := by simp [Oracle.nextByte, h]
    simp only [List.length_cons, Oracle.rngFill, hn, ih rest { o with bytes := bs ++ rest } rfl]

/-- `SampleBelow(c)` answers within `[1, c - 1]` (R15). -/
theorem sampleBelow_bounds (o : Oracle) {c : Nat} (hc : 2 ≤ c) :
    1 ≤ (o.sampleBelow c).1 ∧ (o.sampleBelow c).1 ≤ c - 1 := by
  have := Nat.mod_lt (o.nextAnswer.1 - 1) (show 0 < c - 1 by omega)
  simp only [Oracle.sampleBelow, intoRange]; omega

/-- A scripted base in range is the base drawn (R88, `ORACLE SampleBelow`): every admissible answer can occur. -/
theorem sampleBelow_scripted {o : Oracle} {c a : Nat} {rest : List Nat} (h : o.bases = a :: rest) (h1 : 1 ≤ a)
    (h2 : a ≤ c - 1) : o.sampleBelow c = (a, { o with bases := rest }) := by
  have : (a - 1) % (c - 1) = a - 1 := Nat.mod_eq_of_lt (by omega)
  simp only [Oracle.sampleBelow, Oracle.nextAnswer, h, intoRange, this]
  congr 1; omega

/-! ### Unspecified destinations (R207) -/

@[simp] theorem unspecify_flags (s : State) (d : Dest) : (s.unspecify d).flags = s.flags := by cases d <;> rfl
@[simp] theorem unspecify_fcode (s : State) (d : Dest) : (s.unspecify d).fcode = s.fcode := by cases d <;> rfl
@[simp] theorem unspecify_finfo (s : State) (d : Dest) : (s.unspecify d).finfo = s.finfo := by cases d <;> rfl
@[simp] theorem unspecify_running (s : State) (d : Dest) : (s.unspecify d).running = s.running := by cases d <;> rfl
@[simp] theorem unspecify_inp (s : State) (d : Dest) : (s.unspecify d).streams.inp = s.streams.inp := by cases d <;> rfl
@[simp] theorem unspecify_params (s : State) (d : Dest) : (s.unspecify d).env.params = s.env.params := by
  cases d <;> rfl
@[simp] theorem unspecify_script (s : State) (d : Dest) : (s.unspecify d).env.script = s.env.script := by
  cases d <;> rfl
@[simp] theorem unspecify_reply (s : State) (d : Dest) : (s.unspecify d).env.reply = s.env.reply := by cases d <;> rfl
@[simp] theorem unspecify_oracle (s : State) (d : Dest) : (s.unspecify d).env.oracle = s.env.oracle := by
  cases d <;> rfl

/-- One destination changes; what any other register or buffer reads as does not. -/
theorem unspecify_read (s : State) {d : Dest} {t : Target} (h : d.target ≠ t) : (s.unspecify d).read t = s.read t := by
  cases d with
  | reg which =>
    cases t with
    | int reg =>
      have hne : reg ≠ which := fun hc => h (by rw [hc]; rfl)
      exact congrArg HostValue.number (get_set_other s.regs _ hne)
    | _ => rfl
  | _ => cases t <;> first | rfl | exact absurd rfl h

theorem foldl_unspecify_keeps {α : Type} (f : State → α) (hf : ∀ s d, f (s.unspecify d) = f s) (ds : List Dest) :
    ∀ s : State, f (ds.foldl State.unspecify s) = f s := by
  induction ds with
  | nil => intro s; rfl
  | cons d ds ih => intro s; rw [List.foldl_cons, ih, hf]

theorem foldl_unspecify_read (ds : List Dest) {t : Target} (h : ∀ d ∈ ds, d.target ≠ t) :
    ∀ s : State, (ds.foldl State.unspecify s).read t = s.read t := by
  induction ds with
  | nil => intro s; rfl
  | cons d ds ih =>
    intro s
    rw [List.foldl_cons, ih (fun d' hd' => h d' (List.mem_cons_of_mem _ hd')), unspecify_read s (h d (by simp))]

/-! ### Fault entry of a running command (R206, R207) -/

@[simp] theorem raise_done (i : Instr) (t : Trap) (s : State) : (raise i t s).flags.done = false := rfl
@[simp] theorem raise_fault (i : Instr) (t : Trap) (s : State) : (raise i t s).flags.fault = true := rfl
@[simp] theorem raise_fcode (i : Instr) (t : Trap) (s : State) : (raise i t s).fcode = t.cause.code := rfl
@[simp] theorem raise_finfo (i : Instr) (t : Trap) (s : State) : (raise i t s).finfo = t.info := rfl
@[simp] theorem raise_running (i : Instr) (t : Trap) (s : State) : (raise i t s).running = none := rfl
@[simp] theorem raise_result (i : Instr) (t : Trap) (s : State) : (raise i t s).flags.result = s.flags.result :=
  foldl_unspecify_keeps (fun s => s.flags.result) (by simp) (destinations i) s
@[simp] theorem raise_inp (i : Instr) (t : Trap) (s : State) : (raise i t s).streams.inp = s.streams.inp :=
  foldl_unspecify_keeps (fun s => s.streams.inp) (by simp) (destinations i) s
@[simp] theorem raise_params (i : Instr) (t : Trap) (s : State) : (raise i t s).env.params = s.env.params :=
  foldl_unspecify_keeps (fun s => s.env.params) (by simp) (destinations i) s
@[simp] theorem raise_script (i : Instr) (t : Trap) (s : State) : (raise i t s).env.script = s.env.script :=
  foldl_unspecify_keeps (fun s => s.env.script) (by simp) (destinations i) s
@[simp] theorem raise_reply (i : Instr) (t : Trap) (s : State) : (raise i t s).env.reply = s.env.reply :=
  foldl_unspecify_keeps (fun s => s.env.reply) (by simp) (destinations i) s
@[simp] theorem raise_oracle (i : Instr) (t : Trap) (s : State) : (raise i t s).env.oracle = s.env.oracle :=
  foldl_unspecify_keeps (fun s => s.env.oracle) (by simp) (destinations i) s

/-- A read that does not look at the flags, `FCODE` or `FINFO` is not changed by their change. -/
theorem read_congr {s t : State} (h1 : t.regs = s.regs) (h2 : t.streams = s.streams) (h3 : t.blkcnt = s.blkcnt)
    {g : Target} (hs : g ≠ .status) (hc : g ≠ .fcode) (hi : g ≠ .finfo) : t.read g = s.read g := by
  cases g <;> simp_all [State.read]

/-- R207: state that is no destination of the faulting command is unchanged. -/
theorem raise_read (i : Instr) (t : Trap) (s : State) {g : Target} (h : ∀ d ∈ destinations i, d.target ≠ g)
    (hs : g ≠ .status) (hc : g ≠ .fcode) (hi : g ≠ .finfo) : (raise i t s).read g = s.read g :=
  (read_congr (t := raise i t s) (s := (destinations i).foldl State.unspecify s) rfl rfl rfl hs hc hi).trans
    (foldl_unspecify_read _ h s)

/-- An unspecified position stays within its buffer (R207). -/
theorem raise_wf (i : Instr) (t : Trap) (s : State) (h : s.streams.wf = true) : (raise i t s).streams.wf = true := by
  have hm : ∀ k n : Nat, k % (n + 1) ≤ n := fun k n => Nat.lt_succ_iff.mp (Nat.mod_lt _ (Nat.succ_pos n))
  rw [wf_iff] at *
  cases i <;> simp only [raise, destinations, List.foldl, State.unspecify, enterFault, hm, and_self] <;> exact h

/-! ### The end of a command -/

/-- A command that ends has completed or faulted, and no longer runs (R84). -/
theorem settle_cases {α : Type} {i : Instr} {result : Except Trap α} {write : α → State → State} {s t : State}
    (h : settle i result write s = t) :
    (∃ v, result = .ok v ∧ t = complete (write v s)) ∨ (∃ trap, result = .error trap ∧ t = raise i trap s) := by
  cases result with
  | ok v => exact .inl ⟨v, rfl, h.symm⟩
  | error trap => exact .inr ⟨trap, rfl, h.symm⟩

end Sys2Proof.Machine
end

