-- ==== Sys2Proof/Laws/Egcd.lean ====
section
/-! SUPPORT. The recurrence of rule R141: what each iteration keeps, that the loop ends with remainder 0 or 1, and what the
function then returns or raises (R143, R144). -/

namespace Sys2Proof.Machine

/-- What every iteration keeps, for the ordered operands `a` and `b`: the two linear identities of rule R141, the gcd, and
the magnitudes and alternating signs of the cofactors. -/
structure BezoutInv (a b : Nat) (v : Bezout) : Prop where
  order : v.r1 ≤ v.r0
  gcd   : Nat.gcd v.r0 v.r1 = Nat.gcd a b
  lin0  : v.s0 * a + v.t0 * b = v.r0
  lin1  : v.s1 * a + v.t1 * b = v.r1
  signs : ∃ σ : Int, (σ = 1 ∨ σ = -1) ∧ ∃ S0 S1 T0 T1 : Nat,
    v.s0 = σ * S0 ∧ v.s1 = -σ * S1 ∧ v.t0 = -σ * T0 ∧ v.t1 = σ * T1 ∧
    v.r0 * S1 + v.r1 * S0 = b ∧ v.r0 * T1 + v.r1 * T0 = a

theorem next_r1_lt {v : Bezout} (h : 1 < v.r1) : v.next.r1 < v.r1 := by
  have h1 : v.r0 - v.r0 / v.r1 * v.r1 = v.r0 % v.r1 := by
    rw [Nat.mod_def, mul_comm]
  simp only [Bezout.next, h1]
  exact Nat.mod_lt _ (by omega)

theorem next_inv {a b : Nat} {v : Bezout} (h : 1 < v.r1) (hi : BezoutInv a b v) : BezoutInv a b v.next := by
  obtain ⟨ho, hg, h0, h1, σ, hσ, S0, S1, T0, T1, e1, e2, e3, e4, eb, ea⟩ := hi
  have hle : v.r0 / v.r1 * v.r1 ≤ v.r0 := Nat.div_mul_le_self _ _
  obtain ⟨rem, hrem⟩ : ∃ rem, v.r0 = v.r0 / v.r1 * v.r1 + rem := ⟨v.r0 - v.r0 / v.r1 * v.r1, by omega⟩
  have hr : v.r0 - v.r0 / v.r1 * v.r1 = rem := by omega
  have hri : (v.r0 : Int) = (v.r0 / v.r1 : Nat) * (v.r1 : Int) + rem := by exact_mod_cast hrem
  have hmod : rem = v.r0 % v.r1 := by rw [Nat.mod_def, mul_comm]; omega
  generalize hq : v.r0 / v.r1 = qt at *
  refine ⟨(next_r1_lt h).le, ?_, ?_, ?_, -σ, by omega, S1, S0 + qt * S1, T1, T0 + qt * T1, ?_, ?_, ?_, ?_, ?_, ?_⟩ <;>
    simp only [Bezout.next, hq, hr]
  · rw [← hg, hmod, Nat.gcd_comm v.r1, ← Nat.gcd_rec, Nat.gcd_comm]
  · exact h1
  · rw [show (rem : Int) = v.r0 - qt * v.r1 by omega]
    linear_combination h0 - qt * h1
  · exact e2
  · rw [e1, e2]; push_cast; ring
  · rw [e4]; ring
  · rw [e3, e4]; push_cast; ring
  · rw [← eb, hrem]; ring
  · rw [← ea, hrem]; ring

/-- The loop ends within its count, on a remainder of at most 1, and keeps what each iteration keeps; it made no iteration,
or it ends with the greater remainder at least 2. -/
theorem bezoutLoop_ok {ps : Params} {a b : Nat} : ∀ k v w, v.r1 ≤ k → BezoutInv a b v → v.fits ps = true →
    bezoutLoop ps k v = .ok w →
    BezoutInv a b w ∧ w.r1 ≤ 1 ∧ w.fits ps = true ∧ (w = v ∧ v.r1 ≤ 1 ∨ 1 < v.r1 ∧ 2 ≤ w.r0) := by
  intro k
  induction k with
  | zero =>
    intro v w hk hi hf h
    simp only [bezoutLoop, Except.ok.injEq] at h
    subst h
    exact ⟨hi, by omega, hf, .inl ⟨rfl, by omega⟩⟩
  | succ k ih =>
    intro v w hk hi hf h
    rw [bezoutLoop] at h
    split at h
    · next hlt =>
      split at h
      · next hfit =>
        have hfit' : v.next.fits ps = true := by simp at hfit; exact hfit.2
        have hdec := next_r1_lt hlt
        obtain ⟨hw, hr, hwf, hor⟩ := ih v.next w (by omega) (next_inv hlt hi) hfit' h
        refine ⟨hw, hr, hwf, .inr ⟨hlt, ?_⟩⟩
        rcases hor with ⟨rfl, -⟩ | ⟨-, h2⟩
        · exact hlt
        · exact h2
      · exact absurd h (by simp)
    · next hge =>
      simp only [Except.ok.injEq] at h
      subst h
      exact ⟨hi, by omega, hf, .inl ⟨rfl, by omega⟩⟩

theorem bezoutLoop_infinite {ps : Params} (hx : ps.xbits = none) : ∀ k v, ∃ w, bezoutLoop ps k v = .ok w := by
  intro k
  induction k with
  | zero => intro v; exact ⟨v, rfl⟩
  | succ k ih =>
    intro v
    rw [bezoutLoop]
    split
    · simpa [Bezout.fits, fits_of_infinite hx] using ih v.next
    · exact ⟨v, rfl⟩

theorem bezoutLoop_error {ps : Params} : ∀ k v c, bezoutLoop ps k v = .error c → c = .capacityExceeded := by
  intro k
  induction k with
  | zero => intro v c h; simp [bezoutLoop] at h
  | succ k ih =>
    intro v c h
    rw [bezoutLoop] at h
    split at h
    · split at h
      · exact ih _ _ h
      · simpa using h.symm
    · simp at h

theorem bezoutStart_inv (a b : Nat) : BezoutInv (max a b) (min a b) (bezoutStart a b) := by
  unfold bezoutStart
  split
  · next h =>
    rw [max_eq_right h.le, min_eq_left h.le]
    exact ⟨h.le, rfl, by simp, by simp, 1, .inl rfl, 1, 0, 0, 1, by simp, by simp, by simp, by simp, by simp, by simp⟩
  · next h =>
    rw [max_eq_left (by omega), min_eq_right (by omega)]
    exact ⟨by simp; omega, rfl, by simp, by simp, 1, .inl rfl, 1, 0, 0, 1, by simp, by simp, by simp, by simp, by simp,
      by simp⟩

/-- What the function returns (R143): the Bézout identity, the bounds, and values within the capacity. -/
theorem extendedGcd_ok {ps : Params} {a b : Nat} {x y : Int} (h : extendedGcd ps a b = .ok (x, y)) :
    (a : Int) * x + b * y = 1 ∧ x.natAbs ≤ b ∧ y.natAbs ≤ a ∧ x * y ≤ 0 ∧
    (2 ≤ a → 2 ≤ b → 2 * x.natAbs ≤ b ∧ 2 * y.natAbs ≤ a) ∧ ps.fits x = true ∧ ps.fits y = true := by
  unfold extendedGcd at h
  split at h
  swap
  · exact absurd h (by simp)
  next hf =>
  split at h
  · exact absurd h (by simp)
  next w hw =>
  obtain ⟨⟨ho, -, -, hlin, σ, hσ, S0, S1, T0, T1, -, e2, -, e4, eb, ea⟩, -, hwf, hor⟩ :=
    bezoutLoop_ok _ _ _ le_rfl (bezoutStart_inv a b) hf hw
  split at h
  · exact absurd h (by simp)
  next h1 =>
  have h1 : w.r1 = 1 := by simpa using h1
  simp only [Bezout.fits, Bool.and_eq_true] at hwf
  have hx : w.s1.natAbs = S1 := by rcases hσ with rfl | rfl <;> omega
  have hy : w.t1.natAbs = T1 := by rcases hσ with rfl | rfl <;> omega
  have hxy : w.s1 * w.t1 ≤ 0 := by
    have : w.s1 * w.t1 = -((S1 : Int) * T1) := by rw [e2, e4]; rcases hσ with rfl | rfl <;> ring
    rw [this]; exact neg_nonpos.mpr (by positivity)
  have hS : S1 ≤ min a b := eb ▸ Nat.le_add_right_of_le (Nat.le_mul_of_pos_left S1 (by omega))
  have hT : T1 ≤ max a b := ea ▸ Nat.le_add_right_of_le (Nat.le_mul_of_pos_left T1 (by omega))
  have h2 : 2 ≤ a → 2 ≤ b → 2 * S1 ≤ min a b ∧ 2 * T1 ≤ max a b := by
    intro ha hb
    have : 2 ≤ w.r0 := by
      rcases hor with ⟨-, hr⟩ | ⟨-, hr⟩
      · exfalso; unfold bezoutStart at hr; split at hr <;> simp at hr <;> omega
      · exact hr
    exact ⟨eb ▸ Nat.le_add_right_of_le (Nat.mul_le_mul_right S1 this),
      ea ▸ Nat.le_add_right_of_le (Nat.mul_le_mul_right T1 this)⟩
  split at h <;> next hab =>
    simp only [Except.ok.injEq, Prod.mk.injEq] at h
    obtain ⟨rfl, rfl⟩ := h
    refine ⟨?_, ?_, ?_, ?_, ?_, ?_, ?_⟩
    · first
        | (rw [max_eq_right hab.le, min_eq_left hab.le, h1] at hlin; push_cast at hlin; linarith)
        | (rw [max_eq_left (not_lt.mp hab), min_eq_right (not_lt.mp hab), h1] at hlin; push_cast at hlin; linarith)
    · omega
    · omega
    · first | exact hxy | (rw [mul_comm]; exact hxy)
    · intro ha hb; have := h2 ha hb; omega
    · first | exact hwf.2 | exact hwf.1.1.2
    · first | exact hwf.1.1.2 | exact hwf.2

/-- R144: with infinite capacity the function returns exactly on the coprime pairs other than `(1, 0)` and `(0, 1)`, and
raises `ArithmeticPrecondition` on every other. -/
theorem extendedGcd_infinite {ps : Params} (hx : ps.xbits = none) (a b : Nat) :
    (Nat.gcd a b = 1 ∧ a ≠ 0 ∧ b ≠ 0 ∧ ∃ xy, extendedGcd ps a b = .ok xy) ∨
    (¬ (Nat.gcd a b = 1 ∧ a ≠ 0 ∧ b ≠ 0) ∧ extendedGcd ps a b = .error .arithmeticPrecondition) := by
  have hf : (bezoutStart a b).fits ps = true := by simp [Bezout.fits, fits_of_infinite hx]
  obtain ⟨w, hw⟩ := bezoutLoop_infinite hx (bezoutStart a b).r1 (bezoutStart a b)
  obtain ⟨hinv, hle, -, hor⟩ := bezoutLoop_ok _ _ _ le_rfl (bezoutStart_inv a b) hf hw
  have hg : Nat.gcd w.r0 w.r1 = Nat.gcd a b := by
    rw [hinv.gcd]; rcases le_total a b with h | h <;> simp [h, Nat.gcd_comm]
  have hstart : (bezoutStart a b).r1 = min a b := by unfold bezoutStart; split <;> simp <;> omega
  rcases Nat.lt_or_ge w.r1 1 with h0 | h1
  · right
    have h0 : w.r1 = 0 := by omega
    constructor
    · rintro ⟨hgcd, ha, hb⟩
      rw [← hg, h0, Nat.gcd_zero_right] at hgcd
      rcases hor with ⟨rfl, hr⟩ | ⟨-, hr⟩
      · omega
      · omega
    · simp [extendedGcd, hf, hw, h0]
  · left
    have h1 : w.r1 = 1 := by omega
    have hgcd : Nat.gcd a b = 1 := by rw [← hg, h1, Nat.gcd_one_right]
    have hmin : min a b ≠ 0 := by
      rcases hor with ⟨rfl, hr⟩ | ⟨hr, -⟩ <;> omega
    refine ⟨hgcd, by omega, by omega, ?_⟩
    rcases Nat.lt_or_ge a b with hab | hab
    · exact ⟨(w.t1, w.s1), by simp [extendedGcd, hf, hw, h1, hab]⟩
    · exact ⟨(w.s1, w.t1), by simp [extendedGcd, hf, hw, h1, not_lt.mpr hab]⟩

/-- The only other fault is a capacity that is exceeded. -/
theorem extendedGcd_error {ps : Params} {a b : Nat} {c : Cause} (h : extendedGcd ps a b = .error c) :
    c = .capacityExceeded ∨ c = .arithmeticPrecondition := by
  unfold extendedGcd at h
  split at h
  · split at h
    · next hc => simp only [Except.error.injEq] at h; subst h; exact .inl (bezoutLoop_error _ _ _ hc)
    · split at h
      · simp at h; exact .inr h.symm
      · split at h <;> simp at h
  · simp at h; exact .inl h.symm

/-- The loop does nothing on a remainder of 0 or 1 (R141). -/
theorem bezoutLoop_done {ps : Params} {v : Bezout} (h : v.r1 ≤ 1) (k : Nat) : bezoutLoop ps k v = .ok v := by
  cases k with
  | zero => rfl
  | succ k => rw [bezoutLoop, if_neg (by omega)]

/-- R143 (e): the second operand 1. -/
theorem extendedGcd_one_right {ps : Params} (hx : ps.xbits = none) {a : Nat} (ha : a ≠ 0) :
    extendedGcd ps a 1 = .ok (0, 1) := by
  have hf : (bezoutStart a 1).fits ps = true := by simp [Bezout.fits, fits_of_infinite hx]
  have hs : bezoutStart a 1 = { r0 := a, r1 := 1, s0 := 1, s1 := 0, t0 := 0, t1 := 1 } := by
    unfold bezoutStart; rw [if_neg (by omega)]
  simp only [extendedGcd, hf, if_true]
  rw [bezoutLoop_done (by rw [hs])]
  simp only [hs, ne_eq, not_true, if_false]
  rw [if_neg (by omega)]

/-- R143 (b): on the operands exchanged, the pair exchanged. -/
theorem extendedGcd_swap {ps : Params} {a b : Nat} (h : a ≠ b) {x y : Int} (he : extendedGcd ps a b = .ok (x, y)) :
    extendedGcd ps b a = .ok (y, x) := by
  have hs : bezoutStart b a = bezoutStart a b := by
    unfold bezoutStart; split <;> split <;> first | omega | rfl
  unfold extendedGcd at *
  rw [hs]
  split at he
  · next hf =>
    rw [if_pos hf]
    split at he
    · simp at he
    · next v hv =>
      split at he
      · simp at he
      · next hr =>
        rw [if_neg hr]
        split at he
        · rw [if_neg (by omega)]; simp_all
        · rw [if_pos (by omega)]; simp_all
  · simp at he

end Sys2Proof.Machine
end

