-- ==== Sys2Proof/Laws/Crt.lean ====
section
/-! SUPPORT. What `crt_roots` and `select_root` return or raise (R154, R157), and the residues of the roots (R156). -/

namespace Sys2Proof.Machine

/-- The nine values of the listing (R153, R154), for the Bézout pair `(yp, yq)`. -/
def listing (c p q : Nat) (yp yq : Int) : Roots :=
  let mp := modexp c ((p + 1) / 4) p
  let mq := modexp c ((q + 1) / 4) q
  let m1 := intMod (yp * p * mq + yq * q * mp) (p * q)
  let m3 := intMod (yp * p * mq - yq * q * mp) (p * q)
  { n := p * q, mp := mp, mq := mq, yp := yp, yq := yq, m1 := m1, m2 := p * q - m1, m3 := m3, m4 := p * q - m3 }

/-- What returns is the listing's nine values, each within the capacity. -/
theorem crtRoots_ok {ps : Params} {c p q : Nat} {v : Roots} (h : crtRoots ps c p q = .ok v) :
    p ≠ 0 ∧ q ≠ 0 ∧ extendedGcd ps p q = .ok (v.yp, v.yq) ∧ v = listing c p q v.yp v.yq ∧
    ps.fits v.n = true ∧ ps.fits v.mp = true ∧ ps.fits v.mq = true ∧ ps.fits v.m1 = true ∧ ps.fits v.m2 = true ∧
    ps.fits v.m3 = true ∧ ps.fits v.m4 = true := by
  simp only [crtRoots, bind, Except.bind, throw, throwThe, MonadExceptOf.throw, pure, Except.pure] at h
  cases hn : hold ps (p * q) with
  | error e => simp [hn] at h
  | ok n =>
  obtain ⟨rfl, fn⟩ := hold_ok hn
  simp only [hn] at h
  by_cases hp : p = 0
  · simp [hp] at h
  simp only [hp, if_false] at h
  cases hmp : hold ps (modexp c ((p + 1) / 4) p) with
  | error e => simp [hmp] at h
  | ok mp =>
  obtain ⟨rfl, fmp⟩ := hold_ok hmp
  simp only [hmp] at h
  by_cases hq : q = 0
  · simp [hq] at h
  simp only [hq, if_false] at h
  cases hmq : hold ps (modexp c ((q + 1) / 4) q) with
  | error e => simp [hmq] at h
  | ok mq =>
  obtain ⟨rfl, fmq⟩ := hold_ok hmq
  simp only [hmq] at h
  cases he : extendedGcd ps p q with
  | error e => simp [he] at h
  | ok xy =>
  obtain ⟨yp, yq⟩ := xy
  simp only [he] at h
  cases h1 : hold ps (intMod (yp * p * modexp c ((q + 1) / 4) q + yq * q * modexp c ((p + 1) / 4) p) (p * q)) with
  | error e => simp [h1] at h
  | ok m1 =>
  obtain ⟨rfl, f1⟩ := hold_ok h1
  simp only [h1] at h
  cases h2 : hold ps (p * q -
      intMod (yp * p * modexp c ((q + 1) / 4) q + yq * q * modexp c ((p + 1) / 4) p) (p * q)) with
  | error e => simp [h2] at h
  | ok m2 =>
  obtain ⟨rfl, f2⟩ := hold_ok h2
  simp only [h2] at h
  cases h3 : hold ps (intMod (yp * p * modexp c ((q + 1) / 4) q - yq * q * modexp c ((p + 1) / 4) p) (p * q)) with
  | error e => simp [h3] at h
  | ok m3 =>
  obtain ⟨rfl, f3⟩ := hold_ok h3
  simp only [h3] at h
  cases h4 : hold ps (p * q -
      intMod (yp * p * modexp c ((q + 1) / 4) q - yq * q * modexp c ((p + 1) / 4) p) (p * q)) with
  | error e => simp [h4] at h
  | ok m4 =>
  obtain ⟨rfl, f4⟩ := hold_ok h4
  simp only [h4, Except.ok.injEq] at h
  subst h
  exact ⟨hp, hq, rfl, rfl, fn, fmp, fmq, f1, f2, f3, f4⟩

/-- With infinite capacity: the listing, or the faults in the listing's order (R154, R211). -/
theorem crtRoots_infinite {ps : Params} (hx : ps.xbits = none) (c p q : Nat) :
    crtRoots ps c p q =
      if p = 0 then .error .modulusZero
      else if q = 0 then .error .modulusZero
      else match extendedGcd ps p q with
        | .error e => .error e
        | .ok (yp, yq) => .ok (listing c p q yp yq) := by
  simp only [crtRoots, hold_infinite hx, bind, Except.bind, throw, throwThe, MonadExceptOf.throw, pure, Except.pure]
  by_cases hp : p = 0
  · simp [hp]
  by_cases hq : q = 0
  · simp [hp, hq]
  simp only [hp, hq, if_false]
  cases extendedGcd ps p q with
  | error e => rfl
  | ok xy => rfl

/-- The true modulo (R10): in range, and congruent. -/
theorem intMod_cast (v : Int) {n : Nat} (hn : 0 < n) : (intMod v n : Int) = v % n :=
  Int.toNat_of_nonneg (Int.emod_nonneg _ (by omega))

theorem intMod_lt (v : Int) {n : Nat} (hn : 0 < n) : intMod v n < n := by
  have h := intMod_cast v hn
  have := Int.emod_lt_of_pos v (show (0 : Int) < n by omega)
  omega

theorem intMod_modEq (v : Int) {n : Nat} (hn : 0 < n) : (intMod v n : Int) ≡ v [ZMOD n] := by
  rw [intMod_cast v hn]; exact Int.mod_modEq _ _

/-- `select_root` (R157) answers the one match. -/
theorem selectRoot_ok {m1 m2 m3 m4 sel : Nat} (h : selectRoot m1 m2 m3 m4 = .ok sel) :
    [m1, m2, m3, m4].filter endsSuffix = [sel] := by
  unfold selectRoot at h
  split at h
  · next hit hl => simp only [Except.ok.injEq] at h; rw [hl, h]
  · exact absurd h (by simp)

/-- The selected root is one of the four and ends in the suffix. -/
theorem selectRoot_mem {m1 m2 m3 m4 sel : Nat} (h : selectRoot m1 m2 m3 m4 = .ok sel) :
    sel ∈ [m1, m2, m3, m4] ∧ endsSuffix sel = true := by
  have : sel ∈ [m1, m2, m3, m4].filter endsSuffix := by rw [selectRoot_ok h]; simp
  exact List.mem_filter.mp this

theorem selectRoot_error {m1 m2 m3 m4 : Nat} {c : Cause} (h : selectRoot m1 m2 m3 m4 = .error c) :
    c = .ambiguousOrCorruptCiphertext := by
  unfold selectRoot at h
  split at h <;> simp at h
  exact h.symm

/-- `select_root` faults exactly when the number of matching positions is not one (R157, R209). -/
theorem selectRoot_eq (m1 m2 m3 m4 : Nat) :
    ([m1, m2, m3, m4].countP endsSuffix = 1 ∧ ∃ sel, selectRoot m1 m2 m3 m4 = .ok sel) ∨
    ([m1, m2, m3, m4].countP endsSuffix ≠ 1 ∧ selectRoot m1 m2 m3 m4 = .error .ambiguousOrCorruptCiphertext) := by
  unfold selectRoot
  rw [List.countP_eq_length_filter]
  generalize [m1, m2, m3, m4].filter endsSuffix = l
  match l with
  | [] => simp
  | [a] => simp
  | a :: b :: l => simp

/-- R156 (b): the residues of `m1` and `m3` modulo the two primes. -/
theorem listing_residues (c p q : Nat) (x y : Int) (hp : 0 < p) (hq : 0 < q) (h : (p : Int) * x + q * y = 1) :
    let v := listing c p q x y
    (v.m1 : Int) ≡ v.mp [ZMOD p] ∧ (v.m1 : Int) ≡ v.mq [ZMOD q] ∧
    (v.m3 : Int) ≡ -v.mp [ZMOD p] ∧ (v.m3 : Int) ≡ v.mq [ZMOD q] := by
  intro v
  have hn : 0 < p * q := Nat.mul_pos hp hq
  have a1 := intMod_modEq (x * p * v.mq + y * q * v.mp) hn
  have a3 := intMod_modEq (x * p * v.mq - y * q * v.mp) hn
  have dp : (p : Int) ∣ ((p * q : Nat) : Int) := ⟨q, by push_cast; ring⟩
  have dq : (q : Int) ∣ ((p * q : Nat) : Int) := ⟨p, by push_cast; ring⟩
  refine ⟨(a1.of_dvd dp).trans ?_, (a1.of_dvd dq).trans ?_, (a3.of_dvd dp).trans ?_, (a3.of_dvd dq).trans ?_⟩
  · rw [Int.modEq_iff_dvd]; exact ⟨x * v.mp - x * v.mq, by linear_combination (-(v.mp : Int)) * h⟩
  · rw [Int.modEq_iff_dvd]; exact ⟨y * v.mq - y * v.mp, by linear_combination (-(v.mq : Int)) * h⟩
  · rw [Int.modEq_iff_dvd]; exact ⟨-x * v.mp - x * v.mq, by linear_combination (v.mp : Int) * h⟩
  · rw [Int.modEq_iff_dvd]; exact ⟨y * v.mq + y * v.mp, by linear_combination (-(v.mq : Int)) * h⟩

/-- The base of a power may be reduced modulo a multiple of the modulus. -/
theorem modexp_base_mod (b e p n : Nat) (hp : 0 < p) (hd : p ∣ n) : modexp (b % n) e p = modexp (b % p) e p := by
  rw [modexp_eq _ _ _ hp, modexp_eq _ _ _ hp]
  exact (((Nat.mod_modEq b n).of_dvd hd).trans (Nat.mod_modEq b p).symm).pow e

/-- One position that matches, and no other, leaves its value alone in the list of matches (R157). -/
theorem filter_of_one_match (l : List Nat) : ∀ (k m : Nat), l[k]? = some m → endsSuffix m = true →
    (∀ j m', l[j]? = some m' → endsSuffix m' = true → j = k) → l.filter endsSuffix = [m] := by
  induction l with
  | nil => intro k m hk; simp at hk
  | cons a l ih =>
    intro k m hk hm hu
    cases k with
    | zero =>
      simp only [List.getElem?_cons_zero, Option.some.injEq] at hk
      subst hk
      rw [List.filter_cons_of_pos hm]
      congr 1
      rw [List.filter_eq_nil_iff]
      intro b hb hb'
      obtain ⟨j, hj⟩ := List.mem_iff_getElem?.mp hb
      have := hu (j + 1) b (by simpa using hj) hb'
      omega
    | succ k =>
      have : ¬ endsSuffix a = true := fun h => by have := hu 0 a rfl h; omega
      rw [List.filter_cons_of_neg this]
      exact ih k m (by simpa using hk) hm fun j m' h1 h2 => by have := hu (j + 1) m' (by simpa using h1) h2; omega

/-- Where one match is left, no two positions match (R157). -/
theorem no_two_matches (l : List Nat) {a : Nat} (h : l.filter endsSuffix = [a]) : ∀ j k m m' : Nat, j ≠ k →
    l[j]? = some m → l[k]? = some m' → endsSuffix m = true → endsSuffix m' = true → False := by
  induction l with
  | nil => simp at h
  | cons b l ih =>
    intro j k m m' hjk hj hk hm hm'
    by_cases hb : endsSuffix b = true
    · rw [List.filter_cons_of_pos hb] at h
      have hnil : l.filter endsSuffix = [] := by simpa using (List.cons.inj h).2
      rw [List.filter_eq_nil_iff] at hnil
      cases j with
      | zero => cases k with
        | zero => exact hjk rfl
        | succ k => exact hnil m' (List.mem_of_getElem? (by simpa using hk)) hm'
      | succ j => exact hnil m (List.mem_of_getElem? (by simpa using hj)) hm
    · rw [List.filter_cons_of_neg hb] at h
      cases j with
      | zero => simp only [List.getElem?_cons_zero, Option.some.injEq] at hj; subst hj; exact hb hm
      | succ j => cases k with
        | zero => simp only [List.getElem?_cons_zero, Option.some.injEq] at hk; subst hk; exact hb hm'
        | succ k => exact ih h j k m m' (by omega) (by simpa using hj) (by simpa using hk) hm hm'

end Sys2Proof.Machine
end

