-- ==== Sys2Proof/Laws/Cipher.lean ====
section
/-! SUPPORT. The loops of ENC and DEC, said once: what they keep, and with infinite capacity what they compute. -/

namespace Sys2Proof.Machine

/-- The chunks ENC cuts a byte string into (R55): chunk `i` is the sixteen bytes from `16 * i`, the last one shorter. -/
def chunksOf (bs : List Byte) : List (List Byte) :=
  (List.range ((bs.length + 15) / 16)).map fun i => (bs.drop (16 * i)).take 16

@[simp] theorem chunksOf_nil : chunksOf [] = [] := rfl

theorem chunksOf_length (bs : List Byte) : (chunksOf bs).length = (bs.length + 15) / 16 := by simp [chunksOf]

theorem chunksOf_cons (bs : List Byte) (h : bs ≠ []) : chunksOf bs = bs.take 16 :: chunksOf (bs.drop 16) := by
  have hl : 0 < bs.length := List.length_pos_iff.mpr h
  have hn : (bs.length + 15) / 16 = ((bs.drop 16).length + 15) / 16 + 1 := by rw [List.length_drop]; omega
  rw [chunksOf, hn, List.range_succ_eq_map, List.map_cons, List.map_map, chunksOf]
  simp only [Nat.mul_zero, List.drop_zero, List.cons.injEq, true_and]
  apply List.map_congr_left
  intro i _
  simp only [Function.comp, List.drop_drop]
  congr 2; omega

/-- No chunk is empty. -/
theorem chunksOf_ne_nil {bs : List Byte} {ch : List Byte} (h : ch ∈ chunksOf bs) : ch ≠ [] := by
  simp only [chunksOf, List.mem_map, List.mem_range] at h
  obtain ⟨i, hi, rfl⟩ := h
  intro hc
  have := congrArg List.length hc
  simp at this; omega

/-- The chunks put together are the string again. -/
theorem chunksOf_flatten (bs : List Byte) : (chunksOf bs).flatten = bs := by
  induction hl : bs.length using Nat.strong_induction_on generalizing bs with
  | _ l ih =>
    by_cases h : bs = []
    · subst h; rfl
    · have hp : 0 < bs.length := List.length_pos_iff.mpr h
      rw [chunksOf_cons bs h, List.flatten_cons, ih _ (by rw [List.length_drop]; omega) (bs.drop 16) rfl,
        List.take_append_drop]

/-- The ciphertext block of a chunk (R171). -/
def cipherBlock (n : Nat) (chunk : List Byte) : List Byte := natToBe (modexp (tagOf (beToNat chunk)) 2 n)

theorem encBlock_infinite {ps : Params} (hx : ps.xbits = none) (hl : ps.ledgerEntryBits = none) {n : Nat} (hn : n ≠ 0)
    (chunk : List Byte) (st : Streams) :
    encBlock ps n chunk st =
      .ok ((st.ledgerAppend (cipherBlock n chunk).length).outAppend (cipherBlock n chunk)) := by
  simp only [encBlock, hold_infinite hx]
  simp [hn, encryptBlock, hold_infinite hx, bind, Except.bind, pure, Except.pure, entryFits_of_infinite hl,
    cipherBlock]

/-- What one block of ENC does to the streams (R171, R172): its ciphertext and the length of that are appended, whatever the
streams hold, or it faults, whatever they hold. -/
theorem encBlock_cases (ps : Params) (n : Nat) (chunk : List Byte) :
    (∃ bs : List Byte, 1 ≤ bs.length ∧ ps.entryFits bs.length = true ∧
      ∀ st : Streams, encBlock ps n chunk st = .ok ((st.ledgerAppend bs.length).outAppend bs)) ∨
    (∃ c, ∀ st : Streams, encBlock ps n chunk st = .error c) := by
  unfold encBlock
  cases hold ps chunk.length with
  | error c => exact .inr ⟨c, fun _ => rfl⟩
  | ok j =>
    by_cases hn : n = 0
    · exact .inr ⟨.modulusZero, fun _ => by simp [hn]⟩
    simp only [hn, if_false]
    cases he : encryptBlock ps chunk n with
    | error c => exact .inr ⟨c, fun _ => rfl⟩
    | ok bs =>
      have hlen : 1 ≤ bs.length := by
        simp only [encryptBlock, bind, Except.bind, pure, Except.pure] at he
        split at he
        · simp at he
        · split at he
          · simp at he
          · simp only [Except.ok.injEq] at he; rw [← he]; exact natToBe_length_pos _
      by_cases hfit : ps.entryFits bs.length = true
      · exact .inl ⟨bs, hlen, hfit, fun _ => by simp [hfit]⟩
      · exact .inr ⟨.capacityExceeded, fun _ => by simp [hfit]⟩

theorem nextBlk_infinite {ps : Params} (hx : ps.xbits = none) (blk : Nat) : nextBlk ps blk = .ok (blk + 1) := by
  simp [nextBlk, hold_infinite hx, atBlock]

/-- What the loop of ENC computes from a modulus that is not 0 (R172, R173). -/
theorem encryptLoop_infinite {ps : Params} (hx : ps.xbits = none) (hl : ps.ledgerEntryBits = none) {n : Nat}
    (hn : n ≠ 0) : ∀ k st blk, st.inp.length - st.ipos < k → st.ipos ≤ st.inp.length →
    encryptLoop ps n k st blk = .ok
      ({ st with
          out := st.out ++ ((chunksOf (st.inp.drop st.ipos)).map (cipherBlock n)).flatten
          ledger := st.ledger ++ (chunksOf (st.inp.drop st.ipos)).map fun ch => (cipherBlock n ch).length
          ipos := st.inp.length },
        blk + (chunksOf (st.inp.drop st.ipos)).length) := by
  intro k
  induction k with
  | zero => intro st blk h; omega
  | succ k ih =>
    intro st blk hk hle
    rw [encryptLoop]
    by_cases he : st.inp.length ≤ st.ipos
    · have hd : st.inp.drop st.ipos = [] := List.drop_eq_nil_of_le he
      have hi : st.ipos = st.inp.length := by omega
      rw [if_pos ((inRead_eq_nil st _ (by simp)).mpr he), hd]
      obtain ⟨inp, out, ledger, ipos, lpos⟩ := st
      simp only at hi
      subst hi
      simp [Streams.inRead]
    · have hd : st.inp.drop st.ipos ≠ [] := by simp; omega
      rw [if_neg (fun hc => he ((inRead_eq_nil st _ (by simp)).mp hc)), encBlock_infinite hx hl hn]
      simp only [atBlock, nextBlk_infinite hx]
      rw [ih _ _ (by simp; omega) (by simp; omega)]
      have hdrop : st.inp.drop (st.ipos + min 16 (st.inp.length - st.ipos)) = (st.inp.drop st.ipos).drop 16 := by
        rw [List.drop_drop]
        rcases Nat.lt_or_ge (st.inp.length - st.ipos) 16 with h | h
        · rw [min_eq_right h.le, List.drop_eq_nil_of_le (by omega), List.drop_eq_nil_of_le (by omega)]
        · rw [min_eq_left h]
      simp only [outAppend_inp, outAppend_out, outAppend_ledger, outAppend_ipos, ledgerAppend_inp, ledgerAppend_out,
        ledgerAppend_ledger, ledgerAppend_ipos, inRead_inp, inRead_out, inRead_ledger, inRead_ipos, inRead_fst,
        blockBytes_eq, hdrop, chunksOf_cons _ hd, List.map_cons, List.flatten_cons, List.length_cons,
        List.append_assoc, List.singleton_append]
      simp only [Streams.outAppend, Streams.ledgerAppend, Streams.inRead, Except.ok.injEq, Prod.mk.injEq, true_and]
      omega

/-- What the loop of ENC keeps, whatever the parameters (R172). -/
theorem encryptLoop_keeps {ps : Params} {n : Nat} : ∀ k st blk st' blk', encryptLoop ps n k st blk = .ok (st', blk') →
    st'.inp = st.inp ∧ st'.lpos = st.lpos ∧ (st.ipos ≤ st.inp.length → st'.ipos ≤ st.inp.length) ∧
    st.ledger <+: st'.ledger ∧
    ((∀ v ∈ st.ledger, ps.entryFits v = true) → ∀ v ∈ st'.ledger, ps.entryFits v = true) := by
  intro k
  induction k with
  | zero =>
    intro st blk st' blk' h
    simp only [encryptLoop, Except.ok.injEq, Prod.mk.injEq] at h
    obtain ⟨rfl, rfl⟩ := h
    exact ⟨rfl, rfl, id, List.prefix_rfl, id⟩
  | succ k ih =>
    intro st blk st' blk' h
    rw [encryptLoop] at h
    split at h
    · simp only [Except.ok.injEq, Prod.mk.injEq] at h
      obtain ⟨rfl, rfl⟩ := h
      exact ⟨rfl, rfl, fun hle => by simp; omega, List.prefix_rfl, id⟩
    · split at h
      · exact absurd h (by simp)
      · next st1 hb =>
        split at h
        · exact absurd h (by simp)
        · rw [atBlock_ok] at hb
          obtain ⟨bs, -, hfit, he⟩ | ⟨c, he⟩ := encBlock_cases ps n (st.inRead Config.blockBytes).1 <;> rw [he] at hb
          swap; · exact absurd hb (by simp)
          simp only [Except.ok.injEq] at hb
          subst hb
          obtain ⟨h1, h2, h3, h4, h5⟩ := ih _ _ _ _ h
          refine ⟨h1, h2, fun hle => h3 (by simp; omega), (List.prefix_append _ _).trans h4, fun hall => h5 ?_⟩
          intro v hv
          simp only [outAppend_ledger, ledgerAppend_ledger, inRead_ledger, List.mem_append, List.mem_singleton] at hv
          rcases hv with hv | rfl
          · exact hall v hv
          · exact hfit

/-- What the loop of DEC keeps, whatever the parameters (R176). -/
theorem decryptLoop_keeps {ps : Params} {p q : Nat} : ∀ k st blk st' blk',
    decryptLoop ps p q k st blk = .ok (st', blk') →
    st'.inp = st.inp ∧ st'.ledger = st.ledger ∧ (st.wf = true → st'.wf = true) := by
  intro k
  induction k with
  | zero =>
    intro st blk st' blk' h
    simp only [decryptLoop, Except.ok.injEq, Prod.mk.injEq] at h
    obtain ⟨rfl, rfl⟩ := h
    exact ⟨rfl, rfl, id⟩
  | succ k ih =>
    intro st blk st' blk' h
    rw [decryptLoop] at h
    split at h
    · simp only [Except.ok.injEq, Prod.mk.injEq] at h
      obtain ⟨rfl, rfl⟩ := h
      exact ⟨rfl, rfl, id⟩
    · next len st1 hn =>
      have hw := ledgerNext_wf hn
      obtain ⟨-, -, rfl⟩ := ledgerNext_some hn
      split at h
      · exact absurd h (by simp)
      · split at h
        · simp only [Except.ok.injEq, Prod.mk.injEq] at h
          obtain ⟨rfl, rfl⟩ := h
          exact ⟨rfl, rfl, fun hwf => inRead_wf _ (hw hwf)⟩
        · split at h
          · exact absurd h (by simp)
          · split at h
            · exact absurd h (by simp)
            · obtain ⟨h1, h2, h3⟩ := ih _ _ _ _ h
              exact ⟨h1, h2, fun hwf => h3 (outAppend_wf _ (inRead_wf _ (hw hwf)))⟩

/-- The calculation of ENC ends with the product, and keeps what its loop keeps. -/
theorem encCalc_ok {ps : Params} {p q n blk : Nat} {st st' : Streams} (h : encCalc ps p q st = .ok (n, st', blk)) :
    n = p * q ∧ ps.fits n = true ∧
    encryptLoop ps n (st.inp.length - st.ipos + 1) { st with out := [], ledger := [], lpos := 0 } 0 = .ok (st', blk) := by
  unfold encCalc at h
  split at h
  · exact absurd h (by simp)
  · next m hm =>
    obtain ⟨rfl, hf⟩ := hold_ok (atBlock_ok.mp hm)
    split at h
    · exact absurd h (by simp)
    · next st1 b hl =>
      simp only [Except.ok.injEq, Prod.mk.injEq] at h
      obtain ⟨rfl, rfl, rfl⟩ := h
      exact ⟨rfl, hf, hl⟩

/-- The calculation of DEC ends with the product, and keeps what its loop keeps. -/
theorem decCalc_ok {ps : Params} {p q n blk : Nat} {st st' : Streams} (h : decCalc ps p q st = .ok (n, st', blk)) :
    n = p * q ∧ ps.fits n = true ∧
    decryptLoop ps p q (st.ledger.length - st.lpos) { st with out := [] } 0 = .ok (st', blk) := by
  unfold decCalc at h
  split at h
  · exact absurd h (by simp)
  · next m hm =>
    obtain ⟨rfl, hf⟩ := hold_ok (atBlock_ok.mp hm)
    split at h
    · exact absurd h (by simp)
    · next st1 b hl =>
      simp only [Except.ok.injEq, Prod.mk.injEq] at h
      obtain ⟨rfl, rfl, rfl⟩ := h
      exact ⟨rfl, hf, hl⟩

/-- R173, R30 for the loop of ENC, whatever the parameters: it reads to the end of `IN`, counts its chunks, and appends to
the ledger the lengths of what it appends to `OUT`. -/
theorem encryptLoop_counts {ps : Params} {n : Nat} : ∀ k st blk st' blk', st.inp.length - st.ipos < k →
    st.ipos ≤ st.inp.length → encryptLoop ps n k st blk = .ok (st', blk') →
    st'.ipos = st.inp.length ∧ blk' = blk + (st.inp.length - st.ipos + 15) / 16 ∧
    st'.ledger.length + blk = st.ledger.length + blk' ∧
    ((∀ v ∈ st.ledger, 1 ≤ v) → ∀ v ∈ st'.ledger, 1 ≤ v) ∧
    st'.ledger.sum + st.out.length = st.ledger.sum + st'.out.length := by
  intro k
  induction k with
  | zero => intro st blk st' blk' h; omega
  | succ k ih =>
    intro st blk st' blk' hk hle h
    rw [encryptLoop] at h
    split at h
    · next hr =>
      rw [inRead_eq_nil _ _ (by simp)] at hr
      simp only [Except.ok.injEq, Prod.mk.injEq] at h
      obtain ⟨rfl, rfl⟩ := h
      exact ⟨by simp; omega, by omega, rfl, id, rfl⟩
    · next hr =>
      rw [inRead_eq_nil _ _ (by simp)] at hr
      split at h
      · exact absurd h (by simp)
      · next st1 hb =>
        split at h
        · exact absurd h (by simp)
        · next b hb2 =>
          obtain ⟨rfl, -⟩ := hold_ok (atBlock_ok.mp hb2)
          rw [atBlock_ok] at hb
          obtain ⟨bs, hlen, -, he⟩ | ⟨c, he⟩ := encBlock_cases ps n (st.inRead Config.blockBytes).1 <;> rw [he] at hb
          swap; · exact absurd hb (by simp)
          simp only [Except.ok.injEq] at hb
          subst hb
          obtain ⟨h1, h2, h3, h4, h5⟩ := ih _ _ _ _ (by simp; omega) (by simp; omega) h
          simp only [outAppend_ledger, ledgerAppend_ledger, inRead_ledger, outAppend_inp, ledgerAppend_inp,
            inRead_inp, outAppend_ipos, ledgerAppend_ipos, inRead_ipos, outAppend_out, ledgerAppend_out,
            inRead_out, blockBytes_eq, List.length_append, List.sum_append, List.length_singleton,
            List.sum_singleton] at h1 h2 h3 h4 h5
          refine ⟨h1, by omega, by omega, fun hall => h4 ?_, by omega⟩
          intro v hv
          rw [List.mem_append, List.mem_singleton] at hv
          rcases hv with hv | rfl
          · exact hall v hv
          · exact hlen

/-- R172, R183: what the loop of ENC gives depends on what is left of `IN`, not on what has been read. -/
theorem encryptLoop_rest {ps : Params} {n : Nat} : ∀ k st st2 blk, st.inp.drop st.ipos = st2.inp.drop st2.ipos →
    st.out = st2.out → st.ledger = st2.ledger →
    match encryptLoop ps n k st blk, encryptLoop ps n k st2 blk with
    | .ok (a, b), .ok (a', b') => a.out = a'.out ∧ a.ledger = a'.ledger ∧ b = b'
    | .error t, .error t'      => t = t'
    | .ok _, .error _          => False
    | .error _, .ok _          => False := by
  intro k
  induction k with
  | zero => intro st st2 blk h1 h2 h3; simp [encryptLoop, h2, h3]
  | succ k ih =>
    intro st st2 blk h1 h2 h3
    have hr : (st.inRead Config.blockBytes).1 = (st2.inRead Config.blockBytes).1 := by simp [h1]
    rw [encryptLoop, encryptLoop, hr]
    by_cases hnil : (st2.inRead Config.blockBytes).1 = []
    · simp only [hnil, if_true]; simp [h2, h3]
    · simp only [hnil, if_false]
      have hd : ∀ x : Streams, x.inp.drop (x.ipos + min 16 (x.inp.length - x.ipos)) = (x.inp.drop x.ipos).drop 16 := by
        intro x
        rw [List.drop_drop]
        rcases Nat.lt_or_ge (x.inp.length - x.ipos) 16 with h | h
        · rw [min_eq_right h.le, List.drop_eq_nil_of_le (by omega), List.drop_eq_nil_of_le (by omega)]
        · rw [min_eq_left h]
      obtain ⟨bs, -, -, he⟩ | ⟨c, he⟩ := encBlock_cases ps n (st2.inRead Config.blockBytes).1
      · simp only [he, atBlock]
        cases nextBlk ps blk with
        | error t => simp
        | ok b => exact ih _ _ _ (by simp [hd, h1]) (by simp [h2]) (by simp [h3])
      · simp only [he, atBlock]

/-- `LedgerNext` where the coming entry is known (R16). -/
theorem ledgerNext_drop {st : Streams} {v : Nat} {ls : List Nat} (h : st.ledger.drop st.lpos = v :: ls) :
    st.ledgerNext = some (v, { st with lpos := st.lpos + 1 }) ∧ st.ledger.drop (st.lpos + 1) = ls := by
  have h0 : st.ledger[st.lpos]? = some v := by rw [← List.head?_drop, h]; rfl
  refine ⟨by simp [Streams.ledgerNext, h0], ?_⟩
  rw [← List.tail_drop, h]; rfl

/-- What the loop of DEC does on pieces that each decrypt (R176): it consumes them and their ledger entries, appends their
plaintext blocks, and goes on from there. -/
theorem decryptLoop_pieces {ps : Params} (hx : ps.xbits = none) (p q : Nat) :
    ∀ (pieces : List (List Byte)) (ms : List Nat) (k : Nat) (st : Streams) (blk : Nat) (rest : List Byte)
      (more : List Nat), st.inp.drop st.ipos = pieces.flatten ++ rest →
    st.ledger.drop st.lpos = pieces.map List.length ++ more → (∀ cb ∈ pieces, cb ≠ []) →
    List.Forall₂ (fun cb m => decryptBlock ps (beToNat cb) p q = .ok m) pieces ms →
    decryptLoop ps p q (pieces.length + k) st blk = decryptLoop ps p q k
      { st with out := st.out ++ (ms.map natToBe).flatten, ipos := st.ipos + pieces.flatten.length,
                lpos := st.lpos + pieces.length } (blk + pieces.length) := by
  intro pieces
  induction pieces with
  | nil => intro ms k st blk rest more h1 h2 h3 h4; cases h4; simp
  | cons cb pieces ih =>
    intro ms k st blk rest more h1 h2 h3 h4
    cases h4 with
    | @cons _ m _ ms hm h4 =>
    rw [List.map_cons, List.cons_append] at h2
    obtain ⟨hn, hd⟩ := ledgerNext_drop h2
    rw [List.length_cons, show pieces.length + 1 + k = (pieces.length + k) + 1 by omega, decryptLoop, hn]
    have hcb : (Streams.inRead { st with lpos := st.lpos + 1 } cb.length).1 = cb := by
      simp [h1, List.flatten_cons, List.append_assoc]
    have hne : cb ≠ [] := h3 cb (by simp)
    have hle : cb.length ≤ st.inp.length - st.ipos := by rw [← List.length_drop, h1]; simp
    have hdb : decBlock ps p q cb.length cb = .ok (natToBe m) := by simp [decBlock, hold_infinite hx, hm]
    simp only [hold_infinite hx, atBlock, hcb, hne, if_false, hdb, nextBlk_infinite hx]
    rw [ih ms k _ _ rest more ?_ ?_ (fun c hc => h3 c (by simp [hc])) h4]
    · congr 1
      · simp only [Streams.outAppend, Streams.inRead, min_eq_left hle, List.map_cons, List.flatten_cons,
          List.append_assoc, List.length_append, Streams.mk.injEq, true_and]
        omega
      · omega
    · simp only [outAppend_inp, inRead_inp, outAppend_ipos, inRead_ipos, min_eq_left hle]
      rw [← List.drop_drop, h1]; simp
    · simpa using hd

end Sys2Proof.Machine
end

