-- ==== Sys2Proof/Laws/Capacity.lean ====
section
/-! SUPPORT. A finite capacity only adds faults (R24, R204): each calculation gives what it gives with infinite capacity, or
`CapacityExceeded`. -/

namespace Sys2Proof.Machine

/-- A calculation under a finite capacity does what it does under an infinite one, or it runs out of capacity (R24). -/
def Keep {α : Type} (r r' : Calc α) : Prop := r = r' ∨ r = .error .capacityExceeded

/-- The parameters with the capacities infinite. -/
abbrev uncapped (ps : Params) : Params := { ps with xbits := none, ledgerEntryBits := none }

theorem hold_uncapped (ps : Params) (v : Nat) : hold (uncapped ps) v = .ok v := hold_infinite rfl v

theorem keep_hold (ps : Params) (v : Nat) : Keep (hold ps v) (hold (uncapped ps) v) := by
  rw [hold_uncapped]; unfold hold Keep; split <;> simp

theorem Keep.bind {α β : Type} {r r' : Calc α} {f f' : α → Calc β} (h : Keep r r') (hf : ∀ v, Keep (f v) (f' v)) :
    Keep (r >>= f) (r' >>= f') := by
  rcases h with rfl | rfl
  · cases r with
    | ok v => exact hf v
    | error c => exact .inl rfl
  · exact .inr rfl

theorem Keep.refl {α : Type} (r : Calc α) : Keep r r := .inl rfl

theorem keep_bezoutLoop (ps : Params) : ∀ k v, Keep (bezoutLoop ps k v) (bezoutLoop (uncapped ps) k v) := by
  intro k
  induction k with
  | zero => intro v; exact Keep.refl _
  | succ k ih =>
    intro v
    rw [bezoutLoop, bezoutLoop]
    split
    · have : ((uncapped ps).fits (v.r0 / v.r1 : Nat) && v.next.fits (uncapped ps)) = true := by simp [Bezout.fits, fits_of_infinite]
      rw [if_pos this]
      split
      · exact ih _
      · exact .inr rfl
    · exact Keep.refl _

theorem keep_extendedGcd (ps : Params) (a b : Nat) : Keep (extendedGcd ps a b) (extendedGcd (uncapped ps) a b) := by
  unfold extendedGcd
  have : (bezoutStart a b).fits (uncapped ps) = true := by simp [Bezout.fits, fits_of_infinite]
  rw [if_pos this]
  split
  · rcases keep_bezoutLoop ps (bezoutStart a b).r1 (bezoutStart a b) with h | h
    · rw [h]; exact Keep.refl _
    · rw [h]; exact .inr rfl
  · exact .inr rfl

theorem keep_crtRoots (ps : Params) (c p q : Nat) : Keep (crtRoots ps c p q) (crtRoots (uncapped ps) c p q) := by
  unfold crtRoots
  refine (keep_hold _ _).bind fun n => ?_
  by_cases hp : p = 0
  · simp only [hp, if_true]; exact Keep.refl _
  simp only [hp, if_false]
  refine (keep_hold _ _).bind fun mp => ?_
  by_cases hq : q = 0
  · simp only [hq, if_true]; exact Keep.refl _
  simp only [hq, if_false]
  refine (keep_hold _ _).bind fun mq => ?_
  refine (keep_extendedGcd _ _ _).bind fun xy => ?_
  refine (keep_hold _ _).bind fun mp => ?_
  refine (keep_hold _ _).bind fun mp => ?_
  refine (keep_hold _ _).bind fun mp => ?_
  refine (keep_hold _ _).bind fun mp => ?_
  exact Keep.refl _

/-- The same of a calculation whose faults carry a block index. -/
def KeepT {α : Type} (r r' : Except Trap α) : Prop := r = r' ∨ ∃ n, r = .error ⟨.capacityExceeded, n⟩

theorem Keep.at {α : Type} {r r' : Calc α} (h : Keep r r') (n : Nat) : KeepT (atBlock n r) (atBlock n r') := by
  rcases h with rfl | rfl
  · exact .inl rfl
  · exact .inr ⟨n, rfl⟩

theorem KeepT.refl {α : Type} (r : Except Trap α) : KeepT r r := .inl rfl

theorem keep_encBlock (ps : Params) (n : Nat) (ch : List Byte) (st : Streams) :
    Keep (encBlock ps n ch st) (encBlock (uncapped ps) n ch st) := by
  unfold encBlock
  rw [hold_uncapped]
  rcases keep_hold ps ch.length with h | h
  swap; · rw [h]; exact .inr rfl
  rw [h, hold_uncapped]
  simp only []
  split
  · exact Keep.refl _
  · have : Keep (encryptBlock ps ch n) (encryptBlock (uncapped ps) ch n) := by
      unfold encryptBlock
      refine (keep_hold _ _).bind fun m => ?_
      refine (keep_hold _ _).bind fun m => ?_
      exact Keep.refl _
    rcases this with h | h
    · rw [h]
      cases encryptBlock (uncapped ps) ch n with
      | error c => exact Keep.refl _
      | ok bs =>
        simp only []
        rw [if_pos (entryFits_of_infinite (ps := uncapped ps) rfl _)]
        split
        · exact Keep.refl _
        · exact .inr rfl
    · rw [h]; exact .inr rfl

theorem keep_encryptLoop (ps : Params) (n : Nat) : ∀ k st blk, KeepT (encryptLoop ps n k st blk) (encryptLoop (uncapped ps) n k st blk) := by
  intro k
  induction k with
  | zero => intro st blk; exact KeepT.refl _
  | succ k ih =>
    intro st blk
    rw [encryptLoop, encryptLoop]
    split
    · exact KeepT.refl _
    · rcases (keep_encBlock ps n (st.inRead Config.blockBytes).1 (st.inRead Config.blockBytes).2).at blk with h | ⟨m, h⟩
      · rw [h]
        split
        · exact KeepT.refl _
        · rcases (keep_hold ps (blk+1)).at blk with h | ⟨m, h⟩
          · simp only [nextBlk, h]
            simp only [hold_uncapped, atBlock]
            exact ih _ _
          · simp only [nextBlk, h]; exact .inr ⟨_, rfl⟩
      · rw [h]; exact .inr ⟨_, rfl⟩

theorem keep_decBlock (ps : Params) (p q len : Nat) (cb : List Byte) :
    Keep (decBlock ps p q len cb) (decBlock (uncapped ps) p q len cb) := by
  unfold decBlock
  split
  · exact Keep.refl _
  · rcases keep_hold ps (beToNat cb) with h | h
    · rw [h, hold_uncapped]
      simp only []
      unfold decryptBlock
      rcases keep_crtRoots ps (beToNat cb) p q with h | h
      · rw [h]; exact Keep.refl _
      · rw [h]; exact .inr rfl
    · rw [h]; exact .inr rfl

theorem keep_decryptLoop (ps : Params) (p q : Nat) : ∀ k st blk, KeepT (decryptLoop ps p q k st blk) (decryptLoop (uncapped ps) p q k st blk) := by
  intro k
  induction k with
  | zero => intro st blk; exact KeepT.refl _
  | succ k ih =>
    intro st blk
    rw [decryptLoop, decryptLoop]
    split
    · exact KeepT.refl _
    · next len st1 _ =>
      rcases (keep_hold ps len).at blk with h | ⟨m, h⟩
      · rw [h, hold_uncapped]
        simp only [atBlock]
        split
        · exact KeepT.refl _
        · rcases (keep_decBlock ps p q len (st1.inRead len).1).at blk with h | ⟨m, h⟩
          · simp only [atBlock] at h
            simp only [h]
            split
            · exact KeepT.refl _
            · rcases (keep_hold ps (blk+1)).at blk with h | ⟨m, h⟩
              · simp only [nextBlk, h]
                simp only [hold_uncapped, atBlock]
                exact ih _ _
              · simp only [nextBlk, h]; exact .inr ⟨_, rfl⟩
          · simp only [atBlock] at h
            simp only [h]; exact .inr ⟨_, rfl⟩
      · rw [h]; exact .inr ⟨_, rfl⟩

theorem keep_modexpCalc (ps : Params) (b e m : Nat) :
    Keep (modexpCalc ps b e m) (modexpCalc (uncapped ps) b e m) := by
  unfold modexpCalc; split
  · exact Keep.refl _
  · exact keep_hold _ _

theorem keep_encCalc (ps : Params) (p q : Nat) (st : Streams) :
    KeepT (encCalc ps p q st) (encCalc (uncapped ps) p q st) := by
  unfold encCalc
  rcases (keep_hold ps (p*q)).at 0 with h | ⟨m, h⟩
  · rw [h, hold_uncapped]
    simp only [atBlock]
    rcases keep_encryptLoop ps (p*q) (st.inp.length - st.ipos + 1) { st with out := [], ledger := [], lpos := 0 } 0 with h | ⟨m, h⟩
    · rw [h]; exact KeepT.refl _
    · rw [h]; exact .inr ⟨_, rfl⟩
  · rw [h]; exact .inr ⟨_, rfl⟩

theorem keep_decCalc (ps : Params) (p q : Nat) (st : Streams) :
    KeepT (decCalc ps p q st) (decCalc (uncapped ps) p q st) := by
  unfold decCalc
  rcases (keep_hold ps (p*q)).at 0 with h | ⟨m, h⟩
  · rw [h, hold_uncapped]
    simp only [atBlock]
    rcases keep_decryptLoop ps p q (st.ledger.length - st.lpos) { st with out := [] } 0 with h | ⟨m, h⟩
    · rw [h]; exact KeepT.refl _
    · rw [h]; exact .inr ⟨_, rfl⟩
  · rw [h]; exact .inr ⟨_, rfl⟩

end Sys2Proof.Machine
end

