-- ==== Sys2Proof/Laws/Decode.lean ====
section
/-! SUPPORT. The opcode map and the register-number map (R51, R83, R86). -/

namespace Sys2Proof

/-- R83: no word selects two rows. -/
theorem opcodeTable_disjoint : opcodeTable.Pairwise fun a b => (a.bits ^^^ b.bits) &&& (a.mask &&& b.mask) ≠ 0 := by
  decide

/-- Every row's word decodes to the row's command. -/
theorem opcodeTable_decodes : ∀ row ∈ opcodeTable, decode row.bits = .command row.instr := by decide

/-- Every mask is 0xFF (R83), so a word selects the row of its own OPCODE only. -/
theorem selects_iff : ∀ row ∈ opcodeTable, ∀ w : Byte, row.selects w = true → w = encode row.instr := by
  intro row hrow w hw
  have hmask : w &&& 0xFF#8 = w := by ext i hi; interval_cases i <;> simp
  simp only [opcodeTable, List.mem_cons, List.not_mem_nil, or_false] at hrow
  rcases hrow with h | h | h | h | h | h | h | h | h | h | h | h | h | h <;>
    (subst h; simpa [OpcodeRow.selects, hmask, encode] using hw)

/-- A word that decodes to a command is that command's OPCODE: each command has one word. -/
theorem eq_encode_of_decode {w : Byte} {i : Instr} (h : decode w = .command i) : w = encode i := by
  unfold decode at h
  split at h
  · next row hrow =>
    obtain rfl : row.instr = i := by simpa using h
    have hsel := List.find?_some hrow
    exact selects_iff row (List.mem_of_find?_eq_some hrow) w hsel
  · exact absurd h (by simp)

/-- Each register number names one thing (R51). -/
theorem ofNumber_number (t : Target) : Target.ofNumber t.number = some t := by
  cases t with
  | int reg => cases reg <;> decide
  | _ => decide

/-- A reserved number names nothing (R51). -/
theorem number_of_ofNumber {w : Byte} {t : Target} (h : Target.ofNumber w = some t) : t.number = w := by
  have := List.find?_some h
  simpa using this

end Sys2Proof
end

