-- ==== Sys2Proof/Laws/Primality.lean ====
section
/-! SUPPORT. The parts of the primality test and of key generation, each said once: the decomposition (R111), the rounds
and their draws (R116), the round count (R114), and what one pass of key generation can do (R120). -/

namespace Sys2Proof.Machine

theorem decompLoop_spec : ∀ k s t, t ≤ k → 0 < t →
    2 ^ s * t = 2 ^ (decompLoop k s t).1 * (decompLoop k s t).2 ∧ (decompLoop k s t).2 % 2 = 1 ∧
    s ≤ (decompLoop k s t).1 ∧ (t % 2 = 0 → s + 1 ≤ (decompLoop k s t).1) := by
  intro k
  induction k with
  | zero => intro s t h h0; omega
  | succ k ih =>
    intro s t h h0
    rw [decompLoop]
    split
    · next he =>
      obtain ⟨h1, h2, h3, -⟩ := ih (s + 1) (t / 2) (by omega) (by omega)
      refine ⟨?_, h2, by omega, fun _ => h3⟩
      rw [← h1, pow_succ, mul_assoc, Nat.mul_div_cancel' (Nat.dvd_of_mod_eq_zero he)]
    · next ho => exact ⟨rfl, by omega, le_rfl, fun he => absurd he ho⟩

/-- R111: `c - 1 = 2^s * t` with `t` odd and `s >= 1`. -/
theorem decomp_spec {c : Nat} (hc : 3 ≤ c) (ho : c % 2 = 1) :
    c - 1 = 2 ^ (decomp c).1 * (decomp c).2 ∧ (decomp c).2 % 2 = 1 ∧ 1 ≤ (decomp c).1 := by
  obtain ⟨h1, h2, -, h4⟩ := decompLoop_spec (c - 1) 0 (c - 1) le_rfl (by omega)
  exact ⟨by simpa [decomp] using h1, h2, h4 (by omega)⟩

/-- R114: the round count is at least 1. -/
theorem roundCount_pos (r : Rounds) {d : Nat} (hd : 1 ≤ d) : 1 ≤ roundCount r d := by
  cases r with
  | digitCount => exact hd
  | increments table => simp [roundCount]

/-- R114: the round count is monotone in the digit count. -/
theorem roundCount_mono (r : Rounds) {d e : Nat} (h : d ≤ e) : roundCount r d ≤ roundCount r e := by
  cases r with
  | digitCount => exact h
  | increments table =>
    obtain ⟨k, rfl⟩ := Nat.exists_eq_add_of_le h
    simp only [roundCount, List.range_add, List.map_append, List.sum_append]
    omega

/-- A test whose every admissible base passes accepts, whatever is drawn (R117 (b)). -/
theorem rounds_true {c s t : Nat} (hc : 2 ≤ c) (h : ∀ a, 1 ≤ a → a ≤ c - 1 → mrRound c s t a = .pass) :
    ∀ k o, (rounds c s t k o).1 = true := by
  intro k
  induction k with
  | zero => intro o; rfl
  | succ k ih =>
    intro o
    obtain ⟨h1, h2⟩ := sampleBelow_bounds o hc
    rw [rounds, h _ h1 h2]
    exact ih _

/-- With scripted bases in range, the verdict is that every one passes, and an accepted candidate has drawn them all
(R116). -/
theorem rounds_scripted {c s t : Nat} : ∀ (bases rest : List Nat) (o : Oracle), o.bases = bases ++ rest →
    (∀ a ∈ bases, 1 ≤ a ∧ a ≤ c - 1) →
    (rounds c s t bases.length o).1 = decide (∀ a ∈ bases, mrRound c s t a = .pass) ∧
    ((∀ a ∈ bases, mrRound c s t a = .pass) → (rounds c s t bases.length o).2 = { o with bases := rest }) := by
  intro bases
  induction bases with
  | nil =>
    intro rest o h _
    simp only [List.nil_append] at h
    subst h
    simp [rounds]
  | cons a bases ih =>
    intro rest o h hr
    obtain ⟨h1, h2⟩ := hr a (by simp)
    have hs := sampleBelow_scripted (rest := bases ++ rest) h h1 h2
    simp only [List.length_cons, rounds, hs]
    cases hv : mrRound c s t a with
    | composite => simp [hv]
    | pass =>
      have := ih rest { o with bases := bases ++ rest } rfl (fun b hb => hr b (by simp [hb]))
      simpa [hv] using this

/-- The first base that a round rejects ends the test, and no later base is drawn (R116). -/
theorem rounds_stop {c s t a : Nat} : ∀ (passed rest : List Nat) (k : Nat) (o : Oracle),
    o.bases = passed ++ a :: rest → passed.length < k →
    (∀ b ∈ passed, 1 ≤ b ∧ b ≤ c - 1 ∧ mrRound c s t b = .pass) → 1 ≤ a → a ≤ c - 1 → mrRound c s t a = .composite →
    rounds c s t k o = (false, { o with bases := rest }) := by
  intro passed
  induction passed with
  | nil =>
    intro rest k o h hk _ h1 h2 hv
    obtain ⟨k, rfl⟩ := Nat.exists_eq_add_of_lt hk
    simp only [rounds, sampleBelow_scripted h h1 h2, hv]
  | cons b passed ih =>
    intro rest k o h hk hp h1 h2 hv
    obtain ⟨k, rfl⟩ := Nat.exists_eq_add_of_lt (Nat.lt_of_le_of_lt (Nat.zero_le _) hk)
    obtain ⟨hb1, hb2, hb⟩ := hp b (by simp)
    simp only [Nat.zero_add, rounds, sampleBelow_scripted h hb1 hb2, hb]
    exact ih rest k _ rfl (by simp only [List.length_cons] at hk; omega) (fun x hx => hp x (by simp [hx])) h1 h2 hv

/-- The test draws no byte of the random source. -/
theorem rounds_bytes {c s t : Nat} : ∀ k o, (rounds c s t k o).2.bytes = o.bytes ∧
    (rounds c s t k o).2.byteDraws = o.byteDraws := by
  intro k
  induction k with
  | zero => intro o; exact ⟨rfl, rfl⟩
  | succ k ih =>
    intro o
    have hb : (o.sampleBelow c).2.bytes = o.bytes ∧ (o.sampleBelow c).2.byteDraws = o.byteDraws := by
      unfold Oracle.sampleBelow Oracle.nextAnswer; split <;> exact ⟨rfl, rfl⟩
    rw [rounds]
    split
    · exact hb
    · rw [(ih _).1, (ih _).2]; exact hb

/-- R116: the error for `c <= 2` comes first and before any draw. -/
theorem isProbablePrime_error {ps : Params} {c : Nat} {o : Oracle} {e : Cause}
    (h : isProbablePrime ps c o = .error e) : c ≤ 2 ∧ e = .invalidInput := by
  unfold isProbablePrime at h
  split at h
  · next hc => simp at h; exact ⟨hc, h.symm⟩
  · split at h <;> simp at h

theorem isProbablePrime_ok {ps : Params} {c : Nat} {o o' : Oracle} {v : Bool}
    (h : isProbablePrime ps c o = .ok (v, o')) : 3 ≤ c ∧ (v = true → c % 2 = 1) := by
  unfold isProbablePrime at h
  split at h
  · simp at h
  · split at h
    · simp at h; exact ⟨by omega, fun hv => by rw [h.1] at hv; simp at hv⟩
    · exact ⟨by omega, fun _ => by omega⟩

/-- The test as key generation runs it faults where its error comes first, or where `rounds` does not fit (R24, R116). -/
theorem heldTest_error {ps : Params} {c : Nat} {o : Oracle} {e : Cause} (h : heldTest ps c o = .error e) :
    e = .invalidInput ∧ c ≤ 2 ∨ e = .capacityExceeded ∧ ps.xbits ≠ none := by
  unfold heldTest at h
  split at h
  · next hr =>
    simp only [Except.error.injEq] at h
    refine .inr ⟨h.symm, fun hx => ?_⟩
    rw [roundsOverflow, fits_of_infinite hx] at hr
    simp at hr
  · exact .inl (isProbablePrime_error h).symm

/-- What the test answers inside key generation is what it answers in PRIME (R116). -/
theorem heldTest_ok {ps : Params} {c : Nat} {o : Oracle} {v : Bool × Oracle} (h : heldTest ps c o = .ok v) :
    isProbablePrime ps c o = .ok v := by
  unfold heldTest at h
  split at h
  · simp at h
  · exact h

/-- Where `rounds` fits, or is not reached, the test inside key generation is that of PRIME. -/
theorem heldTest_eq {ps : Params} {c : Nat} {o : Oracle}
    (h : c ≤ 2 ∨ c % 2 = 0 ∨ ps.fits (roundCount ps.rounds (ndigits c) : Nat) = true) :
    heldTest ps c o = isProbablePrime ps c o := by
  unfold heldTest
  rw [if_neg]
  simp only [roundsOverflow, Bool.and_eq_true, decide_eq_true_eq, Bool.not_eq_true', not_and, Bool.not_eq_false]
  intro ⟨h1, h2⟩
  rcases h with h | h | h
  · omega
  · omega
  · exact h

/-- R126: an accepted sample is a non-negative sample congruent to 3 modulo 4 that the test accepted. -/
theorem judgeSample_accept {ps : Params} {bs : List Byte} {o o' : Oracle} {v : Nat}
    (h : judgeSample ps bs o = (.accept v, o')) :
    v = beToNat bs ∧ negativeSample bs = false ∧ ps.fits v = true ∧ isProbablePrime ps v o = .ok (true, o') ∧
    v % 4 = 3 := by
  unfold judgeSample at h
  split at h
  · simp at h
  · next hneg =>
    split at h
    · next hfit =>
      split at h
      · simp at h
      · simp at h
      · next hp =>
        split at h
        · next hm =>
          simp only [Prod.mk.injEq, Attempt.accept.injEq] at h
          obtain ⟨rfl, rfl⟩ := h
          exact ⟨rfl, by simpa using hneg, hfit, heldTest_ok hp, hm⟩
        · simp at h
    · simp at h

/-- The faults of one pass (R127, R130, R24). -/
theorem keyAttempt_fault {ps : Params} {tries : Nat} {o o' : Oracle} {c : Cause}
    (h : keyAttempt ps tries o = (.fault c, o')) :
    c = .retryExhausted ∧ ps.retryCap = some tries ∨ c = .invalidInput ∨ c = .capacityExceeded ∧ ps.xbits ≠ none := by
  have cap : ∀ {v : Nat}, ¬ ps.fits v = true → ps.xbits ≠ none := fun hv hx => hv (fits_of_infinite hx _)
  unfold keyAttempt at h
  split at h
  · next hc => simp at h; exact .inl ⟨h.1.symm, hc⟩
  · split at h
    · unfold judgeSample at h
      split at h
      · simp at h
      · split at h
        · split at h
          · next hp =>
            simp only [Prod.mk.injEq, Attempt.fault.injEq] at h
            exact .inr ((h.1 ▸ heldTest_error hp).imp And.left id)
          · simp at h
          · split at h <;> simp at h
        · next hv => simp only [Prod.mk.injEq, Attempt.fault.injEq] at h; exact .inr (.inr ⟨h.1.symm, cap hv⟩)
    · next hv => simp only [Prod.mk.injEq, Attempt.fault.injEq] at h; exact .inr (.inr ⟨h.1.symm, cap hv⟩)

theorem keyAttempt_accept {ps : Params} {tries : Nat} {o o' : Oracle} {v : Nat}
    (h : keyAttempt ps tries o = (.accept v, o')) :
    judgeSample ps (o.rngFill Config.keyBytes).1 (o.rngFill Config.keyBytes).2 = (.accept v, o') := by
  unfold keyAttempt at h
  split at h
  · simp at h
  · split at h
    · exact h
    · simp at h

/-- One pass ends the command or leaves it running with one try more. -/
theorem keygenPass_cases (i : Instr) (dst : IntReg) (s : State) :
    (∃ v o, keyAttempt s.env.params s.tries s.env.oracle = (.accept v, o) ∧
      keygenPass i dst s = complete ((s.withOracle o).withRegs (s.regs.set v dst))) ∨
    (∃ o, keyAttempt s.env.params s.tries s.env.oracle = (.again, o) ∧
      keygenPass i dst s = { s.withOracle o with running := some { cmd := i, stall := 0, tries := s.tries + 1 } }) ∨
    (∃ c o, keyAttempt s.env.params s.tries s.env.oracle = (.fault c, o) ∧
      keygenPass i dst s = raise i { cause := c, info := 0 } (s.withOracle o)) := by
  unfold keygenPass
  split
  · next v o h => exact .inl ⟨v, o, h, rfl⟩
  · next o h => exact .inr (.inl ⟨o, h, rfl⟩)
  · next c o h => exact .inr (.inr ⟨c, o, h, rfl⟩)

/-- The test of an odd candidate from 3 on is its rounds (R116). -/
theorem isProbablePrime_odd {ps : Params} {c : Nat} {o : Oracle} (h3 : 3 ≤ c) (ho : c % 2 = 1) :
    isProbablePrime ps c o =
      .ok (rounds c (decomp c).1 (decomp c).2 (roundCount ps.rounds (ndigits c)) o) := by
  unfold isProbablePrime; rw [if_neg (by omega), if_neg (by omega)]

/-- The inner loop of a round passes exactly where a square, a power of `x` with exponent `2^r`, is `c - 1` (R112). -/
theorem squarings_pass {c : Nat} (hc : 3 ≤ c) : ∀ k x, x % c ≠ 1 → x % c ≠ c - 1 →
    (squarings c k (x % c) = .pass ↔ ∃ r, 1 ≤ r ∧ r ≤ k ∧ x ^ 2 ^ r % c = c - 1) := by
  intro k
  induction k with
  | zero => intro x h1 h2; simp only [squarings, reduceCtorEq, false_iff]; rintro ⟨r, h3, h4, -⟩; omega
  | succ k ih =>
    intro x h1 h2
    have hsq : modexp (x % c) 2 c = x ^ 2 % c := by
      rw [modexp_eq _ _ _ (by omega)]; exact (Nat.mod_modEq x c).pow 2
    rw [squarings, hsq]
    split
    · next h =>
      simp only [reduceCtorEq, false_iff]
      rintro ⟨r, hr1, hrk, hr⟩
      obtain ⟨j, rfl⟩ : ∃ j, r = j + 1 := ⟨r - 1, by omega⟩
      have hone : x ^ 2 ≡ 1 [MOD c] := by rw [Nat.ModEq, h, Nat.mod_eq_of_lt (by omega)]
      have : x ^ 2 ^ (j + 1) ≡ 1 [MOD c] := by
        rw [pow_succ, mul_comm, pow_mul]; simpa using hone.pow (2 ^ j)
      rw [Nat.ModEq, hr, Nat.mod_eq_of_lt (by omega)] at this
      omega
    · next h =>
      split
      · next h' => simp only [true_iff]; exact ⟨1, le_rfl, by omega, by simpa using h'⟩
      · next h' =>
        rw [ih (x ^ 2) h h']
        constructor
        · rintro ⟨r, h1, h2, h3⟩
          exact ⟨r + 1, by omega, by omega, by rw [pow_succ, mul_comm, pow_mul]; exact h3⟩
        · rintro ⟨r, h1, h2, h3⟩
          obtain ⟨j, rfl⟩ : ∃ j, r = j + 1 := ⟨r - 1, by omega⟩
          rw [pow_succ, mul_comm, pow_mul] at h3
          rcases Nat.eq_zero_or_pos j with rfl | hj
          · simp only [pow_zero, pow_one] at h3; exact absurd h3 h'
          · exact ⟨j, hj, by omega, h3⟩

/-- A positive number is a power of two times an odd number in one way only (R111). -/
theorem odd_part_unique {s t s' t' : Nat} (e : 2 ^ s * t = 2 ^ s' * t') (o1 : t % 2 = 1) (o2 : t' % 2 = 1) :
    s = s' ∧ t = t' := by
  have key : ∀ {s s' t t' : Nat}, 2 ^ s * t = 2 ^ s' * t' → t % 2 = 1 → s' ≤ s := by
    intro s s' t t' e o1
    by_contra hlt
    obtain ⟨d, rfl⟩ : ∃ d, s' = s + (d + 1) := ⟨s' - s - 1, by omega⟩
    rw [pow_add, mul_assoc] at e
    have := Nat.eq_of_mul_eq_mul_left (by positivity) e
    rw [pow_succ, mul_assoc, mul_left_comm] at this
    omega
  have hs : s = s' := le_antisymm (key e.symm o2) (key e o1)
  subst hs
  exact ⟨rfl, Nat.eq_of_mul_eq_mul_left (by positivity) e⟩

/-- R54: a sample of 64 bytes is negative exactly when its big-endian value is at least `2 ^ 511`. -/
theorem negativeSample_iff (bs : List Byte) (h : bs.length = 64) :
    negativeSample bs = true ↔ 2 ^ 511 ≤ beToNat bs := by
  cases bs with
  | nil => simp at h
  | cons b bs =>
    have hl : bs.length = 63 := by simpa using h
    have hlt := beToNat_lt bs
    have e : (2 : Nat) ^ 511 = 128 * 256 ^ 63 := by decide +kernel
    rw [negativeSample, beToNat_cons, decide_eq_true_eq, e]
    rw [hl] at hlt ⊢
    generalize 256 ^ 63 = base at *
    constructor
    · intro hb
      have := Nat.mul_le_mul_right base hb
      omega
    · intro hb
      by_contra hlt'
      have := Nat.mul_le_mul_right base (show b.toNat ≤ 127 by omega)
      omega

/-- An attempt whose sample is scripted and that neither the cap nor the capacity ends judges that sample (R120). -/
theorem keyAttempt_scripted {ps : Params} {tries : Nat} {o : Oracle} {bs rest : List Byte} (ho : o.bytes = bs ++ rest)
    (hl : bs.length = 64) (hc : ps.retryCap ≠ some tries) (hf : ps.fits (tries + 1 : Nat) = true) :
    keyAttempt ps tries o = judgeSample ps bs { o with bytes := rest } := by
  have := rngFill_scripted bs rest o ho
  rw [hl] at this
  simp only [keyAttempt, hc, if_false, hf, if_true, keyBytes_eq, this]

end Sys2Proof.Machine
end

