-- ==== Sys2Proof/Laws/Step.lean ====
section
/-! SUPPORT. What a step can do (R18, R19), what a host move can do (R62, R63, R84), and what a command can do to the
state: each said once, so that a statement about runs splits into these cases. -/

namespace Sys2Proof.Machine

/-- The sequencer's turn: nothing runs, a command runs on, or a command takes its effect. -/
theorem sequencerTurn_cases (s : State) :
    (s.running = none ∧ sequencerTurn s = .next s) ∨
    (∃ i k t, s.running = some { cmd := i, stall := k + 1, tries := t } ∧
      sequencerTurn s = .next { s with running := some { cmd := i, stall := k, tries := t } }) ∨
    (∃ i t, s.running = some { cmd := i, stall := 0, tries := t } ∧ sequencerTurn s = exec i s) := by
  unfold sequencerTurn
  split
  · next h => exact .inl ⟨h, rfl⟩
  · next i t h => exact .inr (.inr ⟨i, t, h, rfl⟩)
  · next i k t h => exact .inr (.inl ⟨i, k, t, h, rfl⟩)

/-- The issue of a command (R84): its five outcomes, in the order they are decided. -/
theorem issue_cases (w : Byte) (stall : Nat) (s : State) :
    (s.busy = true ∧ issue w stall s = s.reply .ignored) ∨
    (s.busy = false ∧ s.flags.fault = true ∧ w ≠ 0xFF ∧ issue w stall s = s.reply .ignored) ∨
    (s.busy = false ∧ s.flags.fault = true ∧ w = 0xFF ∧ issue w stall s = resetMove s) ∨
    (∃ i, s.Ready ∧ decode w = .command i ∧ issue w stall s = accept i stall s) ∨
    (s.Ready ∧ decode w = .reserved w ∧
      issue w stall s = (enterFault { cause := .illegalCommand, info := 0 } s).reply .accepted) := by
  have hres : ∀ v, decode w = .reserved v → v = w := by
    intro v h
    unfold decode at h
    split at h
    · simp at h
    · simpa using h.symm
  unfold issue
  by_cases hb : s.busy
  · exact .inl ⟨hb, by simp [hb]⟩
  · have hb' : s.busy = false := by simpa using hb
    by_cases hf : s.flags.fault
    · by_cases hw : w = 0xFF
      · exact .inr (.inr (.inl ⟨hb', hf, hw, by simp [hb', hf, hw]⟩))
      · exact .inr (.inl ⟨hb', hf, hw, by simp only [hb', hf, hw, if_true, if_false]; simp⟩)
    · have hf' : s.flags.fault = false := by simpa using hf
      cases hd : decode w with
      | command i => exact .inr (.inr (.inr (.inl ⟨i, ⟨hb', hf'⟩, rfl, by simp [hb', hf']⟩)))
      | reserved v => exact .inr (.inr (.inr (.inr ⟨⟨hb', hf'⟩, by rw [hres v hd], by simp [hb', hf']⟩)))

/-- A host move (R62, R63): it changes nothing but the environment, or it is one of the moves that act on the block. -/
theorem hostMove_cases (move : HostMove) (s : State) :
    (∃ e, hostMove move s = { s with env := e } ∧ e.params = s.env.params ∧ e.oracle = s.env.oracle ∧
      e.free = s.env.free) ∨
    (∃ reg v, s.busy = false ∧ s.env.params.fits (v : Nat) = true ∧
      hostMove move s = (s.withRegs (s.regs.set v reg)).reply .accepted) ∨
    (∃ bs, s.busy = false ∧ hostMove move s = loadInMove bs s) ∨
    (∃ ls : List Nat, s.busy = false ∧ (∀ v ∈ ls, s.env.params.entryFits v = true) ∧
      hostMove move s = ({ s with streams := { s.streams with ledger := ls, lpos := 0 } }.reply .accepted : State)) ∨
    (∃ i k, s.Ready ∧ hostMove move s = accept i k s) ∨
    (s.Ready ∧ hostMove move s = (enterFault { cause := .illegalCommand, info := 0 } s).reply .accepted) ∨
    ((move = .hardReset ∨ (∃ k, move = .cmd 0xFF k ∧ s.flags.fault = true ∧ s.busy = false)) ∧
      hostMove move s = resetMove s) := by
  have keep : ∀ w, ∃ e, s.reply w = { s with env := e } ∧ e.params = s.env.params ∧ e.oracle = s.env.oracle ∧
      e.free = s.env.free := fun w => ⟨_, rfl, rfl, rfl, rfl⟩
  cases move with
  | wr number bs =>
    simp only [hostMove, State.whenIdle]
    by_cases hb : s.busy
    · rw [if_pos hb]; exact .inl (keep _)
    · rw [if_neg hb]
      unfold writeMove
      split
      · next reg hreg =>
        split
        · next hc =>
          simp only [Bool.and_eq_true] at hc
          exact .inr (.inl ⟨reg, beToNat bs, by simpa using hb, hc.2, rfl⟩)
        · exact .inl (keep _)
      · exact .inl (keep _)
      · exact .inl (keep _)
  | rd number =>
    simp only [hostMove, readMove]
    split
    · split <;> exact .inl (keep _)
    · exact .inl (keep _)
  | loadIn bs =>
    simp only [hostMove, State.whenIdle]
    by_cases hb : s.busy
    · rw [if_pos hb]; exact .inl (keep _)
    · rw [if_neg hb]; exact .inr (.inr (.inl ⟨bs, by simpa using hb, rfl⟩))
  | loadLedger ls =>
    simp only [hostMove, State.whenIdle]
    by_cases hb : s.busy
    · rw [if_pos hb]; exact .inl (keep _)
    · rw [if_neg hb]
      unfold loadLedgerMove
      split
      · next hall =>
        exact .inr (.inr (.inr (.inl ⟨ls, by simpa using hb, by simpa using hall, rfl⟩)))
      · exact .inl (keep _)
  | cmd w k =>
    simp only [hostMove]
    rcases issue_cases w k s with ⟨-, h⟩ | ⟨-, -, -, h⟩ | ⟨hb, hf, rfl, h⟩ | ⟨i, hr, -, h⟩ | ⟨hr, -, h⟩
    · rw [h]; exact .inl (keep _)
    · rw [h]; exact .inl (keep _)
    · exact .inr (.inr (.inr (.inr (.inr (.inr ⟨.inr ⟨k, rfl, hf, hb⟩, h⟩)))))
    · exact .inr (.inr (.inr (.inr (.inl ⟨i, k, hr, h⟩))))
    · exact .inr (.inr (.inr (.inr (.inr (.inl ⟨hr, h⟩)))))
  | hardReset => exact .inr (.inr (.inr (.inr (.inr (.inr ⟨.inl rfl, rfl⟩)))))
  | await =>
    simp only [hostMove, awaitMove]
    split
    · exact .inl ⟨_, rfl, rfl, rfl, rfl⟩
    · exact .inl ⟨s.env, rfl, rfl, rfl, rfl⟩

/-- The host's turn: it is silent, or it makes the next move of its script. -/
theorem hostTurn_cases (s : State) :
    (s.env.script = [] ∧ hostTurn s = s) ∨
    (∃ move rest, s.env.script = move :: rest ∧ hostTurn s = hostMove move (s.withScript rest)) := by
  unfold hostTurn
  split
  · next h => exact .inl ⟨h, rfl⟩
  · next move rest h => exact .inr ⟨move, rest, h, rfl⟩

end Sys2Proof.Machine
end

