-- ==== Sys2Proof/Laws/Commands.lean ====
section
/-! SUPPORT. What a command can do, said once (R84): it enters one of the faults the table of rule R212 lists for it, resets
the block, makes one more pass of key generation, or completes having written its destinations only. -/

namespace Sys2Proof.Machine

/-- The faults each command can raise (R212, the table). -/
def causesOf : Instr → List Cause
  | .nop     => []
  | .prime   => [.invalidInput]
  | .modexp  => [.modulusZero, .capacityExceeded]
  | .egcd    => [.arithmeticPrecondition, .capacityExceeded]
  | .genmod  => [.capacityExceeded]
  | .keygenp => [.invalidInput, .capacityExceeded, .retryExhausted]
  | .keygenq => [.invalidInput, .capacityExceeded, .retryExhausted]
  | .tag     => [.capacityExceeded]
  | .untag   => []
  | .crt     => [.arithmeticPrecondition, .modulusZero, .capacityExceeded]
  | .select  => [.ambiguousOrCorruptCiphertext]
  | .enc     => [.modulusZero, .capacityExceeded]
  | .dec     => [.arithmeticPrecondition, .ambiguousOrCorruptCiphertext, .modulusZero, .truncatedCiphertext,
                 .capacityExceeded]
  | .srst    => []

/-- A cause a command may raise under the parameters: `CapacityExceeded` under a finite capacity only, `RetryExhausted`
under a finite cap only (R212). -/
structure MayRaise (ps : Params) (i : Instr) (c : Cause) : Prop where
  listed   : c ∈ causesOf i
  capacity : c = .capacityExceeded → ps.xbits ≠ none ∨ ps.ledgerEntryBits ≠ none
  cap      : c = .retryExhausted → ps.retryCap ≠ none

/-- What completion without fault changes of the state: the destinations, within the capacity and the buffers (R24, R27,
R83). -/
structure Written (i : Instr) (s t : State) : Prop where
  regs    : ∀ reg, .reg reg ∉ destinations i → t.regs.get reg = s.regs.get reg
  inp     : t.streams.inp = s.streams.inp
  out     : .out ∉ destinations i → t.streams.out = s.streams.out
  ledger  : .ledger ∉ destinations i → t.streams.ledger = s.streams.ledger
  ipos    : .ipos ∉ destinations i → t.streams.ipos = s.streams.ipos
  lpos    : .lpos ∉ destinations i → t.streams.lpos = s.streams.lpos
  blkcnt  : .blkcnt ∉ destinations i → t.blkcnt = s.blkcnt
  fault   : t.flags.fault = s.flags.fault
  result  : i ≠ .prime → t.flags.result = s.flags.result
  codes   : t.fcode = s.fcode ∧ t.finfo = s.finfo
  ended   : t.running = none ∧ t.flags.done = true
  outside : ∃ o, t.env = { s.env with oracle := o } ∧ (i ≠ .prime → i ≠ .keygenp → i ≠ .keygenq → o = s.env.oracle) ∧
    (i = .prime → o.bytes = s.env.oracle.bytes ∧ o.byteDraws = s.env.oracle.byteDraws)
  wf      : s.streams.wf = true → t.streams.wf = true
  fits    : (∀ reg, s.env.params.fits (s.regs.get reg) = true) → ∀ reg, s.env.params.fits (t.regs.get reg) = true
  entries : (∀ v ∈ s.streams.ledger, s.env.params.entryFits v = true) →
    ∀ v ∈ t.streams.ledger, s.env.params.entryFits v = true
  natural : ∀ reg, reg ≠ .x → reg ≠ .y → 0 ≤ s.regs.get reg → 0 ≤ t.regs.get reg

theorem hold_mayRaise {ps : Params} {v : Nat} {c : Cause} (h : hold ps v = .error c) : c = .capacityExceeded ∧ ps.xbits ≠ none := by
  obtain ⟨h1, h2⟩ := hold_error h
  exact ⟨h1, fun hx => by rw [fits_of_infinite hx] at h2; simp at h2⟩

theorem extendedGcd_mayRaise {ps : Params} {a b : Nat} {c : Cause} (h : extendedGcd ps a b = .error c) :
    c = .arithmeticPrecondition ∨ c = .capacityExceeded ∧ ps.xbits ≠ none := by
  rcases extendedGcd_error h with rfl | rfl
  · refine .inr ⟨rfl, fun hx => ?_⟩
    rcases extendedGcd_infinite hx a b with ⟨-, -, -, xy, h'⟩ | ⟨-, h'⟩ <;> rw [h] at h' <;> simp at h'
  · exact .inl rfl

theorem crtRoots_mayRaise {ps : Params} {x p q : Nat} {c : Cause} (h : crtRoots ps x p q = .error c) :
    c = .arithmeticPrecondition ∨ c = .modulusZero ∨ c = .capacityExceeded ∧ ps.xbits ≠ none := by
  simp only [crtRoots, bind, Except.bind, throw, throwThe, MonadExceptOf.throw, pure, Except.pure] at h
  have cap : ∀ {v : Nat} {e : Cause}, hold ps v = .error e → (Except.error e : Calc Roots) = .error c → c = .arithmeticPrecondition ∨ c = .modulusZero ∨ c = .capacityExceeded ∧ ps.xbits ≠ none := by
    intro v e h1 h2
    simp only [Except.error.injEq] at h2
    exact .inr (.inr (h2 ▸ hold_mayRaise h1))
  split at h
  · next h1 => exact cap h1 h
  split at h
  · simp only [Except.error.injEq] at h; exact .inr (.inl h.symm)
  split at h
  · next h1 => exact cap h1 h
  split at h
  · simp only [Except.error.injEq] at h; exact .inr (.inl h.symm)
  split at h
  · next h1 => exact cap h1 h
  split at h
  · next h1 =>
    simp only [Except.error.injEq] at h
    rcases extendedGcd_mayRaise (h ▸ h1) with h | h
    · exact .inl h
    · exact .inr (.inr h)
  split at h
  · next h1 => exact cap h1 h
  split at h
  · next h1 => exact cap h1 h
  split at h
  · next h1 => exact cap h1 h
  split at h
  · next h1 => exact cap h1 h
  simp at h

theorem nextBlk_mayRaise {ps : Params} {blk : Nat} {t : Trap} (h : nextBlk ps blk = .error t) : t.cause = .capacityExceeded ∧ ps.xbits ≠ none :=
  hold_mayRaise (atBlock_error.mp h).1

theorem encBlock_mayRaise {ps : Params} {n : Nat} {ch : List Byte} {st : Streams} {c : Cause} (h : encBlock ps n ch st = .error c) :
    c = .modulusZero ∨ c = .capacityExceeded ∧ (ps.xbits ≠ none ∨ ps.ledgerEntryBits ≠ none) := by
  unfold encBlock at h
  split at h
  · next h1 => simp only [Except.error.injEq] at h; subst h; exact .inr ((hold_mayRaise h1).imp id .inl)
  split at h
  · simp only [Except.error.injEq] at h; exact .inl h.symm
  split at h
  · next hb =>
    simp only [Except.error.injEq] at h; subst h
    simp only [encryptBlock, bind, Except.bind, pure, Except.pure] at hb
    split at hb
    · next h1 => simp only [Except.error.injEq] at hb; exact .inr (hb ▸ (hold_mayRaise h1).imp id .inl)
    split at hb
    · next h1 => simp only [Except.error.injEq] at hb; exact .inr (hb ▸ (hold_mayRaise h1).imp id .inl)
    simp at hb
  split at h
  · simp at h
  · next hf =>
    simp only [Except.error.injEq] at h
    exact .inr ⟨h.symm, .inr fun hl => hf (entryFits_of_infinite hl _)⟩

theorem encryptLoop_mayRaise {ps : Params} {n : Nat} : ∀ k st blk t, encryptLoop ps n k st blk = .error t →
    t.cause = .modulusZero ∨ t.cause = .capacityExceeded ∧ (ps.xbits ≠ none ∨ ps.ledgerEntryBits ≠ none) := by
  intro k
  induction k with
  | zero => intro st blk t h; simp [encryptLoop] at h
  | succ k ih =>
    intro st blk t h
    rw [encryptLoop] at h
    split at h
    · simp at h
    split at h
    · next h1 => simp only [Except.error.injEq] at h; subst h; exact encBlock_mayRaise (atBlock_error.mp h1).1
    split at h
    · next h1 => simp only [Except.error.injEq] at h; subst h; exact .inr ((nextBlk_mayRaise h1).imp id .inl)
    · exact ih _ _ _ h

theorem decBlock_mayRaise {ps : Params} {p q len : Nat} {cb : List Byte} {c : Cause} (h : decBlock ps p q len cb = .error c) :
    c ∈ causesOf .dec ∧ (c = .capacityExceeded → ps.xbits ≠ none) := by
  unfold decBlock at h
  split at h
  · simp only [Except.error.injEq] at h; subst h; simp [causesOf]
  split at h
  · next h1 => simp only [Except.error.injEq] at h; subst h; obtain ⟨rfl, h2⟩ := hold_mayRaise h1; exact ⟨by simp [causesOf], fun _ => h2⟩
  split at h
  · next h1 =>
    simp only [Except.error.injEq] at h; subst h
    unfold decryptBlock at h1
    split at h1
    · next h2 =>
      simp only [Except.error.injEq] at h1; subst h1
      rcases crtRoots_mayRaise h2 with rfl | rfl | ⟨rfl, hx⟩
      · simp [causesOf]
      · simp [causesOf]
      · exact ⟨by simp [causesOf], fun _ => hx⟩
    split at h1
    · next h2 => simp only [Except.error.injEq] at h1; subst h1; rw [selectRoot_error h2]; simp [causesOf]
    · simp at h1
  · simp at h

theorem decryptLoop_mayRaise {ps : Params} {p q : Nat} : ∀ k st blk t, decryptLoop ps p q k st blk = .error t →
    t.cause ∈ causesOf .dec ∧ (t.cause = .capacityExceeded → ps.xbits ≠ none) := by
  have cap : ∀ {t : Trap}, t.cause = .capacityExceeded ∧ ps.xbits ≠ none → t.cause ∈ causesOf .dec ∧ (t.cause = .capacityExceeded → ps.xbits ≠ none) := by
    rintro t ⟨h1, h2⟩; exact ⟨by simp [h1, causesOf], fun _ => h2⟩
  intro k
  induction k with
  | zero => intro st blk t h; simp [decryptLoop] at h
  | succ k ih =>
    intro st blk t h
    rw [decryptLoop] at h
    split at h
    · simp at h
    split at h
    · next h1 => simp only [Except.error.injEq] at h; subst h; exact cap (hold_mayRaise (atBlock_error.mp h1).1)
    split at h
    · simp at h
    split at h
    · next h1 => simp only [Except.error.injEq] at h; subst h; exact decBlock_mayRaise (atBlock_error.mp h1).1
    split at h
    · next h1 => simp only [Except.error.injEq] at h; subst h; exact cap (nextBlk_mayRaise h1)
    · exact ih _ _ _ h

theorem encCalc_mayRaise {ps : Params} {p q : Nat} {st : Streams} {t : Trap} (h : encCalc ps p q st = .error t) : MayRaise ps .enc t.cause := by
  have : t.cause = .modulusZero ∨ t.cause = .capacityExceeded ∧ (ps.xbits ≠ none ∨ ps.ledgerEntryBits ≠ none) := by
    unfold encCalc at h
    split at h
    · next h1 => simp only [Except.error.injEq] at h; subst h; exact .inr ((hold_mayRaise (atBlock_error.mp h1).1).imp id .inl)
    split at h
    · next h1 => simp only [Except.error.injEq] at h; subst h; exact encryptLoop_mayRaise _ _ _ _ h1
    · simp at h
  rcases this with h | ⟨h, hx⟩ <;> rw [h]
  · exact ⟨by simp [causesOf], by simp, by simp⟩
  · exact ⟨by simp [causesOf], fun _ => hx, by simp⟩

theorem decCalc_mayRaise {ps : Params} {p q : Nat} {st : Streams} {t : Trap} (h : decCalc ps p q st = .error t) : MayRaise ps .dec t.cause := by
  have : t.cause ∈ causesOf .dec ∧ (t.cause = .capacityExceeded → ps.xbits ≠ none) := by
    unfold decCalc at h
    split at h
    · next h1 => simp only [Except.error.injEq] at h; subst h; obtain ⟨e, hx⟩ := hold_mayRaise (atBlock_error.mp h1).1; exact ⟨by simp [e, causesOf], fun _ => hx⟩
    split at h
    · next h1 => simp only [Except.error.injEq] at h; subst h; exact decryptLoop_mayRaise _ _ _ _ h1
    · simp at h
  refine ⟨this.1, fun h => .inl (this.2 h), fun h => ?_⟩
  rw [h] at this; simp [causesOf] at this

/-- The four ways a command's turn can go (R84, R120, R192). -/
def CommandEnds (i : Instr) (s t : State) : Prop :=
  (∃ trap o, t = raise i trap (s.withOracle o) ∧ MayRaise s.env.params i trap.cause ∧
    (i ≠ .keygenp → i ≠ .keygenq → o = s.env.oracle) ∧ (i ≠ .enc → i ≠ .dec → trap.info = 0)) ∨
  (i = .srst ∧ t = State.resetIn s.env) ∨
  (∃ o, (i = .keygenp ∨ i = .keygenq) ∧
    t = { s.withOracle o with running := some { cmd := i, stall := 0, tries := s.tries + 1 } }) ∨
  (i ≠ .srst ∧ Written i s t)

/-- A command that ends in one turn: what its faults and its writes are settles what it does. -/
theorem settle_ends {α : Type} {i : Instr} {result : Except Trap α} {write : α → State → State} {s : State}
    (hs : i ≠ .srst)
    (herr : ∀ trap, result = .error trap → MayRaise s.env.params i trap.cause ∧ (i ≠ .enc → i ≠ .dec → trap.info = 0))
    (hok : ∀ v, result = .ok v → Written i s (complete (write v s))) :
    CommandEnds i s (settle i result write s) := by
  cases result with
  | ok v => exact .inr (.inr (.inr ⟨hs, hok v rfl⟩))
  | error trap => exact .inl ⟨trap, s.env.oracle, rfl, (herr trap rfl).1, fun _ _ => rfl, (herr trap rfl).2⟩

/-- The faults of a calculation that is no loop carry the information 0 (R200). -/
theorem atBlock_zero {α : Type} {ps : Params} {i : Instr} {result : Calc α} (h : ∀ c, result = .error c → MayRaise ps i c) :
    ∀ trap, atBlock 0 result = .error trap → MayRaise ps i trap.cause ∧ (i ≠ .enc → i ≠ .dec → trap.info = 0) :=
  fun _ ht => ⟨h _ (atBlock_error.mp ht).1, fun _ _ => (atBlock_error.mp ht).2⟩

/-- Completion that has written integer registers only. -/
theorem written_regs {i : Instr} {s : State} {g : Regs} (hr : ∀ reg, .reg reg ∉ destinations i → g.get reg = s.regs.get reg)
    (hf : (∀ reg, s.env.params.fits (s.regs.get reg) = true) →
      ∀ reg, .reg reg ∈ destinations i → s.env.params.fits (g.get reg) = true)
    (hn : ∀ reg, .reg reg ∈ destinations i → reg ≠ .x → reg ≠ .y → 0 ≤ s.regs.get reg → 0 ≤ g.get reg) :
    Written i s (complete (s.withRegs g)) where
  regs := hr
  inp := rfl
  out _ := rfl
  ledger _ := rfl
  ipos _ := rfl
  lpos _ := rfl
  blkcnt _ := rfl
  fault := rfl
  result _ := rfl
  codes := ⟨rfl, rfl⟩
  ended := ⟨rfl, rfl⟩
  outside := ⟨_, rfl, fun _ _ _ => rfl, fun _ => ⟨rfl, rfl⟩⟩
  wf := id
  fits hall reg := by
    by_cases hreg : .reg reg ∈ destinations i
    · exact hf hall reg hreg
    · rw [complete_regs, withRegs_regs, hr reg hreg]; exact hall reg
  entries := id
  natural reg hx hy h := by
    by_cases hreg : .reg reg ∈ destinations i
    · exact hn reg hreg hx hy h
    · rw [complete_regs, withRegs_regs, hr reg hreg]; exact h

theorem hold_ends {ps : Params} {i : Instr} (hm : .capacityExceeded ∈ causesOf i) {v : Nat} {c : Cause}
    (h : hold ps v = .error c) : MayRaise ps i c := by
  obtain ⟨rfl, hx⟩ := hold_mayRaise h
  exact ⟨hm, fun _ => .inl hx, by simp⟩

theorem ends_modexp (s : State) : CommandEnds .modexp s (settle .modexp
    (atBlock 0 (modexpCalc s.env.params s.regs.a s.regs.b s.regs.m)) (fun v s => s.withRegs { s.regs with r := v }) s) := by
  refine settle_ends (by simp) (atBlock_zero fun c h => ?_) fun v h => written_regs ?_ ?_ ?_
  · unfold modexpCalc at h
    split at h
    · simp only [Except.error.injEq] at h; subst h; exact ⟨by simp [causesOf], by simp, by simp⟩
    · exact hold_ends (by simp [causesOf]) h
  · intro reg hreg; cases reg <;> first | rfl | simp [destinations] at hreg
  · intro hall reg hreg
    rw [atBlock_ok] at h
    unfold modexpCalc at h
    split at h
    · simp at h
    · obtain ⟨rfl, hf⟩ := hold_ok h
      cases reg <;> first | exact hf | simp [destinations] at hreg
  · intro reg hreg hx hy _
    cases reg <;> first | exact Int.natCast_nonneg _ | exact absurd rfl hx | exact absurd rfl hy | simp [destinations] at hreg

theorem ends_tag (s : State) : CommandEnds .tag s (settle .tag (atBlock 0 (hold s.env.params (tagOf s.regs.a)))
    (fun v s => s.withRegs { s.regs with r := v }) s) := by
  refine settle_ends (by simp) (atBlock_zero fun c h => hold_ends (by simp [causesOf]) h) fun v h => written_regs ?_ ?_ ?_
  · intro reg hreg; cases reg <;> first | rfl | simp [destinations] at hreg
  · intro hall reg hreg
    obtain ⟨rfl, hf⟩ := hold_ok (atBlock_ok.mp h)
    cases reg <;> first | exact hf | simp [destinations] at hreg
  · intro reg hreg hx hy _
    cases reg <;> first | exact Int.natCast_nonneg _ | exact absurd rfl hx | exact absurd rfl hy | simp [destinations] at hreg

theorem ends_genmod (s : State) : CommandEnds .genmod s (settle .genmod
    (atBlock 0 (hold s.env.params (s.regs.p.toNat * s.regs.q.toNat))) (fun n s => s.withRegs { s.regs with n := n }) s) := by
  refine settle_ends (by simp) (atBlock_zero fun c h => hold_ends (by simp [causesOf]) h) fun v h => written_regs ?_ ?_ ?_
  · intro reg hreg; cases reg <;> first | rfl | simp [destinations] at hreg
  · intro hall reg hreg
    obtain ⟨rfl, hf⟩ := hold_ok (atBlock_ok.mp h)
    cases reg <;> first | exact hf | simp [destinations] at hreg
  · intro reg hreg hx hy _
    cases reg <;> first | exact Int.natCast_nonneg _ | exact absurd rfl hx | exact absurd rfl hy | simp [destinations] at hreg

theorem ends_untag (s : State) : CommandEnds .untag s (complete (s.withRegs { s.regs with r := untagOf s.regs.a })) := by
  refine .inr (.inr (.inr ⟨by simp, written_regs ?_ ?_ ?_⟩))
  · intro reg hreg; cases reg <;> first | rfl | simp [destinations] at hreg
  · intro hall reg hreg
    have hf : s.env.params.fits (untagOf s.regs.a : Nat) = true := by
      refine fits_mono (hall .a) ?_
      simp only [Regs.get, Int.natAbs_natCast]
      exact Nat.div_le_self _ _
    cases reg <;> first | exact hf | simp [destinations] at hreg
  · intro reg hreg hx hy _
    cases reg <;> first | exact Int.natCast_nonneg _ | exact absurd rfl hx | exact absurd rfl hy | simp [destinations] at hreg

theorem ends_egcd (s : State) : CommandEnds .egcd s (settle .egcd
    (atBlock 0 (extendedGcd s.env.params s.regs.a s.regs.b))
    (fun xy s => s.withRegs { s.regs with x := xy.1, y := xy.2 }) s) := by
  refine settle_ends (by simp) (atBlock_zero fun c h => ?_) fun v h => written_regs ?_ ?_ ?_
  · rcases extendedGcd_mayRaise h with rfl | ⟨rfl, hx⟩
    · exact ⟨by simp [causesOf], by simp, by simp⟩
    · exact ⟨by simp [causesOf], fun _ => .inl hx, by simp⟩
  · intro reg hreg; cases reg <;> first | rfl | simp [destinations] at hreg
  · intro hall reg hreg
    obtain ⟨-, -, -, -, -, h1, h2⟩ := extendedGcd_ok (x := v.1) (y := v.2) (atBlock_ok.mp h)
    cases reg <;> first | exact h1 | exact h2 | simp [destinations] at hreg
  · intro reg hreg hx hy _
    cases reg <;> first | exact Int.natCast_nonneg _ | exact absurd rfl hx | exact absurd rfl hy | simp [destinations] at hreg

theorem ends_crt (s : State) : CommandEnds .crt s (settle .crt
    (atBlock 0 (crtRoots s.env.params s.regs.a s.regs.p.toNat s.regs.q.toNat))
    (fun v s => s.withRegs { s.regs with
      n := v.n, mp := v.mp, mq := v.mq, x := v.yp, y := v.yq, m1 := v.m1, m2 := v.m2, m3 := v.m3, m4 := v.m4 }) s) := by
  refine settle_ends (by simp) (atBlock_zero fun c h => ?_) fun v h => written_regs ?_ ?_ ?_
  · rcases crtRoots_mayRaise h with rfl | rfl | ⟨rfl, hx⟩
    · exact ⟨by simp [causesOf], by simp, by simp⟩
    · exact ⟨by simp [causesOf], by simp, by simp⟩
    · exact ⟨by simp [causesOf], fun _ => .inl hx, by simp⟩
  · intro reg hreg; cases reg <;> first | rfl | simp [destinations] at hreg
  · intro hall reg hreg
    obtain ⟨-, -, he, -, f1, f2, f3, f4, f5, f6, f7⟩ := crtRoots_ok (atBlock_ok.mp h)
    obtain ⟨-, -, -, -, -, fx, fy⟩ := extendedGcd_ok he
    cases reg <;> first
      | exact f1 | exact f2 | exact f3 | exact f4 | exact f5 | exact f6 | exact f7 | exact fx | exact fy | simp [destinations] at hreg
  · intro reg hreg hx hy _
    cases reg <;> first | exact Int.natCast_nonneg _ | exact absurd rfl hx | exact absurd rfl hy | simp [destinations] at hreg

theorem ends_select (s : State) : CommandEnds .select s (settle .select
    (atBlock 0 (selectRoot s.regs.m1.toNat s.regs.m2.toNat s.regs.m3.toNat s.regs.m4.toNat))
    (fun sel s => s.withRegs { s.regs with sel := sel, r := untagOf sel }) s) := by
  refine settle_ends (by simp) (atBlock_zero fun c h => ?_) fun v h => written_regs ?_ ?_ ?_
  · rw [selectRoot_error h]; exact ⟨by simp [causesOf], by simp, by simp⟩
  · intro reg hreg; cases reg <;> first | rfl | simp [destinations] at hreg
  · intro hall reg hreg
    have hs : s.env.params.fits (v : Nat) = true := by
      have hm := (selectRoot_mem (atBlock_ok.mp h)).1
      simp only [List.mem_cons, List.not_mem_nil, or_false] at hm
      rcases hm with rfl | rfl | rfl | rfl
      exacts [fits_toNat (hall .m1), fits_toNat (hall .m2), fits_toNat (hall .m3), fits_toNat (hall .m4)]
    have hr : s.env.params.fits (untagOf v : Nat) = true :=
      fits_mono hs (by simp only [Int.natAbs_natCast]; exact Nat.div_le_self _ _)
    cases reg <;> first | exact hs | exact hr | simp [destinations] at hreg
  · intro reg hreg hx hy _
    cases reg <;> first | exact Int.natCast_nonneg _ | exact absurd rfl hx | exact absurd rfl hy | simp [destinations] at hreg

theorem ends_prime (s : State) : CommandEnds .prime s (settle .prime
    (atBlock 0 (isProbablePrime s.env.params s.regs.a s.env.oracle))
    (fun v s => { s.withOracle v.2 with flags := s.flags.withResult v.1 }) s) := by
  refine settle_ends (by simp) (atBlock_zero fun c h => ?_) fun v h => ?_
  · obtain ⟨-, rfl⟩ := isProbablePrime_error h; exact ⟨by simp [causesOf], by simp, by simp⟩
  · have hb : v.2.bytes = s.env.oracle.bytes ∧ v.2.byteDraws = s.env.oracle.byteDraws := by
      rw [atBlock_ok] at h
      unfold isProbablePrime at h
      split at h
      · simp at h
      · split at h
        · simp only [Except.ok.injEq] at h; subst h; exact ⟨rfl, rfl⟩
        · simp only [Except.ok.injEq] at h; subst h; exact rounds_bytes _ _
    exact { regs := fun _ _ => rfl, inp := rfl, out := fun _ => rfl, ledger := fun _ => rfl, ipos := fun _ => rfl,
            lpos := fun _ => rfl, blkcnt := fun _ => rfl, fault := rfl, result := fun hne => absurd rfl hne,
            codes := ⟨rfl, rfl⟩, ended := ⟨rfl, rfl⟩, outside := ⟨v.2, rfl, fun hne => absurd rfl hne, fun _ => hb⟩,
            wf := id, fits := id, entries := id, natural := fun _ _ _ => id }

theorem ends_keygen (i : Instr) (dst : IntReg) (s : State) (hi : i = .keygenp ∧ dst = .p ∨ i = .keygenq ∧ dst = .q) :
    CommandEnds i s (keygenPass i dst s) := by
  have hk : i = .keygenp ∨ i = .keygenq := hi.imp And.left And.left
  have hne : i ≠ .srst ∧ i ≠ .prime := by rcases hk with rfl | rfl <;> simp
  rcases keygenPass_cases i dst s with ⟨v, o, hv, h⟩ | ⟨o, -, h⟩ | ⟨c, o, hc, h⟩
  · refine .inr (.inr (.inr ⟨hne.1, ?_⟩))
    rw [h]
    obtain ⟨-, -, hfit, -, -⟩ := judgeSample_accept (keyAttempt_accept hv)
    refine { regs := fun reg hreg => ?_, inp := rfl, out := fun _ => rfl, ledger := fun _ => rfl, ipos := fun _ => rfl,
             lpos := fun _ => rfl, blkcnt := fun _ => rfl, fault := rfl, result := fun _ => rfl,
             codes := ⟨rfl, rfl⟩, ended := ⟨rfl, rfl⟩, outside := ⟨o, rfl, fun _ h1 h2 => ?_, fun hp => absurd hp hne.2⟩,
             wf := id, fits := fun hall reg => ?_, entries := id, natural := fun _ _ _ => set_nonneg v }
    · refine get_set_other _ _ fun he => hreg ?_
      rcases hi with ⟨rfl, rfl⟩ | ⟨rfl, rfl⟩ <;> simp [he, destinations]
    · exact absurd hk (by simp [h1, h2])
    · by_cases he : reg = dst
      · subst he
        rw [complete_regs, withRegs_regs, get_set_same]
        exact hfit
      · rw [complete_regs, withRegs_regs, get_set_other _ _ he]
        exact hall reg
  · exact .inr (.inr (.inl ⟨o, hk, h⟩))
  · refine .inl ⟨_, o, h, ?_, fun h1 h2 => absurd hk (by simp [h1, h2]), fun _ _ => rfl⟩
    have hl : c ∈ causesOf i := by
      rcases keyAttempt_fault hc with ⟨rfl, -⟩ | rfl | ⟨rfl, -⟩ <;> rcases hk with rfl | rfl <;> simp [causesOf]
    refine ⟨hl, fun he => ?_, fun he => ?_⟩ <;> simp only at he <;> subst he <;>
      rcases keyAttempt_fault hc with ⟨h, h'⟩ | h | ⟨h, h'⟩ <;> try simp at h
    · exact .inl h'
    · simp [h']

theorem written_cipher {i : Instr} {s : State} {n blk : Nat} {st : Streams} (hn : .reg .n ∈ destinations i)
    (hd : .out ∈ destinations i ∧ .ipos ∈ destinations i ∧ .lpos ∈ destinations i ∧ .blkcnt ∈ destinations i)
    (hl : .ledger ∉ destinations i → st.ledger = s.streams.ledger) (hin : st.inp = s.streams.inp)
    (hfit : s.env.params.fits (n : Nat) = true) (hw : s.streams.wf = true → st.wf = true)
    (he : (∀ v ∈ s.streams.ledger, s.env.params.entryFits v = true) → ∀ v ∈ st.ledger, s.env.params.entryFits v = true) :
    Written i s (complete (writeCipher (n, st, blk) s)) where
  regs reg hreg := by cases reg <;> first | rfl | exact absurd hn hreg
  inp := hin
  out h := absurd hd.1 h
  ledger := hl
  ipos h := absurd hd.2.1 h
  lpos h := absurd hd.2.2.1 h
  blkcnt h := absurd hd.2.2.2 h
  fault := rfl
  result _ := rfl
  codes := ⟨rfl, rfl⟩
  ended := ⟨rfl, rfl⟩
  outside := ⟨_, rfl, fun _ _ _ => rfl, fun _ => ⟨rfl, rfl⟩⟩
  wf := hw
  fits hall reg := by cases reg with
    | n => exact hfit
    | p => exact hall .p
    | q => exact hall .q
    | a => exact hall .a
    | b => exact hall .b
    | m => exact hall .m
    | r => exact hall .r
    | x => exact hall .x
    | y => exact hall .y
    | mp => exact hall .mp
    | mq => exact hall .mq
    | m1 => exact hall .m1
    | m2 => exact hall .m2
    | m3 => exact hall .m3
    | m4 => exact hall .m4
    | sel => exact hall .sel
  entries := he
  natural reg _ _ h := by cases reg <;> first | exact Int.natCast_nonneg _ | exact h

theorem ends_enc (s : State) : CommandEnds .enc s (settle .enc
    (encCalc s.env.params s.regs.p.toNat s.regs.q.toNat s.streams) writeCipher s) := by
  refine settle_ends (by simp) (fun trap h => ⟨encCalc_mayRaise h, fun hne => absurd rfl hne⟩) ?_
  rintro ⟨n, st, blk⟩ h
  obtain ⟨-, hf, hl⟩ := encCalc_ok h
  obtain ⟨h1, h2, h3, -, h5⟩ := encryptLoop_keeps _ _ _ _ _ hl
  refine written_cipher (by simp [destinations]) (by simp [destinations]) (fun h => absurd (by simp [destinations]) h) h1 hf
    (fun hw => ?_) (fun _ => h5 (by simp))
  rw [wf_iff] at hw ⊢
  rw [h1, h2]
  exact ⟨h3 hw.1, Nat.zero_le _⟩

theorem ends_dec (s : State) : CommandEnds .dec s (settle .dec
    (decCalc s.env.params s.regs.p.toNat s.regs.q.toNat s.streams) writeCipher s) := by
  refine settle_ends (by simp) (fun trap h => ⟨decCalc_mayRaise h, fun _ hne => absurd rfl hne⟩) ?_
  rintro ⟨n, st, blk⟩ h
  obtain ⟨-, hf, hl⟩ := decCalc_ok h
  obtain ⟨h1, h2, h3⟩ := decryptLoop_keeps _ _ _ _ _ hl
  exact written_cipher (by simp [destinations]) (by simp [destinations]) (fun _ => h2) h1 hf h3 (fun he => h2 ▸ he)

/-- Every command ends in one of the four ways, whatever the state. -/
theorem exec_ends (i : Instr) (s t : State) (h : exec i s = .next t) : CommandEnds i s t := by
  cases i <;> simp only [exec] at h <;>
    (first | simp only [execNop, execPrime, execModexp, execEgcd, execGenmod, execKeygenp, execKeygenq, execTag,
      execUntag, execCrt, execSelect, execEnc, execDec, execSrst, Host.Outcome.next.injEq] at h) <;> subst h
  · exact .inr (.inr (.inr ⟨by simp, written_regs (g := s.regs) (fun _ _ => rfl) (fun hall reg _ => hall reg)
      fun _ _ _ _ => id⟩))
  · exact ends_prime s
  · exact ends_modexp s
  · exact ends_egcd s
  · exact ends_genmod s
  · exact ends_keygen _ _ s (.inl ⟨rfl, rfl⟩)
  · exact ends_keygen _ _ s (.inr ⟨rfl, rfl⟩)
  · exact ends_tag s
  · exact ends_untag s
  · exact ends_crt s
  · exact ends_select s
  · exact ends_enc s
  · exact ends_dec s
  · exact .inr (.inl ⟨rfl, rfl⟩)

end Sys2Proof.Machine
end

