-- ==== Sys2Proof/Laws/PerInstr.lean ====
section
/-! SUPPORT. The per-instruction family `OneRow`: a command is well formed and the opcode map has exactly one row for it,
whose word is its OPCODE (R83). -/

namespace Sys2Proof.Laws.OneRow

/-- The command is well formed and has one row in the opcode map, with the OPCODE the encoder gives it. -/
def Statement (i : Instr) : Prop :=
  i.wf = true ∧ (opcodeTable.filter fun row => row.instr == i).map (·.bits) = [encode i]

theorem nop : Statement .nop := by constructor <;> decide
theorem prime : Statement .prime := by constructor <;> decide
theorem modexp : Statement .modexp := by constructor <;> decide
theorem egcd : Statement .egcd := by constructor <;> decide
theorem genmod : Statement .genmod := by constructor <;> decide
theorem keygenp : Statement .keygenp := by constructor <;> decide
theorem keygenq : Statement .keygenq := by constructor <;> decide
theorem tag : Statement .tag := by constructor <;> decide
theorem untag : Statement .untag := by constructor <;> decide
theorem crt : Statement .crt := by constructor <;> decide
theorem select : Statement .select := by constructor <;> decide
theorem enc : Statement .enc := by constructor <;> decide
theorem dec : Statement .dec := by constructor <;> decide
theorem srst : Statement .srst := by constructor <;> decide

end Sys2Proof.Laws.OneRow
end

