-- ==== Sys2Proof/Tests/Slice0.lean ====
section
/-! SUPPORT. Tests of one command or one move each, their expected results from 95_test_vectors.md (the row is named), and
for each statement with hypotheses a state and operands that meet them together. -/

namespace Sys2Proof.Tests

open Sys2Proof Sys2Proof.Machine

/-- The reset state with the integer registers given. -/
def withRegs (g : Regs) : State := { State.reset with regs := g }

/-- The reset state with a key, an `IN` and a `LEDGER`. -/
def withData (p q : Nat) (inp : List Byte) (ledger : List Nat) : State :=
  { State.reset with
    regs := { Regs.reset with p := p, q := q }
    streams := { Streams.reset with inp := inp, ledger := ledger } }

/-- The state with oracle answers fixed. -/
def withOracles (bytes : List Byte) (bases : List Nat) (s : State) : State :=
  { s with env := { s.env with oracle := { s.env.oracle with bytes := bytes, bases := bases } } }

/-- The state with a finite `XBITS`. -/
def withXbits (bits : Nat) (s : State) : State :=
  { s with env := { s.env with params := { s.env.params with xbits := some bits } } }

/-- The state with the host's coming moves. -/
def withMoves (moves : List HostMove) (s : State) : State := { s with env := { s.env with script := moves } }

/-- The state with a command running. -/
def withJob (i : Instr) (stall tries : Nat) (s : State) : State :=
  { s with running := some { cmd := i, stall := stall, tries := tries } }

/-- A state in which DEC has faulted at block 1 (program 6). -/
def faulted : State :=
  { withData 10007 10039 [0x02, 0x99] [4, 4] with
    flags := { done := false, fault := true, result := false }, fcode := 3, finfo := 1 }

/-- A random sample of 64 bytes whose last byte is given. -/
def sample (b : Byte) : List Byte := List.replicate 63 0 ++ [b]

/-- The outcome is a next state that passes the check. -/
def ends (o : Host.Outcome State Fault Refusal) (check : State → Bool) : Bool :=
  match o with
  | .next t    => check t
  | .fault _   => false
  | .refused _ => false

/-- The status word reads `STATUS = word`, with the code and information given. -/
def shows (t : State) (word code info : Nat) : Bool :=
  decide ((statusWord t).toNat = word) && decide (t.fcode.toNat = code) && decide (t.finfo = info)

/-! ### Well-formedness: each check refuses an ill-formed term -/

theorem test_wf_reserved_word : commandWordWf 0x0D = false ∧ commandWordWf 0xFE = false ∧ commandWordWf 0x0C = true := by
  decide

theorem test_wf_write_read_only : (HostMove.wr 0x02 [5]).wf = false ∧ (HostMove.wr 0x03 [5]).wf = true := by decide

theorem test_wf_write_control : (HostMove.wr 0x11 [5]).wf = false ∧ (HostMove.wr 0x20 [5]).wf = false := by decide

theorem test_wf_reserved_number : (HostMove.rd 0x17).wf = false ∧ (HostMove.rd 0x23).wf = false ∧
    (HostMove.wr 0xFF [5]).wf = false ∧ (HostMove.rd 0x16).wf = true := by decide

theorem test_wf_literals : Config.literals.wf = true ∧ { Config.literals with suffix := [0, 0, 0] }.wf = false ∧
    { Config.literals with keyBits := 510 }.wf = false := by decide

/-- A command has no field, so every one is well formed (R81). -/
theorem test_wf_commands : opcodeTable.all (·.instr.wf) = true := by decide

/-! ### Decoding: the words of R83, written out -/

theorem test_decode_system : decode 0b00000000 = .command .nop ∧ decode 0b11111111 = .command .srst := by decide

theorem test_decode_primality : decode 0b00000001 = .command .prime ∧ decode 0b00000100 = .command .genmod ∧
    decode 0b00000101 = .command .keygenp ∧ decode 0b00000110 = .command .keygenq := by decide

theorem test_decode_modexp : decode 0b00000010 = .command .modexp := by decide

theorem test_decode_egcd : decode 0b00000011 = .command .egcd := by decide

theorem test_decode_codec_crt : decode 0b00000111 = .command .tag ∧ decode 0b00001000 = .command .untag ∧
    decode 0b00001001 = .command .crt ∧ decode 0b00001010 = .command .select := by decide

theorem test_decode_cipher : decode 0b00001011 = .command .enc ∧ decode 0b00001100 = .command .dec := by decide

theorem test_decode_reserved : decode 0b00001101 = .reserved 0x0D ∧ decode 0b11111110 = .reserved 0xFE := by decide

theorem test_decode_bytes : decodeBytes [0x0B, 0x0C] = .ok (.enc, [0x0C]) := by rfl

theorem test_fetch_word_runs : ends (step (State.reset.withFetchWord 8 0x00)) (shows · 2 0 0) = true ∧
    ends (step (faulted.withFetchWord 8 0x00)) (shows · 2 0 0) = true := by decide

/-! ### The primitives (section 2.1) -/

theorem test_be_to_nat : beToNat [0x27, 0x0F] = 9999 ∧ beToNat [0, 0, 1] = 1 ∧ beToNat [] = 0 := by decide

theorem test_nat_to_be : natToBe 43633656 = [0x02, 0x99, 0xCB, 0xF8] ∧ natToBe 0 = [0] ∧ natToBe 255 = [0xFF] ∧
    natToBe 256 = [1, 0] := by decide

theorem test_ends_suffix : endsSuffix 0 = false ∧ endsSuffix 1000 = false ∧ endsSuffix 10000 = true ∧
    endsSuffix 100230000 = true := by decide

/-! ### The commands (sections 2.2 to 2.9) -/

theorem test_nop_keeps_result : ends (exec .nop { State.reset with flags := { done := false, fault := false, result := true } })
    (shows · 10 0 0) = true := by decide

theorem test_srst_clears_fault : ends (exec .srst faulted) (fun t => decide (t = State.reset)) = true := by decide

theorem test_modexp : ends (exec .modexp (withRegs { Regs.reset with a := 4, b := 13, m := 497 }))
    (fun t => shows t 2 0 0 && decide (t.regs.r = 445)) = true := by decide

theorem test_modexp_modulus_one : ends (exec .modexp (withRegs { Regs.reset with m := 1 }))
    (fun t => shows t 2 0 0 && decide (t.regs.r = 0)) = true := by decide

theorem test_prime_liar : ends (exec .prime (withOracles [] [8, 5] (withRegs { Regs.reset with a := 9 })))
    (fun t => shows t 10 0 0 && decide (t.env.oracle.bases = [5])) = true := by decide

theorem test_prime_witness : ends (exec .prime (withOracles [] [50, 101, 2] (withRegs { Regs.reset with a := 561 })))
    (fun t => shows t 2 0 0 && decide (t.env.oracle.bases = [])) = true := by decide

theorem test_egcd : ends (exec .egcd (withRegs { Regs.reset with a := 240, b := 47 }))
    (fun t => shows t 2 0 0 && decide (t.regs.x = 19 ∧ t.regs.y = -97)) = true := by decide

theorem test_egcd_one_zero : ends (exec .egcd (withRegs { Regs.reset with a := 1, b := 0 })) (shows · 4 2 0) = true := by
  decide

theorem test_genmod : ends (exec .genmod (withRegs { Regs.reset with p := 10007, q := 10039 }))
    (fun t => shows t 2 0 0 && decide (t.regs.n = 100460273)) = true := by decide

/-- Row K1. -/
theorem test_keygenp : ends (exec .keygenp (withOracles (sample 7) [3] State.reset))
    (fun t => shows t 2 0 0 && decide (t.regs.p = 7)) = true := by decide +kernel

/-- Row K5. -/
theorem test_keygenp_two : ends (exec .keygenp (withOracles (sample 2) [] State.reset)) (shows · 4 1 0) = true := by
  decide +kernel

/-- Row K3. -/
theorem test_keygenq : ends (exec .keygenq (withOracles (sample 11) [2, 10] State.reset))
    (fun t => shows t 2 0 0 && decide (t.regs.q = 11)) = true := by decide +kernel

/-- Row K2, the third sample: 13 is prime and not congruent to 3 modulo 4. -/
theorem test_keygenq_again : ends (exec .keygenq (withOracles (sample 13) [2, 12] State.reset))
    (fun t => shows t 1 0 0 && decide (t.regs.q = 0 ∧ t.tries = 1)) = true := by decide +kernel

theorem test_tag : ends (exec .tag (withRegs { Regs.reset with a := 9999 }))
    (fun t => shows t 2 0 0 && decide (t.regs.r = 99990000)) = true := by decide

theorem test_tag_capacity : ends (exec .tag (withXbits 16 (withRegs { Regs.reset with a := 7 }))) (shows · 4 7 0) = true := by
  decide

theorem test_untag : ends (exec .untag (withRegs { Regs.reset with a := 12345 }))
    (fun t => shows t 2 0 0 && decide (t.regs.r = 1)) = true := by decide

/-- Row C1. -/
theorem test_crt : ends (exec .crt (withRegs { Regs.reset with a := 4, p := 7, q := 11 }))
    (fun t => shows t 2 0 0 && decide (t.regs = { Regs.reset with
      a := 4, p := 7, q := 11, n := 77, mp := 2, mq := 9, x := -3, y := 2, m1 := 9, m2 := 68, m3 := 75, m4 := 2 })) = true := by
  decide

/-- Row C5: `M2` and `M4` are not reduced. -/
theorem test_crt_zero : ends (exec .crt (withRegs { Regs.reset with p := 7, q := 11 }))
    (fun t => decide (t.regs.m1 = 0 ∧ t.regs.m2 = 77 ∧ t.regs.m3 = 0 ∧ t.regs.m4 = 77)) = true := by decide

theorem test_select : ends (exec .select (withRegs { Regs.reset with m1 := 5, m2 := 6, m3 := 70000, m4 := 8 }))
    (fun t => shows t 2 0 0 && decide (t.regs.sel = 70000 ∧ t.regs.r = 7)) = true := by decide

theorem test_select_equal_matches : ends (exec .select (withRegs { Regs.reset with
    m1 := 390273, m2 := 100070000, m3 := 390273, m4 := 100070000 })) (shows · 4 3 0) = true := by decide

/-- Row E1. -/
theorem test_enc : ends (exec .enc (withData 10007 10039 [0x27, 0x0F] [7]))
    (fun t => shows t 2 0 0 && decide (t.regs.n = 100460273 ∧ t.blkcnt = 1 ∧ t.streams =
      { inp := [0x27, 0x0F], out := [0x02, 0x99, 0xCB, 0xF8], ledger := [4], ipos := 2, lpos := 0 })) = true := by
  decide

/-- Row E10. -/
theorem test_enc_zero_key : ends (exec .enc (withData 0 7 [0x41] [])) (shows · 4 5 0) = true := by decide

/-- Row D1. -/
theorem test_dec : ends (exec .dec (withData 10007 10039 [0x02, 0x99, 0xCB, 0xF8] [4]))
    (fun t => shows t 2 0 0 && decide (t.blkcnt = 1 ∧ t.streams =
      { inp := [0x02, 0x99, 0xCB, 0xF8], out := [0x27, 0x0F], ledger := [4], ipos := 4, lpos := 1 })) = true := by
  decide

/-- Row D10. -/
theorem test_dec_second_block : ends (exec .dec (withData 10007 10039 [0x02, 0x99, 0xCB, 0xF8, 0x04, 0xF3, 0xDC, 0xE2] [4, 4]))
    (shows · 4 3 1) = true := by decide

/-! ### The host's moves (section 2.9) -/

theorem test_write_leading_zeros : (hostMove (.wr 0x03 [0, 0, 1, 0]) State.reset).regs.a = 256 := by decide

theorem test_write_read_only : hostMove (.wr 0x02 [5]) State.reset = State.reset.reply .refused := by decide

theorem test_read_while_busy : (hostMove (.rd 0x11) (withJob .keygenp 0 0 State.reset)).env.reply = .value (.number 1) ∧
    (hostMove (.rd 0x00) (withJob .keygenp 0 0 State.reset)).env.reply = .refused := by decide

theorem test_illegal_command : shows (hostMove (.cmd 0x80 0)
    { State.reset with flags := { done := true, fault := false, result := true } }) 12 4 0 = true := by decide

theorem test_await_holds_the_script :
    ends (step (withMoves [.await, .rd 0x11] (withJob .nop 1 0 State.reset)))
      (fun t => t.busy && decide (t.env.script = [.await, .rd 0x11])) = true := by decide

/-! ### Witnesses of the statements' hypotheses -/

theorem wit_DecodeEncodeRoundTrip : ∃ (s : State) (w v : Byte), s.Ready ∧ decode w = .reserved v :=
  ⟨State.reset, 0xFE, 0xFE, ⟨rfl, rfl⟩, by decide⟩

theorem wit_StepRunsTheDecodedCommand : ∃ (s : State) (w : Byte) (i : Instr) (rest : List HostMove),
    s.Ready ∧ s.env.script = .cmd w 0 :: rest ∧ decode w = .command i :=
  ⟨withMoves [.cmd 0x07 0, .rd 0x06] State.reset, 0x07, .tag, [.rd 0x06], ⟨rfl, rfl⟩, rfl, by decide⟩

theorem wit_RunningCommandShowsNothing :
    (∃ (s : State) (w : Byte) (i : Instr) (k : Nat) (rest : List HostMove),
      s.Ready ∧ s.env.script = .cmd w (k + 1) :: rest ∧ decode w = .command i) ∧
    (∃ (s : State) (i : Instr) (k n : Nat),
      s.env.script = [] ∧ s.running = some { cmd := i, stall := k + 1, tries := n }) ∧
    (∃ (s : State) (i : Instr) (n : Nat), s.env.script = [] ∧ s.running = some { cmd := i, stall := 0, tries := n }) :=
  ⟨⟨withMoves [.cmd 0x07 1] State.reset, 0x07, .tag, 0, [], ⟨rfl, rfl⟩, rfl, by decide⟩,
   ⟨withJob .tag 1 0 State.reset, .tag, 0, 0, rfl, rfl⟩, ⟨withJob .tag 0 0 State.reset, .tag, 0, rfl, rfl⟩⟩

theorem faulted_inv : faulted.Inv where
  positions := by decide
  notDone h := by simp [State.busy, faulted, withData, State.reset, State.resetIn] at h
  notFault h := by simp [State.busy, faulted, withData, State.reset, State.resetIn] at h
  recorded := by decide
  codes := by decide
  noInfo h := by simp [faulted] at h
  regsFit h := by simp [faulted] at h
  entryFit h := by simp [faulted] at h
  naturals h := by simp [faulted] at h

theorem wit_StepKeepsTheInvariant : ∃ s t : State, s.Inv ∧ step s = .next t := ⟨faulted, _, faulted_inv, rfl⟩

theorem wit_HardResetActsAtAnyTime : ∃ (s : State) (rest : List HostMove),
    s.busy = true ∧ s.env.script = .hardReset :: rest :=
  ⟨withMoves [.hardReset] (withJob .keygenp 0 5 State.reset), [], rfl, rfl⟩

theorem wit_IssueIsDecidedInOrder :
    (∃ s : State, s.busy = true) ∧
    (∃ (s : State) (w : Byte), s.busy = false ∧ s.flags.fault = true ∧ w ≠ 0xFF) ∧
    (∃ (s : State) (w : Byte), s.busy = false ∧ s.flags.fault = true ∧ w = 0xFF) ∧
    (∃ (s : State) (w : Byte) (i : Instr), s.Ready ∧ decode w = .command i) :=
  ⟨⟨withJob .nop 0 0 State.reset, rfl⟩, ⟨faulted, 0xFE, rfl, rfl, by decide⟩, ⟨faulted, 0xFF, rfl, rfl, rfl⟩,
   ⟨State.reset, 0xFF, .srst, ⟨rfl, rfl⟩, by decide⟩⟩

theorem wit_ReservedOpcodeRaisesIllegalCommand :
    (∃ (s : State) (w : Byte), s.Ready ∧ w.toNat = 0x0D ∧ 0x0D ≤ w.toNat ∧ w.toNat ≤ 0xFE) ∧
    (∃ (s : State) (w : Byte), s.Ready ∧ w.toNat = 0xFE ∧ 0x0D ≤ w.toNat ∧ w.toNat ≤ 0xFE) ∧
    (∃ (s : State) (move : HostMove), s.flags.fault = false ∧ (hostMove move s).flags.fault = true) :=
  ⟨⟨State.reset, 0x0D, ⟨rfl, rfl⟩, rfl, by decide, by decide⟩, ⟨State.reset, 0xFE, ⟨rfl, rfl⟩, rfl, by decide, by decide⟩,
   ⟨State.reset, .cmd 0x55 0, rfl, by decide⟩⟩

theorem wit_MovesAreRefusedWhileBusy : ∃ (s : State) (number : Byte), s.busy = true ∧ number ≠ 0x11 :=
  ⟨withJob .keygenp 0 0 State.reset, 0x12, rfl, by decide⟩

theorem wit_IllFormedMovesAreRefused :
    (∃ number : Byte, number ∈ [0x02, 0x06, 0x07, 0x08, 0x09, 0x0A, 0x0F, 0x11, 0x12, 0x13, 0x14, 0x15, 0x16, 0x21] ∧
      ¬ ((0x17 ≤ number.toNat ∧ number.toNat ≤ 0x1F) ∨ 0x23 ≤ number.toNat)) ∧
    (∀ number ∈ [(0x17 : Byte), 0x1F, 0x23, 0xFF],
      (0x17 ≤ number.toNat ∧ number.toNat ≤ 0x1F) ∨ 0x23 ≤ number.toNat) ∧
    (∃ number : Byte, number ∈ [0x10, 0x20, 0x22] ∧
      ¬ ((0x17 ≤ number.toNat ∧ number.toNat ≤ 0x1F) ∨ 0x23 ≤ number.toNat)) :=
  ⟨⟨0x16, by decide, by decide⟩, by decide, ⟨0x22, by decide, by decide⟩⟩

theorem wit_HostWriteStoresTheNatural :
    (∃ (s : State) (bs : List Byte), s.busy = false ∧
      ((0x00 : Byte), IntReg.p) ∈ [((0x00 : Byte), IntReg.p), (0x01, .q), (0x03, .a), (0x04, .b), (0x05, .m),
        (0x0B, .m1), (0x0C, .m2), (0x0D, .m3), (0x0E, .m4)] ∧
      s.env.params.fits (Nat.ofDigits 256 (bs.reverse.map BitVec.toNat) : Nat) = true) ∧
    (∃ (s : State) (bs : List Byte), s.busy = false ∧
      ((0x0E : Byte), IntReg.m4) ∈ [((0x00 : Byte), IntReg.p), (0x01, .q), (0x03, .a), (0x04, .b), (0x05, .m),
        (0x0B, .m1), (0x0C, .m2), (0x0D, .m3), (0x0E, .m4)] ∧
      s.env.params.fits (Nat.ofDigits 256 (bs.reverse.map BitVec.toNat) : Nat) = false) :=
  ⟨⟨withXbits 16 State.reset, [0xFF, 0xFF], rfl, by decide, by decide⟩,
   ⟨withXbits 16 State.reset, [1, 0, 0], rfl, by decide, by decide⟩⟩

theorem wit_HostLoadsReplaceTheBuffer : ∃ (s : State) (ls big : List Nat), s.busy = false ∧
    (∀ v ∈ ls, s.env.params.entryFits v = true) ∧ (∃ v ∈ big, s.env.params.entryFits v = false) :=
  ⟨{ faulted with env := { faulted.env with params := { Params.default with ledgerEntryBits := some 3 } } }, [7], [7, 8],
   rfl, by decide, by decide⟩

theorem wit_HostReadsReturnTheValue : ∃ (s : State) (number : Byte) (reg : IntReg), s.busy = false ∧
    number = 0x0F ∧ reg = .sel ∧ (number, reg) ∈ [((0x00 : Byte), IntReg.p), (0x01, .q), (0x02, .n), (0x03, .a),
      (0x04, .b), (0x05, .m), (0x06, .r), (0x07, .x), (0x08, .y), (0x09, .mp), (0x0A, .mq), (0x0B, .m1), (0x0C, .m2),
      (0x0D, .m3), (0x0E, .m4), (0x0F, .sel)] := ⟨faulted, _, _, rfl, rfl, rfl, by decide⟩

theorem wit_ModexpWritesTheModularPower :
    (∃ s : State, s.regs.m ≠ 0 ∧ s.env.params.fits (s.regs.a ^ s.regs.b % s.regs.m : Nat) = true) ∧
    (∃ s : State, s.regs.m = 0) ∧
    (∃ s : State, s.regs.m ≠ 0 ∧ s.env.params.fits (s.regs.a ^ s.regs.b % s.regs.m : Nat) = false) :=
  ⟨⟨withXbits 9 (withRegs { Regs.reset with a := 4, b := 13, m := 497 }), by decide, by decide⟩, ⟨State.reset, rfl⟩,
   ⟨withXbits 8 (withRegs { Regs.reset with a := 4, b := 13, m := 497 }), by decide, by decide⟩⟩

theorem wit_TagAndUntagWriteTheirResult :
    (∃ s : State, s.env.params.fits (s.regs.a * 10000 : Nat) = true) ∧
    (∃ s : State, s.env.params.fits (s.regs.a * 10000 : Nat) = false) :=
  ⟨⟨withXbits 16 (withRegs { Regs.reset with a := 6 }), by decide⟩, ⟨withXbits 16 (withRegs { Regs.reset with a := 7 }), by decide⟩⟩

theorem wit_GenmodMultipliesThePrimes :
    (∃ (s : State) (p q : Nat), s.HoldsKey p q ∧ s.env.params.fits (p * q : Nat) = true) ∧
    (∃ (s : State) (p q : Nat), s.HoldsKey p q ∧ s.env.params.fits (p * q : Nat) = false) :=
  ⟨⟨withXbits 7 (withRegs { Regs.reset with p := 7, q := 11 }), 7, 11, ⟨rfl, rfl⟩, by decide⟩,
   ⟨withXbits 6 (withRegs { Regs.reset with p := 8, q := 8 }), 8, 8, ⟨rfl, rfl⟩, by decide⟩⟩

theorem wit_CapacityFaultReplacesTheWrite :
    (∃ (s : State) (p q : Nat), s.env.params.xbits = some 16 ∧ s.HoldsKey p q ∧ 2 ^ 16 ≤ p * q) ∧
    (∃ (s : State) (p q : Nat), s.env.params.xbits = some 4 ∧ s.HoldsKey p q ∧ p * q < 2 ^ 4 ∧
      2 ^ 4 ≤ (s.chunk 0).length) ∧
    (∃ (s : State) (p q : Nat), s.env.params.xbits = some 4 ∧ s.HoldsKey p q ∧ p * q < 2 ^ 4 ∧ p * q ≠ 0 ∧
      (s.chunk 0).length < 2 ^ 4 ∧ 2 ^ 4 ≤ beToNat (s.chunk 0)) ∧
    (∃ (s : State) (p q len : Nat) (more : List Nat), s.env.params.xbits = some 4 ∧ s.HoldsKey p q ∧ p * q < 2 ^ 4 ∧
      s.streams.ledger.drop s.streams.lpos = len :: more ∧ 2 ^ 4 ≤ len) ∧
    (∃ (s : State) (p q len : Nat) (more : List Nat), s.env.params.xbits = some 4 ∧ s.HoldsKey p q ∧ p * q < 2 ^ 4 ∧
      s.streams.ledger.drop s.streams.lpos = len :: more ∧ len ≤ s.streams.inp.length - s.streams.ipos ∧
      2 ^ 4 ≤ beToNat ((s.streams.inp.drop s.streams.ipos).take len)) :=
  ⟨⟨withXbits 16 (withRegs { Regs.reset with p := 256, q := 256 }), 256, 256, rfl, ⟨rfl, rfl⟩, by decide⟩,
   ⟨withXbits 4 (withData 3 5 (List.replicate 16 0) []), 3, 5, rfl, ⟨rfl, rfl⟩, by decide, by decide⟩,
   ⟨withXbits 4 (withData 3 5 [16] []), 3, 5, rfl, ⟨rfl, rfl⟩, by decide, by decide, by decide, by decide⟩,
   ⟨withXbits 4 (withData 3 5 [1] [16]), 3, 5, 16, [], rfl, ⟨rfl, rfl⟩, by decide, rfl, by decide⟩,
   ⟨withXbits 4 (withData 3 5 [16] [1]), 3, 5, 1, [], rfl, ⟨rfl, rfl⟩, by decide, rfl, by decide, by decide⟩⟩

theorem wit_CapacityNeverChangesAValue : ∃ s t u : State, exec .tag s = .next t ∧ exec .tag s.uncapped = .next u :=
  ⟨withXbits 16 (withRegs { Regs.reset with a := 7 }), _, _, rfl, rfl⟩

theorem wit_EgcdWritesTheBezoutPair :
    (∃ s : State, s.env.params.xbits = none ∧ Nat.gcd s.regs.a s.regs.b = 1 ∧ s.regs.a ≠ 0 ∧ s.regs.b ≠ 0 ∧
      2 ≤ s.regs.a ∧ 2 ≤ s.regs.b ∧ s.regs.a ≠ s.regs.b) ∧
    (∃ s : State, s.env.params.xbits = none ∧ Nat.gcd s.regs.a s.regs.b = 1 ∧ s.regs.a ≠ 0 ∧ s.regs.b = 1) ∧
    (∃ s : State, s.env.params.xbits = none ∧ Nat.gcd s.regs.a s.regs.b = 1 ∧ s.regs.a = 1 ∧ 2 ≤ s.regs.b) :=
  ⟨⟨withRegs { Regs.reset with a := 2, b := 3 }, rfl, by decide, by decide, by decide, by decide, by decide, by decide⟩,
   ⟨withRegs { Regs.reset with a := 1, b := 1 }, rfl, by decide, by decide, rfl⟩,
   ⟨withRegs { Regs.reset with a := 1, b := 2 }, rfl, by decide, rfl, by decide⟩⟩

theorem wit_EgcdFaultsExactlyWhenNotCoprime :
    (∃ s : State, s.env.params.xbits = none ∧ Nat.gcd s.regs.a s.regs.b ≠ 1) ∧
    (∃ s : State, s.env.params.xbits = none ∧ s.regs.a = 1 ∧ s.regs.b = 0) ∧
    (∃ s : State, s.env.params.xbits = none ∧ s.regs.a = 0 ∧ s.regs.b = 1) ∧
    (∃ s : State, s.env.params.xbits = none ∧ s.flags.fault = false ∧
      ¬ (Nat.gcd s.regs.a s.regs.b ≠ 1 ∨ (s.regs.a = 1 ∧ s.regs.b = 0) ∨ (s.regs.a = 0 ∧ s.regs.b = 1))) :=
  ⟨⟨State.reset, rfl, by decide⟩, ⟨withRegs { Regs.reset with a := 1 }, rfl, rfl, rfl⟩,
   ⟨withRegs { Regs.reset with b := 1 }, rfl, rfl, rfl⟩,
   ⟨withRegs { Regs.reset with a := 1, b := 1 }, rfl, rfl, by decide⟩⟩

theorem wit_CrtWritesTheListing : ∃ (s e : State) (p q : Nat), s.env.params.xbits = none ∧ s.HoldsKey p q ∧
    Nat.gcd p q = 1 ∧ p ≠ 0 ∧ q ≠ 0 ∧ exec .egcd { s with regs := { s.regs with a := p, b := q } } = .next e :=
  ⟨withRegs { Regs.reset with a := 4, p := 7, q := 11 }, _, 7, 11, rfl, ⟨rfl, rfl⟩, by decide, by decide, by decide, rfl⟩

theorem wit_CrtFaultsInOrder :
    (∃ (s : State) (p q : Nat), s.env.params.xbits = none ∧ s.HoldsKey p q ∧ p = 0 ∧ q ≠ 0) ∧
    (∃ (s : State) (p q : Nat), s.env.params.xbits = none ∧ s.HoldsKey p q ∧ p ≠ 0 ∧ q = 0) ∧
    (∃ (s : State) (p q : Nat), s.env.params.xbits = none ∧ s.HoldsKey p q ∧ p ≠ 0 ∧ q ≠ 0 ∧ Nat.gcd p q ≠ 1) :=
  ⟨⟨withRegs { Regs.reset with q := 7 }, 0, 7, rfl, ⟨rfl, rfl⟩, rfl, by decide⟩,
   ⟨withRegs { Regs.reset with p := 1 }, 1, 0, rfl, ⟨rfl, rfl⟩, by decide, rfl⟩,
   ⟨withRegs { Regs.reset with p := 7, q := 7 }, 7, 7, rfl, ⟨rfl, rfl⟩, by decide, by decide, by decide⟩⟩

theorem wit_CrtRootsHaveTheResidues : ∃ (s t : State) (p q : Nat), s.env.params.xbits = none ∧ s.HoldsKey p q ∧
    2 ≤ p ∧ 2 ≤ q ∧ Nat.gcd p q = 1 ∧ exec .crt s = .next t :=
  ⟨withRegs { Regs.reset with a := 5, p := 2, q := 3 }, _, 2, 3, rfl, ⟨rfl, rfl⟩, by decide, by decide, by decide, rfl⟩

theorem keypair_small : Keypair 103 107 := by
  refine ⟨⟨?_, ?_⟩, ⟨?_, ?_⟩, ?_⟩ <;> norm_num

theorem wit_CrtFindsTheSquareRoots :
    (∃ (s : State) (p q x : Nat), s.env.params.xbits = none ∧ s.HoldsKey p q ∧ Keypair p q ∧ x = 1 ∧ 1 ≤ x ∧ x < p * q ∧
      s.regs.a = x ^ 2 % (p * q)) ∧
    (∃ (s : State) (p q x : Nat), s.env.params.xbits = none ∧ s.HoldsKey p q ∧ Keypair p q ∧ x = 11020 ∧ 1 ≤ x ∧
      x < p * q ∧ s.regs.a = x ^ 2 % (p * q)) :=
  ⟨⟨withRegs { Regs.reset with a := 1, p := 103, q := 107 }, 103, 107, 1, rfl, ⟨rfl, rfl⟩, keypair_small, rfl, by decide,
    by decide, by decide⟩,
   ⟨withRegs { Regs.reset with a := 1, p := 103, q := 107 }, 103, 107, 11020, rfl, ⟨rfl, rfl⟩, keypair_small, rfl,
    by decide, by decide, by decide⟩⟩

theorem wit_SelectTakesExactlyOneMatch :
    (∃ (s : State) (m1 m2 m3 m4 k m : Nat), s.regs.m1 = m1 ∧ s.regs.m2 = m2 ∧ s.regs.m3 = m3 ∧ s.regs.m4 = m4 ∧
      [m1, m2, m3, m4][k]? = some m ∧ EndsInFourZeros m ∧
      ∀ j m' : Nat, [m1, m2, m3, m4][j]? = some m' → EndsInFourZeros m' → j = k) ∧
    (∃ (s : State) (m1 m2 m3 m4 : Nat), s.regs.m1 = m1 ∧ s.regs.m2 = m2 ∧ s.regs.m3 = m3 ∧ s.regs.m4 = m4 ∧
      ∀ m ∈ [m1, m2, m3, m4], ¬ EndsInFourZeros m) ∧
    (∃ (s : State) (m1 m2 m3 m4 j k m m' : Nat), s.regs.m1 = m1 ∧ s.regs.m2 = m2 ∧ s.regs.m3 = m3 ∧ s.regs.m4 = m4 ∧
      j ≠ k ∧ [m1, m2, m3, m4][j]? = some m ∧ [m1, m2, m3, m4][k]? = some m' ∧
      EndsInFourZeros m ∧ EndsInFourZeros m') := by
  refine ⟨⟨withRegs { Regs.reset with m1 := 5, m2 := 6, m3 := 8, m4 := 10000 }, 5, 6, 8, 10000, 3, 10000,
      rfl, rfl, rfl, rfl, rfl, ⟨by decide, by decide⟩, ?_⟩,
    ⟨withRegs { Regs.reset with m1 := 1000, m2 := 9999, m3 := 10001 }, 1000, 9999, 10001, 0, rfl, rfl, rfl, rfl, ?_⟩,
    ⟨withRegs { Regs.reset with m1 := 10000, m2 := 10000 }, 10000, 10000, 0, 0, 0, 1, 10000, 10000,
      rfl, rfl, rfl, rfl, by decide, rfl, rfl, ⟨by decide, by decide⟩, ⟨by decide, by decide⟩⟩⟩
  · rintro (_ | _ | _ | _ | j) m' h h' <;> simp at h <;> subst h <;> revert h' <;> simp [EndsInFourZeros]
  · intro m hm
    simp only [List.mem_cons, List.not_mem_nil, or_false] at hm
    rcases hm with rfl | rfl | rfl | rfl <;> unfold EndsInFourZeros <;> decide

/-- `A` is the square of the tagged 1 under the key (103, 107). -/
def block : State := withRegs { Regs.reset with a := 6467, p := 103, q := 107 }

theorem wit_CrtThenSelectDecryptsABlock : ∃ (s t u : State) (p q : Nat), s.HoldsKey p q ∧ s.flags.fault = false ∧
    exec .crt s = .next t ∧ t.flags.fault = false ∧ exec .select t = .next u ∧ u.flags.fault = false :=
  ⟨block, _, _, 103, 107, ⟨rfl, rfl⟩, rfl, rfl, by decide, rfl, by decide⟩

theorem wit_BlockDecryptsExactlyWhen : ∃ (s t u : State) (p q m : Nat), s.env.params.xbits = none ∧
    s.flags.fault = false ∧ s.HoldsKey p q ∧ Keypair p q ∧ s.regs.a = (m * 10000) ^ 2 % (p * q) ∧
    exec .crt s = .next t ∧ exec .select t = .next u :=
  ⟨block, _, _, 103, 107, 1, rfl, rfl, ⟨rfl, rfl⟩, keypair_small, by decide, rfl, rfl⟩

theorem wit_PrimeOnSmallAndEvenNumbers : (∃ s : State, s.regs.a = 2 ∧ s.regs.a ≤ 2) ∧
    (∃ s : State, s.regs.a = 4 ∧ 4 ≤ s.regs.a ∧ s.regs.a % 2 = 0) :=
  ⟨⟨withRegs { Regs.reset with a := 2 }, rfl, by decide⟩, ⟨withRegs { Regs.reset with a := 4 }, rfl, by decide, rfl⟩⟩

theorem wit_PrimeCompletesOnOddNumbers : ∃ s : State, s.regs.a = 3 ∧ 3 ≤ s.regs.a ∧ s.regs.a % 2 = 1 :=
  ⟨withRegs { Regs.reset with a := 3 }, rfl, by decide, rfl⟩

/-- 14 is a liar for 15. -/
theorem passes_15_14 : PassesBase 15 14 := ⟨1, 7, rfl, rfl, .inr ⟨0, by decide, by decide⟩⟩

/-- 2 is a witness for 15. -/
theorem rejects_15_2 : ¬ PassesBase 15 2 := by
  rintro ⟨s, t, h, ht, hp⟩
  obtain rfl : s = 1 := by
    rcases s with _ | _ | s
    · omega
    · rfl
    · rw [pow_succ, pow_succ, Nat.mul_assoc (2 ^ s), Nat.mul_assoc (2 ^ s)] at h
      have : 2 ^ s * (2 * 2 * t) = 4 * (2 ^ s * t) := by ring
      omega
  obtain rfl : t = 7 := by omega
  rcases hp with hp | ⟨r, hr, hp⟩
  · exact absurd hp (by decide)
  · obtain rfl : r = 0 := by omega
    exact absurd hp (by decide)

theorem digits_15 : (Nat.digits 10 15).length = 2 := by norm_num

theorem wit_PrimeVerdictIsThatOfItsBases :
    (∃ (s t : State) (bases rest : List Nat), 3 ≤ s.regs.a ∧ s.regs.a % 2 = 1 ∧ s.env.oracle.bases = bases ++ rest ∧
      bases.length = roundCount s.env.params.rounds (Nat.digits 10 s.regs.a).length ∧
      (∀ a ∈ bases, 1 ≤ a ∧ a ≤ s.regs.a - 1) ∧ exec .prime s = .next t) ∧
    (∃ (s t : State) (passed rest : List Nat) (a : Nat), 3 ≤ s.regs.a ∧ s.regs.a % 2 = 1 ∧
      s.env.oracle.bases = passed ++ a :: rest ∧ passed ≠ [] ∧
      passed.length < roundCount s.env.params.rounds (Nat.digits 10 s.regs.a).length ∧
      (∀ b ∈ passed, 1 ≤ b ∧ b ≤ s.regs.a - 1 ∧ PassesBase s.regs.a b) ∧
      1 ≤ a ∧ a ≤ s.regs.a - 1 ∧ ¬ PassesBase s.regs.a a ∧ exec .prime s = .next t) :=
  ⟨⟨withOracles [] [8, 5] (withRegs { Regs.reset with a := 9 }), _, [8], [5], by decide, rfl, rfl,
    by simp [withOracles, withRegs, State.reset, State.resetIn, Env.initial, Params.default, roundCount], by decide, rfl⟩,
   ⟨withOracles [] [14, 2] (withRegs { Regs.reset with a := 15 }), _, [14], [], 2, by decide, rfl, rfl, by decide,
    by rw [show (withOracles [] [14, 2] (withRegs { Regs.reset with a := 15 })).regs.a = 15 from rfl, digits_15]; decide,
    fun b hb => by rw [List.mem_singleton.mp hb]; exact ⟨by decide, by decide, passes_15_14⟩,
    by decide, by decide, rejects_15_2, rfl⟩⟩

theorem wit_PrimeAcceptsEveryOddPrime : ∃ s : State, s.regs.a.Prime ∧ 2 < s.regs.a :=
  ⟨withRegs { Regs.reset with a := 3 }, Nat.prime_three, by decide⟩

theorem samples_of (bs rest : List Byte) (bases : List Nat) (h : bs.length = 64) :
    (withOracles (bs ++ rest) bases State.reset).Samples bs rest := ⟨rfl, h, nofun, rfl⟩

/-- A value below 16 is below every larger power. -/
theorem below_pow {v k : Nat} (h : v < 16) (hk : 4 ≤ k) : v < 2 ^ k :=
  lt_of_lt_of_le (b := 2 ^ 4) h (Nat.pow_le_pow_right (by decide) hk)

theorem value_3 : beToNat (sample 3) = 3 := by decide

theorem value_5 : beToNat (sample 5) = 5 := by decide

theorem value_15 : beToNat (sample 15) = 15 := by decide

theorem wit_KeyGenerationWritesTheSample : ∃ (s : State) (i : Instr) (dst : IntReg) (bs rest : List Byte),
    KeyCommand i dst ∧ s.Samples bs rest ∧ beToNat bs < 2 ^ 511 ∧ (beToNat bs).Prime ∧ beToNat bs % 4 = 3 ∧
    s.env.params.fits (beToNat bs : Nat) = true ∧
    s.env.params.fits (roundCount s.env.params.rounds (Nat.digits 10 (beToNat bs)).length : Nat) = true :=
  ⟨withOracles (sample 3 ++ [1]) [] State.reset, .keygenq, .q, sample 3, [1], .inr ⟨rfl, rfl⟩, samples_of _ _ _ rfl,
    by rw [value_3]; exact below_pow (by decide) (by decide),
    by rw [value_3]; exact Nat.prime_three, by rw [value_3], rfl, rfl⟩

theorem wit_KeyGenerationPostcondition : ∃ (s t : State) (i : Instr) (dst : IntReg), KeyCommand i dst ∧
    exec i s = .next t ∧ t.busy = false ∧ t.flags.done = true :=
  ⟨withOracles (sample 7) [3] State.reset, _, .keygenp, .p, .inl ⟨rfl, rfl⟩, rfl, by decide, by decide⟩

theorem wit_RejectedSampleKeepsItBusy :
    (∃ (s : State) (bs rest : List Byte), s.Samples bs rest ∧ 2 ^ 511 ≤ beToNat bs) ∧
    (∃ (s : State) (bs rest : List Byte), s.Samples bs rest ∧ s.env.params.fits (beToNat bs : Nat) = true ∧
      3 ≤ beToNat bs ∧ beToNat bs % 2 = 0) ∧
    (∃ (s : State) (bs rest : List Byte), s.Samples bs rest ∧ s.env.params.fits (beToNat bs : Nat) = true ∧
      3 ≤ beToNat bs ∧
      s.env.params.fits (roundCount s.env.params.rounds (Nat.digits 10 (beToNat bs)).length : Nat) = true ∧
      (beToNat bs).Prime ∧ beToNat bs % 4 = 1) ∧
    (∃ (s : State) (bs rest : List Byte) (passed more : List Nat) (a : Nat), s.Samples bs rest ∧
      s.env.params.fits (beToNat bs : Nat) = true ∧ 3 ≤ beToNat bs ∧
      s.env.params.fits (roundCount s.env.params.rounds (Nat.digits 10 (beToNat bs)).length : Nat) = true ∧
      beToNat bs % 2 = 1 ∧ s.env.oracle.bases = passed ++ a :: more ∧
      passed.length < roundCount s.env.params.rounds (Nat.digits 10 (beToNat bs)).length ∧
      (∀ b ∈ passed, 1 ≤ b ∧ b ≤ beToNat bs - 1 ∧ PassesBase (beToNat bs) b) ∧
      1 ≤ a ∧ a ≤ beToNat bs - 1 ∧ ¬ PassesBase (beToNat bs) a) := by
  refine ⟨⟨withOracles ((0x80 :: List.replicate 63 0) ++ []) [] State.reset, 0x80 :: List.replicate 63 0, [],
      samples_of _ _ _ rfl, by decide +kernel⟩,
    ⟨withOracles (sample 4 ++ []) [] State.reset, sample 4, [], samples_of _ _ _ rfl, rfl, by decide, by decide⟩,
    ⟨withOracles (sample 5 ++ []) [] State.reset, sample 5, [], samples_of _ _ _ rfl, rfl, by rw [value_5]; decide, rfl,
      by rw [value_5]; exact Nat.prime_five, by rw [value_5]⟩,
    ⟨withOracles (sample 15 ++ []) [14, 2] State.reset, sample 15, [], [14], [], 2, samples_of _ _ _ rfl, rfl, ?_⟩⟩
  rw [value_15, digits_15]
  exact ⟨by decide, rfl, rfl, rfl, by decide,
    fun b hb => by rw [List.mem_singleton.mp hb]; exact ⟨by decide, by decide, passes_15_14⟩,
    by decide, by decide, rejects_15_2⟩

theorem wit_KeyGenerationFaults :
    (∃ (s : State) (bs rest : List Byte), s.Samples bs rest ∧ beToNat bs ≤ 2 ∧
      s.env.params.fits (beToNat bs : Nat) = true) ∧
    (∃ s : State, s.env.params.retryCap = some s.tries) :=
  ⟨⟨withOracles (sample 2 ++ []) [] State.reset, sample 2, [], samples_of _ _ _ rfl, by decide, rfl⟩,
   ⟨{ withJob .keygenp 0 2 State.reset with
      env := { State.reset.env with params := { Params.default with retryCap := some 2 } } }, rfl⟩⟩

/-- A finite `XBITS` of 3, and `ROUNDS(1) = 8`. -/
def manyRounds (s : State) : State :=
  { s with env := { s.env with params := { s.env.params with xbits := some 3, rounds := .increments [7] } } }

/-- The capacity of the round count (R24, R212): 8 rounds do not fit 3 bits, and no base is drawn. -/
theorem test_keygenp_rounds_capacity : ends (exec .keygenp (manyRounds (withOracles (sample 7) [3] State.reset)))
    (fun t => shows t 4 7 0 && decide (t.env.oracle.bases = [3])) = true := by decide +kernel

/-- The capacity of `j` (R24, R16): a chunk of 16 bytes does not fit 4 bits. -/
theorem test_enc_chunk_capacity : ends (exec .enc (withXbits 4 (withData 3 5 (List.replicate 16 0) [])))
    (shows · 4 7 0) = true := by decide

theorem wit_KeyGenerationHoldsItsTemporaries :
    (∃ s : State, s.env.params.xbits = some 3 ∧ s.env.params.retryCap ≠ some s.tries ∧ 2 ^ 3 ≤ s.tries + 1) ∧
    (∃ (s : State) (bs rest : List Byte), s.env.params.xbits = some 3 ∧ s.Samples bs rest ∧ beToNat bs < 2 ^ 511 ∧
      2 ^ 3 ≤ beToNat bs) ∧
    (∃ (s : State) (bs rest : List Byte), s.env.params.xbits = some 3 ∧ s.Samples bs rest ∧ beToNat bs < 2 ^ 511 ∧
      beToNat bs < 2 ^ 3 ∧ 3 ≤ beToNat bs ∧ beToNat bs % 2 = 1 ∧
      2 ^ 3 ≤ roundCount s.env.params.rounds (Nat.digits 10 (beToNat bs)).length) := by
  have hv : beToNat (sample 8) = 8 := by decide
  refine ⟨⟨withXbits 3 (withJob .keygenp 0 7 State.reset), rfl, by decide, by decide⟩,
    ⟨withXbits 3 (withOracles (sample 8 ++ []) [] State.reset), sample 8, [], rfl, ⟨rfl, rfl, by decide, by decide⟩,
      by rw [hv]; exact below_pow (by decide) (by decide), by rw [hv]; decide⟩,
    ⟨manyRounds (withOracles (sample 3 ++ []) [] State.reset), sample 3, [], rfl, ⟨rfl, rfl, by decide, by decide⟩, ?_⟩⟩
  rw [value_3]
  refine ⟨below_pow (by decide) (by decide), by decide, by decide, by decide, ?_⟩
  rw [show (Nat.digits 10 3).length = 1 by norm_num]
  decide

theorem wit_KeyGenerationNeedNotEnd : ∃ (s : State) (samples : List (List Byte)) (rest : List Byte),
    KeyCommand .keygenp .p ∧ s.env.params.retryCap = none ∧ s.env.params.xbits = none ∧ s.env.script = [] ∧
    s.running = some { cmd := .keygenp, stall := 0, tries := 0 } ∧
    s.env.oracle.bytes = samples.flatten ++ rest ∧ samples.length = 2 ∧
    ∀ bs ∈ samples, bs.length = 64 ∧ (2 ^ 511 ≤ beToNat bs ∨ (2 < beToNat bs ∧ beToNat bs % 2 = 0)) := by
  refine ⟨withOracles ([0x80 :: List.replicate 63 0, sample 4].flatten ++ [1]) [] (withJob .keygenp 0 0 State.reset),
    [0x80 :: List.replicate 63 0, sample 4], [1], .inl ⟨rfl, rfl⟩, rfl, rfl, rfl, rfl, rfl, rfl, fun bs hbs => ?_⟩
  simp only [List.mem_cons, List.not_mem_nil, or_false] at hbs
  rcases hbs with rfl | rfl
  · exact ⟨rfl, .inl (by decide +kernel)⟩
  · exact ⟨rfl, .inr (by decide)⟩

theorem wit_EncEncryptsEveryChunk : ∃ (s : State) (p q : Nat), Unbounded s.env.params ∧ s.HoldsKey p q ∧ p ≠ 0 ∧ q ≠ 0 ∧
    s.streams.ipos ≤ s.streams.inp.length :=
  ⟨withData 7 11 [1, 2] [], 7, 11, ⟨rfl, rfl⟩, ⟨rfl, rfl⟩, by decide, by decide, by decide⟩

theorem wit_EncOnAZeroKeyAndOnNoInput :
    (∃ (s : State) (p q : Nat), s.HoldsKey p q ∧ (p = 0 ∨ q = 0) ∧ s.streams.ipos < s.streams.inp.length ∧
      s.env.params.fits ((s.chunk 0).length : Nat) = true) ∧
    (∃ (s : State) (p q : Nat), s.HoldsKey p q ∧ s.streams.ipos = s.streams.inp.length ∧
      s.env.params.fits (p * q : Nat) = true) :=
  ⟨⟨withData 0 7 [0x41] [], 0, 7, ⟨rfl, rfl⟩, .inl rfl, by decide, rfl⟩, ⟨State.reset, 0, 0, ⟨rfl, rfl⟩, rfl, rfl⟩⟩

theorem wit_EncLedgerMatchesItsOutput : ∃ s t : State, s.flags.fault = false ∧ s.streams.ipos ≤ s.streams.inp.length ∧
    exec .enc s = .next t ∧ t.flags.fault = false :=
  ⟨withData 103 107 [1] [], _, rfl, by decide, rfl, by decide⟩

theorem wit_EncDependsOnInputAndKeyOnly : ∃ s s' t t' : State, s.flags.fault = false ∧ s'.flags.fault = false ∧
    s.env.params = s'.env.params ∧ s.regs.p = s'.regs.p ∧ s.regs.q = s'.regs.q ∧ s.streams.ipos ≠ s'.streams.ipos ∧
    s.streams.inp.drop s.streams.ipos = s'.streams.inp.drop s'.streams.ipos ∧
    exec .enc s = .next t ∧ exec .enc s' = .next t' :=
  ⟨withData 103 107 [1] [], { withData 103 107 [9, 1] [5] with
      streams := { Streams.reset with inp := [9, 1], ledger := [5], ipos := 1 } }, _, _,
    rfl, rfl, rfl, rfl, rfl, by decide, rfl, rfl, rfl⟩

theorem block_decrypts : decryptBlock Params.default (beToNat [0x19, 0x43]) 103 107 = .ok 1 := by rfl

theorem block_corrupt : decryptBlock Params.default (beToNat [4]) 103 107 = .error .ambiguousOrCorruptCiphertext := by rfl

theorem wit_DecDecryptsEveryPiece : ∃ (s : State) (p q : Nat) (pieces : List (List Byte)) (ms : List Nat) (rest : List Byte),
    s.env.params.xbits = none ∧ s.HoldsKey p q ∧ s.streams.wf = true ∧ s.streams.inp.drop s.streams.ipos = pieces.flatten ++ rest ∧
    s.streams.ledger.drop s.streams.lpos = pieces.map List.length ∧ (∀ cb ∈ pieces, cb ≠ []) ∧
    List.Forall₂ (fun cb m => decryptBlock s.env.params (beToNat cb) p q = .ok m) pieces ms :=
  ⟨withData 103 107 [0x19, 0x43, 0xFF] [2], 103, 107, [[0x19, 0x43]], [1], [0xFF], rfl, ⟨rfl, rfl⟩, by decide, rfl, rfl, by decide,
   .cons block_decrypts .nil⟩

theorem wit_DecFaultsAtTheBlock : ∃ (s : State) (p q : Nat) (pieces : List (List Byte)) (ms : List Nat) (bad rest : List Byte)
    (more : List Nat) (c : Cause), s.env.params.xbits = none ∧ s.HoldsKey p q ∧ s.streams.wf = true ∧
    s.streams.inp.drop s.streams.ipos = pieces.flatten ++ (bad ++ rest) ∧
    s.streams.ledger.drop s.streams.lpos = pieces.map List.length ++ bad.length :: more ∧
    (∀ cb ∈ pieces, cb ≠ []) ∧ bad ≠ [] ∧
    List.Forall₂ (fun cb m => decryptBlock s.env.params (beToNat cb) p q = .ok m) pieces ms ∧
    decryptBlock s.env.params (beToNat bad) p q = .error c :=
  ⟨withData 103 107 [0x19, 0x43, 4] [2, 1, 9], 103, 107, [[0x19, 0x43]], [1], [4], [], [9], _, rfl, ⟨rfl, rfl⟩, by decide, rfl, rfl, by decide,
   by decide, .cons block_decrypts .nil, block_corrupt⟩

theorem wit_DecFaultsOnATruncatedBlock : ∃ (s : State) (p q : Nat) (pieces : List (List Byte)) (ms : List Nat) (left : List Byte)
    (len : Nat) (more : List Nat), s.env.params.xbits = none ∧ s.HoldsKey p q ∧ s.streams.wf = true ∧
    s.streams.inp.drop s.streams.ipos = pieces.flatten ++ left ∧
    s.streams.ledger.drop s.streams.lpos = pieces.map List.length ++ len :: more ∧
    (∀ cb ∈ pieces, cb ≠ []) ∧ 1 ≤ left.length ∧ left.length < len ∧
    List.Forall₂ (fun cb m => decryptBlock s.env.params (beToNat cb) p q = .ok m) pieces ms :=
  ⟨withData 103 107 [0x19, 0x43, 4] [2, 2, 9], 103, 107, [[0x19, 0x43]], [1], [4], 2, [9], rfl, ⟨rfl, rfl⟩, by decide, rfl, rfl, by decide,
   by decide, by decide, .cons block_decrypts .nil⟩

theorem wit_DecStopsSilently :
    (∃ (s : State) (p q : Nat) (pieces : List (List Byte)) (ms : List Nat) (left : List Byte) (len : Nat) (more : List Nat),
      s.env.params.xbits = none ∧ s.HoldsKey p q ∧ s.streams.wf = true ∧ s.streams.inp.drop s.streams.ipos = pieces.flatten ++ left ∧
      s.streams.ledger.drop s.streams.lpos = pieces.map List.length ++ len :: more ∧ (∀ cb ∈ pieces, cb ≠ []) ∧
      len = 0 ∧ List.Forall₂ (fun cb m => decryptBlock s.env.params (beToNat cb) p q = .ok m) pieces ms) ∧
    (∃ (s : State) (p q : Nat) (pieces : List (List Byte)) (ms : List Nat) (left : List Byte) (len : Nat) (more : List Nat),
      s.env.params.xbits = none ∧ s.HoldsKey p q ∧ s.streams.wf = true ∧ s.streams.inp.drop s.streams.ipos = pieces.flatten ++ left ∧
      s.streams.ledger.drop s.streams.lpos = pieces.map List.length ++ len :: more ∧ (∀ cb ∈ pieces, cb ≠ []) ∧
      left = [] ∧ List.Forall₂ (fun cb m => decryptBlock s.env.params (beToNat cb) p q = .ok m) pieces ms) ∧
    (∃ (s : State) (p q : Nat), s.HoldsKey p q ∧ s.env.params.fits (p * q : Nat) = true ∧ s.streams.lpos = s.streams.ledger.length) :=
  ⟨⟨withData 103 107 [0x19, 0x43, 4] [2, 0, 9], 103, 107, [[0x19, 0x43]], [1], [4], 0, [9], rfl, ⟨rfl, rfl⟩, by decide, rfl, rfl, by decide, rfl,
     .cons block_decrypts .nil⟩,
   ⟨withData 103 107 [0x19, 0x43] [2, 5], 103, 107, [[0x19, 0x43]], [1], [], 5, [], rfl, ⟨rfl, rfl⟩, by decide, rfl, rfl, by decide, rfl,
     .cons block_decrypts .nil⟩,
   ⟨withData 0 0 [4] [], 0, 0, ⟨rfl, rfl⟩, rfl, rfl⟩⟩

theorem block_roots : ∀ r, crtRoots Params.default 6467 103 107 = .ok r →
    r.m1 = 10000 ∧ r.m2 = 1021 ∧ r.m3 = 4008 ∧ r.m4 = 7013 := by
  intro r h
  have : crtRoots Params.default 6467 103 107 = .ok
    { n := 11021, mp := 9, mq := 49, yp := -27, yq := 26, m1 := 10000, m2 := 1021, m3 := 4008, m4 := 7013 } := by rfl
  rw [this, Except.ok.injEq] at h
  subst h
  exact ⟨rfl, rfl, rfl, rfl⟩

theorem wit_DecryptionInvertsEncryption : ∃ (s : State) (p q : Nat), Unbounded s.env.params ∧ s.HoldsKey p q ∧ Keypair p q ∧ s.streams.ipos = 0 ∧
    s.chunkCount = 1 ∧ ∀ i < s.chunkCount,
      (s.chunk i).head? ≠ some 0 ∧ beToNat (s.chunk i) * 10000 < p * q ∧
      ∀ r, crtRoots s.env.params ((beToNat (s.chunk i) * 10000) ^ 2 % (p * q)) p q = .ok r →
        [r.m1, r.m2, r.m3, r.m4].countP (fun m => decide (10000 ≤ m ∧ m % 10000 = 0)) = 1 := by
  refine ⟨withData 103 107 [1] [], 103, 107, ⟨rfl, rfl⟩, ⟨rfl, rfl⟩, keypair_small, rfl, rfl, fun i hi => ?_⟩
  obtain rfl : i = 0 := Nat.lt_one_iff.mp hi
  refine ⟨by decide, by decide, fun r hr => ?_⟩
  obtain ⟨h1, h2, h3, h4⟩ := block_roots r hr
  rw [h1, h2, h3, h4]
  decide

theorem wit_AllZeroChunkDoesNotSurvive :
    (∃ (s : State) (p q k : Nat), Unbounded s.env.params ∧ s.HoldsKey p q ∧ Keypair p q ∧ 1 ≤ k ∧ k ≤ 16 ∧ k = 1 ∧ s.streams.ipos = 0 ∧
      s.streams.inp = List.replicate k 0) ∧
    (∃ (s : State) (p q k : Nat), Unbounded s.env.params ∧ s.HoldsKey p q ∧ Keypair p q ∧ 1 ≤ k ∧ k ≤ 16 ∧ k = 16 ∧ s.streams.ipos = 0 ∧
      s.streams.inp = List.replicate k 0) :=
  ⟨⟨withData 103 107 [0] [], 103, 107, 1, ⟨rfl, rfl⟩, ⟨rfl, rfl⟩, keypair_small, by decide, by decide, rfl, rfl, rfl⟩,
   ⟨withData 103 107 (List.replicate 16 0) [], 103, 107, 16, ⟨rfl, rfl⟩, ⟨rfl, rfl⟩, keypair_small, by decide, by decide, rfl, rfl, rfl⟩⟩

theorem wit_FaultChangesOnlyDestinations : ∃ (i : Instr) (s t : State), s.flags.fault = false ∧ exec i s = .next t ∧
    t.flags.fault = true ∧ s.streams.wf = true :=
  ⟨.dec, withData 7 11 [4] [2], _, rfl, rfl, by decide, by decide⟩

theorem wit_CompletionChangesOnlyDestinations : ∃ (i : Instr) (s t : State), i ≠ .srst ∧ i ≠ .prime ∧
    s.flags.fault = false ∧ exec i s = .next t ∧ t.flags.fault = false :=
  ⟨.tag, withRegs { Regs.reset with a := 7 }, _, by decide, by decide, rfl, rfl, rfl⟩

theorem wit_EachCommandRaisesOnlyItsFaults :
    (∃ (i : Instr) (s t : State), s.flags.fault = false ∧ exec i s = .next t ∧ t.flags.fault = true ∧ t.fcode.toNat = 7 ∧
      i ≠ .enc ∧ i ≠ .dec) ∧
    (∃ (i : Instr) (s t : State), s.flags.fault = false ∧ exec i s = .next t ∧ t.flags.fault = true ∧ t.fcode.toNat = 8) :=
  ⟨⟨.tag, withXbits 16 (withRegs { Regs.reset with a := 7 }), _, rfl, rfl, rfl, rfl, by decide, by decide⟩,
   ⟨.keygenp, { withJob .keygenp 0 2 State.reset with
      env := { State.reset.env with params := { Params.default with retryCap := some 2 } } }, _, rfl, rfl, rfl, rfl⟩⟩

theorem wit_CommandsEnd : ∃ i : Instr, i ≠ .keygenp ∧ i ≠ .keygenq := ⟨.dec, by decide, by decide⟩

theorem wit_OnlyThreeCommandsDraw :
    (∃ (i : Instr) (s t : State), exec i s = .next t ∧ i ≠ .prime ∧ i ≠ .keygenp ∧ i ≠ .keygenq) ∧
    (∃ (i : Instr) (s t : State), exec i s = .next t ∧ i = .prime) :=
  ⟨⟨.tag, State.reset, _, rfl, by decide, by decide, by decide⟩, ⟨.prime, State.reset, _, rfl, rfl⟩⟩

theorem wit_FaultIsStickyUntilReset : ∃ s t : State, s.Inv ∧ s.flags.fault = true ∧ step s = .next t ∧
    s.env.script.head? ≠ some .hardReset ∧ ∀ k, s.env.script.head? ≠ some (.cmd 0xFF k) :=
  ⟨faulted, _, faulted_inv, rfl, rfl, by decide, fun k => by simp [faulted, withData, State.reset, State.resetIn, Env.initial]⟩

theorem wit_ResultIsWrittenByPrimeOnly : ∃ s t : State, step s = .next t ∧ t.flags.result ≠ s.flags.result :=
  ⟨{ withJob .prime 0 0 (withRegs { Regs.reset with a := 4 }) with
      flags := { done := false, fault := false, result := true } }, _, rfl, by decide⟩

end Sys2Proof.Tests
end

section
/-! PROOFS. A step by its two turns (R18, R19): what it is when the host is silent and when the host moves, and what the
sequencer does with a command that stays busy and with one that is due. The acceptance of a command (R84) shows in STATUS
alone. -/

namespace Sys2Proof.Machine

theorem step_of_silent {s : State} (h : s.env.script = []) : step s = sequencerTurn s := by
  simp [step, hostTurn, h]

theorem step_of_move {s : State} {move : HostMove} {rest : List HostMove} (h : s.env.script = move :: rest) :
    step s = sequencerTurn (hostMove move (s.withScript rest)) := by
  simp [step, hostTurn, h]

theorem sequencerTurn_of_stalled {s : State} {i : Instr} {k n : Nat}
    (h : s.running = some { cmd := i, stall := k + 1, tries := n }) :
    sequencerTurn s = .next { s with running := some { cmd := i, stall := k, tries := n } } := by
  simp [sequencerTurn, h]

theorem sequencerTurn_of_due {s : State} {i : Instr} {n : Nat}
    (h : s.running = some { cmd := i, stall := 0, tries := n }) : sequencerTurn s = exec i s := by
  simp [sequencerTurn, h]

theorem State.Ready.withScript {s : State} (h : s.Ready) (l : List HostMove) : (s.withScript l).Ready := h

/-- R84: a ready block accepts every defined command. -/
theorem hostMove_cmd_of_ready {s : State} {w : Byte} {i : Instr} (stall : Nat) (h : s.Ready)
    (hd : decode w = .command i) : hostMove (.cmd w stall) s = accept i stall s := by
  obtain ⟨hbusy, hfault⟩ := h
  simp [hostMove, issue, hbusy, hfault, hd]

@[simp] theorem accept_running (i : Instr) (k : Nat) (s : State) :
    (accept i k s).running = some { cmd := i, stall := k, tries := 0 } := rfl
@[simp] theorem accept_done (i : Instr) (k : Nat) (s : State) : (accept i k s).flags.done = false := rfl

/-- The running command, the flags and the environment are read at no register or buffer but STATUS (R26). -/
theorem same_of_running_flags_env (s : State) (job : Option Job) (f : Flags) (e : Env) :
    Same [.status] s { s with running := job, flags := f, env := e } := by
  intro g hg
  cases g with
  | status => exact absurd (List.mem_singleton_self _) hg
  | _ => rfl

/-- The step in which a ready block takes a command that is to stay busy. -/
theorem step_of_issue_stalled {s : State} {w : Byte} {i : Instr} {k : Nat} {rest : List HostMove} (hready : s.Ready)
    (hscript : s.env.script = .cmd w (k + 1) :: rest) (hd : decode w = .command i) :
    step s = .next { accept i (k + 1) (s.withScript rest) with
      running := some { cmd := i, stall := k, tries := 0 } } := by
  rw [step_of_move hscript, hostMove_cmd_of_ready _ (hready.withScript rest) hd]
  exact sequencerTurn_of_stalled (accept_running ..)

/-- Settles O4: a step is the host's turn and the sequencer's, and the sequencer only counts a stalled command down. -/
theorem runningCommandShowsNothing : Obligations.RunningCommandShowsNothing := by
  refine ⟨?issued, ?counting, ?due⟩
  case issued =>
    intro s w i k rest hready hscript hd
    exact ⟨_, step_of_issue_stalled hready hscript hd, rfl, accept_done .., same_of_running_flags_env s _ _ _, rfl⟩
  case counting =>
    intro s i k n hsilent hrunning
    rw [step_of_silent hsilent, sequencerTurn_of_stalled hrunning]
  case due =>
    intro s i n hsilent hrunning
    rw [step_of_silent hsilent, sequencerTurn_of_due hrunning]

end Sys2Proof.Machine
end

section
/-! PROOFS. The invariant of the block (`State.Inv`): it holds at reset, and each of the changes a step is made of (R62, R84,
R192, R206) keeps it. -/

namespace Sys2Proof.Machine

/-! ### Reset -/

theorem resetIn_allReset (e : Env) : AllReset (State.resetIn e) :=
  ⟨get_reset, rfl, rfl, rfl, rfl, rfl, rfl, rfl, rfl, rfl, rfl, rfl, rfl⟩

/-- Settles O6: the fields of `State.resetIn` are the table of R34, whatever the environment. -/
theorem resetStateIsAllZero : Obligations.ResetStateIsAllZero := resetIn_allReset .initial

theorem resetIn_inv (e : Env) : (State.resetIn e).Inv where
  positions := rfl
  notDone _ := rfl
  notFault _ := rfl
  recorded := by simp [Flags.reset]
  codes := by simp
  noInfo _ := rfl
  regsFit _ reg := by rw [resetIn_regs, get_reset]; exact fits_zero _
  entryFit _ _ hv := absurd hv (List.not_mem_nil)
  naturals _ reg _ _ := by rw [resetIn_regs, get_reset]

/-- Settles O7: nothing is recorded, every register is 0 and every buffer empty. -/
theorem resetMeetsTheInvariant : Obligations.ResetMeetsTheInvariant := resetIn_inv .initial

/-! ### Changes that keep it -/

/-- Of the environment the invariant reads the parameters alone. -/
theorem State.Inv.withEnv {s : State} (h : s.Inv) {e : Env} (hp : e.params = s.env.params) :
    State.Inv { s with env := e } where
  positions := h.positions
  notDone := h.notDone
  notFault := h.notFault
  recorded := h.recorded
  codes := h.codes
  noInfo := h.noInfo
  regsFit := by simpa only [hp] using h.regsFit
  entryFit := by simpa only [hp] using h.entryFit
  naturals := h.naturals

/-- A busy block stays good while its command goes on, whatever its progress (R25). -/
theorem State.Inv.runOn {s : State} (h : s.Inv) (hbusy : s.busy = true) (job : Job) :
    State.Inv { s with running := some job } :=
  { h with notDone := fun _ => h.notDone hbusy, notFault := fun _ => h.notFault hbusy }

theorem State.Inv.accept {s : State} (h : s.Inv) (hready : s.Ready) (i : Instr) (stall : Nat) :
    (accept i stall s).Inv :=
  { h with notDone := fun _ => rfl, notFault := fun _ => hready.2 }

/-- Both loads replace a buffer and put its position at the start; the ledger's new entries fit (R27, R62). -/
theorem State.Inv.withStreams {s : State} (h : s.Inv) {st : Streams} (hwf : st.wf = true)
    (hfit : s.flags.fault = false → ∀ v ∈ st.ledger, s.env.params.entryFits v = true) :
    State.Inv { s with streams := st } :=
  { h with positions := hwf, entryFit := hfit }

theorem set_fits {ps : Params} {g : Regs} {v : Nat} (hv : ps.fits (v : Nat) = true)
    (h : ∀ reg, ps.fits (g.get reg) = true) (dst reg : IntReg) : ps.fits ((g.set v dst).get reg) = true := by
  by_cases he : reg = dst
  · rw [he, get_set_same]; exact hv
  · rw [get_set_other _ _ he]; exact h reg

/-- A natural within the capacity is written to a register (R22, R24). -/
theorem State.Inv.setReg {s : State} (h : s.Inv) {v : Nat} (hv : s.env.params.fits (v : Nat) = true) (dst : IntReg) :
    (s.withRegs (s.regs.set v dst)).Inv :=
  { h with
    regsFit := fun hf => set_fits hv (h.regsFit hf) dst
    naturals := fun hf reg hx hy => set_nonneg v (h.naturals hf reg hx hy) }

/-! ### Fault entry and completion -/

theorem code_ne_zero (c : Cause) : c.code ≠ 0 := by cases c <;> decide

theorem code_le (c : Cause) : c.code.toNat ≤ 8 := by cases c <;> decide

/-- With the fault recorded nothing is left to show of registers and ledger entries (R207). -/
theorem enterFault_inv (t : Trap) {s : State} (hwf : s.streams.wf = true) : (enterFault t s).Inv where
  positions := hwf
  notDone _ := rfl
  notFault hbusy := nomatch hbusy
  recorded := iff_of_true rfl (code_ne_zero t.cause)
  codes := code_le t.cause
  noInfo hf := nomatch hf
  regsFit hf := nomatch hf
  entryFit hf := nomatch hf
  naturals hf := nomatch hf

theorem raise_inv (i : Instr) (t : Trap) {s : State} (hwf : s.streams.wf = true) : (raise i t s).Inv :=
  enterFault_inv t (raise_wf i t s hwf)

/-- A command that completes in a good state without a recorded fault leaves a good state. -/
theorem Written.inv {i : Instr} {s t : State} (hw : Written i s t) (h : s.Inv) (hfault : s.flags.fault = false) :
    t.Inv := by
  obtain ⟨o, henv, -⟩ := hw.outside
  have hps : t.env.params = s.env.params := by rw [henv]
  have hidle : t.busy = false := by rw [State.busy, hw.ended.1]; rfl
  exact {
    positions := hw.wf h.positions
    notDone := fun hbusy => absurd hbusy (by simp [hidle])
    notFault := fun _ => hw.fault.trans hfault
    recorded := by rw [hw.fault, hw.codes.1]; exact h.recorded
    codes := by rw [hw.codes.1]; exact h.codes
    noInfo := fun _ => hw.codes.2.trans (h.noInfo hfault)
    regsFit := fun _ => by rw [hps]; exact hw.fits (h.regsFit hfault)
    entryFit := fun _ => by rw [hps]; exact hw.entries (h.entryFit hfault)
    naturals := fun _ reg hx hy => hw.natural reg hx hy (h.naturals hfault reg hx hy) }

/-! ### The two turns of a step -/

theorem hostMove_inv (move : HostMove) {s : State} (h : s.Inv) : (hostMove move s).Inv := by
  rcases hostMove_cases move s with ⟨e, hm, hp, -⟩ | ⟨reg, v, -, hv, hm⟩ | ⟨bs, -, hm⟩ | ⟨ls, -, hls, hm⟩ |
    ⟨i, k, hready, hm⟩ | ⟨-, hm⟩ | ⟨-, hm⟩ <;> rw [hm]
  · exact h.withEnv hp
  · exact (h.setReg hv reg).withEnv rfl
  · obtain ⟨-, hlpos⟩ := (wf_iff _).mp h.positions
    exact (h.withStreams (st := { s.streams with inp := bs, ipos := 0 }) ((wf_iff _).mpr ⟨Nat.zero_le _, hlpos⟩)
      h.entryFit).withEnv rfl
  · obtain ⟨hipos, -⟩ := (wf_iff _).mp h.positions
    exact (h.withStreams (st := { s.streams with ledger := ls, lpos := 0 }) ((wf_iff _).mpr ⟨hipos, Nat.zero_le _⟩)
      fun _ => hls).withEnv rfl
  · exact h.accept hready i k
  · exact (enterFault_inv _ h.positions).withEnv rfl
  · exact (resetIn_inv s.env).withEnv rfl

theorem hostTurn_inv {s : State} (h : s.Inv) : (hostTurn s).Inv := by
  rcases hostTurn_cases s with ⟨-, ht⟩ | ⟨move, rest, -, ht⟩ <;> rw [ht]
  · exact h
  · exact hostMove_inv move (h.withEnv rfl)

/-- A command takes its effect in a busy block only, and there no fault is recorded (R28). -/
theorem exec_inv {i : Instr} {s t : State} (h : s.Inv) (hbusy : s.busy = true) (he : exec i s = .next t) : t.Inv := by
  rcases exec_ends i s t he with ⟨trap, o, rfl, -⟩ | ⟨-, rfl⟩ | ⟨o, -, rfl⟩ | ⟨-, hw⟩
  · exact raise_inv i trap (s := s.withOracle o) h.positions
  · exact resetIn_inv s.env
  · exact (h.withEnv (e := { s.env with oracle := o }) rfl).runOn hbusy _
  · exact hw.inv h (h.notFault hbusy)

theorem sequencerTurn_inv {s t : State} (h : s.Inv) (he : sequencerTurn s = .next t) : t.Inv := by
  rcases sequencerTurn_cases s with ⟨-, ht⟩ | ⟨i, k, n, hrun, ht⟩ | ⟨i, n, hrun, ht⟩ <;> rw [ht] at he
  · cases he; exact h
  · cases he; exact h.runOn (by simp [State.busy, hrun]) _
  · exact exec_inv h (by simp [State.busy, hrun]) he

/-- Settles O8: the host's turn keeps the invariant, and so does the sequencer's. -/
theorem stepKeepsTheInvariant : Obligations.StepKeepsTheInvariant :=
  fun _ _ h he => sequencerTurn_inv (hostTurn_inv h) he

end Sys2Proof.Machine
end

section
/-! PROOFS. The word of `STATUS` (R26), and who writes `RESULT` (R28, R113) and who draws from the oracles (R31). -/

namespace Sys2Proof.Machine

/-! ### STATUS -/

theorem statusWord_bit (s : State) {b : Nat} (hb : b < 32) :
    (statusWord s).getLsbD b = decide ((s.busy.toNat + 2 * s.flags.done.toNat + 4 * s.flags.fault.toNat +
      8 * s.flags.result.toNat) / 2 ^ b % 2 = 1) := by
  rw [statusWord, BitVec.getLsbD_ofNat, Nat.testBit_eq_decide_div_mod_eq, decide_eq_true hb, Bool.true_and]

theorem statusWord_lt (s : State) : (statusWord s).toNat < 2 ^ 4 := by
  have := Bool.toNat_lt s.busy
  have := Bool.toNat_lt s.flags.done
  have := Bool.toNat_lt s.flags.fault
  have := Bool.toNat_lt s.flags.result
  simp only [statusWord, BitVec.toNat_ofNat]
  omega

theorem decide_eq_of_toNat {v : Bool} {n : Nat} (h : n = v.toNat) : decide (n = 1) = v := by
  subst h; cases v <;> rfl

/-- Settles O18: the four flags are the binary digits of a number below 16. -/
theorem statusWordFields : Obligations.StatusWordFields := by
  intro s
  have hbusy := Bool.toNat_lt s.busy
  have hdone := Bool.toNat_lt s.flags.done
  have hfault := Bool.toNat_lt s.flags.fault
  refine ⟨?_, ?_, ?_, ?_, fun b hb => ?_⟩
  · rw [statusWord_bit s (by decide)]; exact decide_eq_of_toNat (by omega)
  · rw [statusWord_bit s (by decide)]; exact decide_eq_of_toNat (by omega)
  · rw [statusWord_bit s (by decide)]; exact decide_eq_of_toNat (by omega)
  · have := Bool.toNat_lt s.flags.result
    rw [statusWord_bit s (by decide)]; exact decide_eq_of_toNat (by omega)
  · exact Nat.testBit_lt_two_pow ((statusWord_lt s).trans_le (Nat.pow_le_pow_right (by decide) hb))

/-! ### RESULT -/

theorem hostMove_result (move : HostMove) (s : State) : (hostMove move s).flags.result = s.flags.result ∨
    move = .hardReset ∨ ∃ k, move = .cmd 0xFF k := by
  rcases hostMove_cases move s with ⟨e, hm, -⟩ | ⟨reg, v, -, -, hm⟩ | ⟨bs, -, hm⟩ | ⟨ls, -, -, hm⟩ | ⟨i, k, -, hm⟩ |
    ⟨-, hm⟩ | ⟨hreset, -⟩
  case inr.inr.inr.inr.inr.inr => exact .inr (hreset.imp id fun ⟨k, hk, _⟩ => ⟨k, hk⟩)
  all_goals rw [hm]; exact .inl rfl

theorem hostTurn_result (s : State) : (hostTurn s).flags.result = s.flags.result ∨
    s.env.script.head? = some .hardReset ∨ ∃ k, s.env.script.head? = some (.cmd 0xFF k) := by
  rcases hostTurn_cases s with ⟨-, ht⟩ | ⟨move, rest, hs, ht⟩ <;> rw [ht]
  · exact .inl rfl
  · simpa [hs] using hostMove_result move (s.withScript rest)

theorem exec_result {i : Instr} {s t : State} (he : exec i s = .next t) :
    t.flags.result = s.flags.result ∨ i = .prime ∨ i = .srst := by
  rcases exec_ends i s t he with ⟨trap, o, rfl, -⟩ | ⟨hi, -⟩ | ⟨o, -, rfl⟩ | ⟨-, hw⟩
  · exact .inl (raise_result ..)
  · exact .inr (.inr hi)
  · exact .inl rfl
  · by_cases hi : i = .prime
    · exact .inr (.inl hi)
    · exact .inl (hw.result hi)

theorem sequencerTurn_result {s t : State} (he : sequencerTurn s = .next t) : t.flags.result = s.flags.result ∨
    ∃ job, s.running = some job ∧ (job.cmd = .prime ∨ job.cmd = .srst) := by
  rcases sequencerTurn_cases s with ⟨-, ht⟩ | ⟨i, k, n, -, ht⟩ | ⟨i, n, hrun, ht⟩ <;> rw [ht] at he
  · cases he; exact .inl rfl
  · cases he; exact .inl rfl
  · exact (exec_result he).imp id fun hi => ⟨_, hrun, hi⟩

/-- Settles O60: either the host's turn wrote it or the sequencer's did. -/
theorem resultIsWrittenByPrimeOnly : Obligations.ResultIsWrittenByPrimeOnly := by
  intro s t he hne
  rcases sequencerTurn_result he with hseq | hrun
  · exact .inr ((hostTurn_result s).resolve_left fun hhost => hne (hseq.trans hhost))
  · exact .inl hrun

/-! ### The oracles -/

/-- Settles O58: the environment in each of the four ways a command's turn can go. -/
theorem onlyThreeCommandsDraw : Obligations.OnlyThreeCommandsDraw := by
  intro i s t he
  rcases exec_ends i s t he with ⟨trap, o, rfl, -, ho, -⟩ | ⟨-, rfl⟩ | ⟨o, hi, rfl⟩ | ⟨-, hw⟩
  · rw [raise_oracle, withOracle_oracle]
    refine ⟨fun _ hp hq => ho hp hq, fun hi => ?_⟩
    rw [ho (by simp [hi]) (by simp [hi])]
    exact ⟨rfl, rfl⟩
  · exact ⟨fun _ _ _ => rfl, fun _ => ⟨rfl, rfl⟩⟩
  · exact ⟨fun _ hp hq => absurd hi (not_or.mpr ⟨hp, hq⟩), fun hp => by simp [hp] at hi⟩
  · obtain ⟨o, henv, hkeep, hprime⟩ := hw.outside
    rw [henv]
    exact ⟨hkeep, hprime⟩

end Sys2Proof.Machine
end

section
/-! PROOFS. A running command that raises a fault (R206, R207), and what overflows a finite `XBITS` (R24, R204): the product
of the key, what ENC and DEC read first, and the temporaries of key generation. -/

namespace Sys2Proof.Machine

/-! ### The fault of a running command -/

theorem destinations_targets (i : Instr) : (destinations i).map Dest.target = writesOf i := by cases i <;> rfl

/-- R206, R207: a running command that raises a fault has faulted with that code and information. -/
theorem raise_faultedAs (i : Instr) (t : Trap) (s : State) :
    FaultedAs t.cause.code.toNat t.info (writesOf i) s (raise i t s) := by
  refine ⟨rfl, raise_done .., raise_fault .., raise_result .., rfl, rfl, fun g hg => ?_, ⟨raise_params .., raise_script ..,
    raise_reply ..⟩, raise_oracle ..⟩
  simp only [List.mem_cons, not_or, ← destinations_targets, List.mem_map, not_exists, not_and] at hg
  obtain ⟨hstatus, hfcode, hfinfo, hdest⟩ := hg
  exact raise_read i t s hdest hstatus hfcode hfinfo

theorem settle_faultedAs {α : Type} {i : Instr} {result : Except Trap α} {write : α → State → State} {s : State} {t : Trap}
    (h : result = .error t) :
    FaultedAs t.cause.code.toNat t.info (writesOf i) s (settle i result write s) := by
  rw [h]; exact raise_faultedAs i t s

/-! A command that reads the key faults where its calculation on the naturals in `P` and `Q` does. -/

section
variable {s : State} {p q : Nat} (hkey : s.HoldsKey p q)
include hkey

theorem State.HoldsKey.toNat : s.regs.p.toNat = p ∧ s.regs.q.toNat = q := by
  obtain ⟨hp, hq⟩ := hkey
  exact ⟨by rw [hp, Int.toNat_natCast], by rw [hq, Int.toNat_natCast]⟩

theorem exec_crt_of_error {c : Cause} (h : crtRoots s.env.params s.regs.a p q = .error c) :
    ∃ t, exec .crt s = .next t ∧ FaultedAs c.code.toNat 0 nine s t := by
  obtain ⟨hp, hq⟩ := hkey.toNat
  refine ⟨_, rfl, settle_faultedAs (t := { cause := c, info := 0 }) ?_⟩
  rw [hp, hq, h, atBlock]

theorem exec_enc_of_error {trap : Trap} (h : encCalc s.env.params p q s.streams = .error trap) :
    ∃ t, exec .enc s = .next t ∧ FaultedAs trap.cause.code.toNat trap.info (writesOf .enc) s t := by
  obtain ⟨hp, hq⟩ := hkey.toNat
  exact ⟨_, rfl, settle_faultedAs (by rw [hp, hq, h])⟩

theorem exec_dec_of_error {trap : Trap} (h : decCalc s.env.params p q s.streams = .error trap) :
    ∃ t, exec .dec s = .next t ∧ FaultedAs trap.cause.code.toNat trap.info (writesOf .dec) s t := by
  obtain ⟨hp, hq⟩ := hkey.toNat
  exact ⟨_, rfl, settle_faultedAs (by rw [hp, hq, h])⟩

end

/-! ### Overflow of a finite XBITS -/

theorem fits_iff {ps : Params} {bits : Nat} (hb : ps.xbits = some bits) (v : Int) :
    ps.fits v = true ↔ v.natAbs < 2 ^ bits := by
  simp [Params.fits, hb]

theorem hold_of_lt {ps : Params} {bits v : Nat} (hb : ps.xbits = some bits) (hv : v < 2 ^ bits) : hold ps v = .ok v :=
  if_pos ((fits_iff hb v).mpr hv)

theorem hold_of_le {ps : Params} {bits v : Nat} (hb : ps.xbits = some bits) (hv : 2 ^ bits ≤ v) :
    hold ps v = .error .capacityExceeded :=
  if_neg fun hf => Nat.not_lt.mpr hv ((fits_iff hb v).mp hf)

section
variable {ps : Params} {bits : Nat} (hb : ps.xbits = some bits)
include hb

theorem crtRoots_of_product {p q : Nat} (h : 2 ^ bits ≤ p * q) (c : Nat) :
    crtRoots ps c p q = .error .capacityExceeded := by
  simp only [crtRoots, hold_of_le hb h]; rfl

theorem encCalc_of_product {p q : Nat} (h : 2 ^ bits ≤ p * q) (st : Streams) :
    encCalc ps p q st = .error { cause := .capacityExceeded, info := 0 } := by
  simp only [encCalc, hold_of_le hb h, atBlock]

theorem decCalc_of_product {p q : Nat} (h : 2 ^ bits ≤ p * q) (st : Streams) :
    decCalc ps p q st = .error { cause := .capacityExceeded, info := 0 } := by
  simp only [decCalc, hold_of_le hb h, atBlock]

/-- A chunk overflows by its length, or, under a modulus that is not 0, by its integer (R16, R171). -/
theorem encBlock_of_overflow {n : Nat} {chunk : List Byte}
    (h : 2 ^ bits ≤ chunk.length ∨ (n ≠ 0 ∧ 2 ^ bits ≤ beToNat chunk)) (st : Streams) :
    encBlock ps n chunk st = .error .capacityExceeded := by
  by_cases hlen : 2 ^ bits ≤ chunk.length
  · simp only [encBlock, hold_of_le hb hlen]
  · obtain ⟨hn, hm⟩ := h.resolve_left hlen
    have hblock : encryptBlock ps chunk n = .error .capacityExceeded := by
      simp only [encryptBlock, hold_of_le hb hm]; rfl
    simp only [encBlock, hold_of_lt hb (Nat.lt_of_not_le hlen), if_neg hn, hblock]

/-- The ciphertext block that was asked for was read, and its integer overflows (R176). -/
theorem decBlock_of_overflow {p q len : Nat} {cb : List Byte} (hlen : cb.length = len) (h : 2 ^ bits ≤ beToNat cb) :
    decBlock ps p q len cb = .error .capacityExceeded := by
  simp only [decBlock, hlen, lt_irrefl, if_false, hold_of_le hb h]

/-- What overflows is no empty chunk, so the loop of ENC comes to it. -/
theorem encCalc_of_firstChunk {p q : Nat} {st : Streams} (hn : p * q < 2 ^ bits)
    (h : 2 ^ bits ≤ ((st.inp.drop st.ipos).take 16).length ∨
      (p * q ≠ 0 ∧ 2 ^ bits ≤ beToNat ((st.inp.drop st.ipos).take 16))) :
    encCalc ps p q st = .error { cause := .capacityExceeded, info := 0 } := by
  have hne : (st.inp.drop st.ipos).take 16 ≠ [] := by
    intro hnil
    have := Nat.two_pow_pos bits
    simp only [hnil, List.length_nil, beToNat_nil] at h
    omega
  simp only [encCalc, hold_of_lt hb hn, atBlock, encryptLoop, inRead_fst, blockBytes_eq, if_neg hne,
    encBlock_of_overflow hb h]

/-- What overflows is the entry itself or the integer of the bytes it asks for, which are then not none. -/
theorem decCalc_of_firstEntry {p q len : Nat} {more : List Nat} {st : Streams} (hn : p * q < 2 ^ bits)
    (hl : st.ledger.drop st.lpos = len :: more)
    (h : 2 ^ bits ≤ len ∨ (len ≤ st.inp.length - st.ipos ∧ 2 ^ bits ≤ beToNat ((st.inp.drop st.ipos).take len))) :
    decCalc ps p q st = .error { cause := .capacityExceeded, info := 0 } := by
  obtain ⟨k, hk⟩ : ∃ k, st.ledger.length - st.lpos = k + 1 :=
    ⟨more.length, by rw [← List.length_drop, hl, List.length_cons]⟩
  have hnext := (ledgerNext_drop (st := { st with out := [] }) hl).1
  simp only [decCalc, hold_of_lt hb hn, atBlock, hk, decryptLoop, hnext]
  by_cases hlen : 2 ^ bits ≤ len
  · simp only [hold_of_le hb hlen]
  · obtain ⟨hleft, hc⟩ := h.resolve_left hlen
    have hne : (st.inp.drop st.ipos).take len ≠ [] := by
      intro hnil
      have := Nat.two_pow_pos bits
      rw [hnil, beToNat_nil] at hc
      omega
    have hread : ((st.inp.drop st.ipos).take len).length = len := by
      rw [List.length_take, List.length_drop, min_eq_left hleft]
    simp only [hold_of_lt hb (Nat.lt_of_not_le hlen), inRead_fst, if_neg hne, decBlock_of_overflow hb hread hc]

end

/-- Settles O23: each overflow is the first fault its calculation reaches (R211), with information 0. -/
theorem capacityFaultReplacesTheWrite : Obligations.CapacityFaultReplacesTheWrite := by
  intro s bits p q hb hkey
  refine ⟨fun h => ⟨?crt, ?enc, ?dec⟩, fun hn h => ?chunk, fun len more hn hl h => ?entry, fits_iff hb⟩
  case crt => exact exec_crt_of_error hkey (crtRoots_of_product hb h _)
  case enc => exact exec_enc_of_error hkey (encCalc_of_product hb h _)
  case dec => exact exec_dec_of_error hkey (decCalc_of_product hb h _)
  case chunk => exact exec_enc_of_error hkey (encCalc_of_firstChunk hb hn h)
  case entry => exact exec_dec_of_error hkey (decCalc_of_firstEntry hb hn hl h)

/-! ### Key generation -/

theorem exec_of_keyCommand {i : Instr} {dst : IntReg} (h : KeyCommand i dst) (s : State) :
    exec i s = .next (keygenPass i dst s) := by
  rcases h with ⟨rfl, rfl⟩ | ⟨rfl, rfl⟩ <;> rfl

theorem writesOf_keyCommand {i : Instr} {dst : IntReg} (h : KeyCommand i dst) : writesOf i = [.int dst] := by
  rcases h with ⟨rfl, rfl⟩ | ⟨rfl, rfl⟩ <;> rfl

/-- A pass whose attempt faults ends the command with that fault, after its draws (R120). -/
theorem exec_of_faultedAttempt {i : Instr} {dst : IntReg} {s : State} {c : Cause} {o : Oracle} (hi : KeyCommand i dst)
    (h : keyAttempt s.env.params s.tries s.env.oracle = (.fault c, o)) :
    ∃ t, exec i s = .next t ∧ FaultedAs c.code.toNat 0 [.int dst] (s.withOracle o) t := by
  refine ⟨_, exec_of_keyCommand hi s, ?_⟩
  rw [keygenPass, h, ← writesOf_keyCommand hi]
  exact raise_faultedAs i { cause := c, info := 0 } (s.withOracle o)

theorem keyAttempt_of_tries {ps : Params} {bits tries : Nat} (hb : ps.xbits = some bits) (hc : ps.retryCap ≠ some tries)
    (h : 2 ^ bits ≤ tries + 1) (o : Oracle) : keyAttempt ps tries o = (.fault .capacityExceeded, o) := by
  have hfit : ¬ ps.fits (tries + 1 : Nat) = true := fun hf => Nat.not_lt.mpr h ((fits_iff hb _).mp hf)
  rw [keyAttempt, if_neg hc, if_neg hfit]

/-- A sample that is not negative overflows by itself, or, where the test reaches it, by its round count (R116, R120). -/
theorem judgeSample_of_overflow {ps : Params} {bits : Nat} {bs : List Byte} (hb : ps.xbits = some bits)
    (hneg : negativeSample bs = false)
    (h : 2 ^ bits ≤ beToNat bs ∨ (3 ≤ beToNat bs ∧ beToNat bs % 2 = 1 ∧
      2 ^ bits ≤ roundCount ps.rounds (ndigits (beToNat bs)))) (o : Oracle) :
    judgeSample ps bs o = (.fault .capacityExceeded, o) := by
  simp only [judgeSample, hneg, Bool.false_eq_true, if_false]
  by_cases hv : ps.fits (beToNat bs) = true
  · obtain ⟨h3, hodd, hr⟩ := h.resolve_left (Nat.not_le.mpr ((fits_iff hb _).mp hv))
    have hrounds : roundsOverflow ps (beToNat bs) = true := by
      have : ¬ ps.fits (roundCount ps.rounds (ndigits (beToNat bs)) : Nat) = true :=
        fun hf => Nat.not_lt.mpr hr ((fits_iff hb _).mp hf)
      simp [roundsOverflow, hodd, this, show 2 < beToNat bs from h3]
    simp only [hv, if_true, heldTest, hrounds]
  · rw [if_neg hv]

/-- Settles O42: the count of tries is held before the draw, the sample and its round count before any base is drawn. -/
theorem keyGenerationHoldsItsTemporaries : Obligations.KeyGenerationHoldsItsTemporaries := by
  intro s i dst bits hi hb
  refine ⟨fun hcap htries => ?tries, fun bs rest hs hpos h => ?sample⟩
  case tries => exact exec_of_faultedAttempt hi (keyAttempt_of_tries hb hcap htries s.env.oracle)
  case sample =>
    obtain ⟨hbytes, hlen, hcap, hfit⟩ := hs
    have hneg : negativeSample bs = false :=
      Bool.eq_false_iff.mpr fun hn => Nat.not_le.mpr hpos ((negativeSample_iff bs hlen).mp hn)
    refine exec_of_faultedAttempt (c := .capacityExceeded) hi ?_
    rw [keyAttempt_scripted hbytes hlen hcap hfit]
    refine judgeSample_of_overflow hb hneg (h.imp id fun ⟨h3, hodd, hr⟩ => ⟨h3, hodd, ?_⟩) _
    rwa [ndigits_eq _ (by omega)]

end Sys2Proof.Machine
end

section
/-! PROOFS. The host's moves by what they name (R51, R62) and when they are taken (R63): `WR`, `RD` and the two loads on an
idle block, what a busy block refuses, and what every state refuses. -/

namespace Sys2Proof.Machine

/-! ### Register numbers and well-formed moves (R51, R62) -/

theorem ofNumber_eq_some {number : Byte} {t : Target} : Target.ofNumber number = some t ↔ t.number = number :=
  ⟨number_of_ofNumber, fun h => h ▸ ofNumber_number t⟩

theorem ofNumber_reg (reg : IntReg) : Target.ofNumber reg.number = some (.int reg) := ofNumber_number (.int reg)

/-- R62: a well-formed `WR` names a host-writable register. -/
theorem wf_wr_iff {number : Byte} {bs : List Byte} :
    (HostMove.wr number bs).wf = true ↔ ∃ reg : IntReg, reg.hostWritable = true ∧ reg.number = number := by
  constructor
  · intro h
    simp only [HostMove.wf] at h
    split at h
    case h_1 reg hreg => exact ⟨reg, h, number_of_ofNumber hreg⟩
    all_goals exact nomatch h
  · rintro ⟨reg, hw, rfl⟩
    simp only [HostMove.wf, ofNumber_reg, hw]

/-- R62: a well-formed `RD` names something that has a number. -/
theorem wf_rd_iff {number : Byte} : (HostMove.rd number).wf = true ↔ ∃ t : Target, t.number = number := by
  simp only [HostMove.wf, Option.isSome_iff_exists, ofNumber_eq_some]

/-- R51: nothing has a number that is reserved. -/
theorem number_not_reserved (t : Target) :
    ¬ ((0x17 ≤ t.number.toNat ∧ t.number.toNat ≤ 0x1F) ∨ 0x23 ≤ t.number.toNat) := by
  cases t with
  | int reg => cases reg <;> decide
  | _ => decide

/-- R21, R51: the numbers below 0x17 and from 0x20 to 0x22 that are of no host-writable register. -/
theorem hostWritable_number_notMem (reg : IntReg) (h : reg.hostWritable = true) :
    reg.number ∉ [(0x02 : Byte), 0x06, 0x07, 0x08, 0x09, 0x0A, 0x0F, 0x11, 0x12, 0x13, 0x14, 0x15, 0x16, 0x21] ∧
    reg.number ∉ [(0x10 : Byte), 0x20, 0x22] := by
  cases reg <;> revert h <;> decide

/-! ### When a move is taken (R63) -/

theorem whenIdle_of_busy {s : State} (h : s.busy = true) (move : State → State) :
    s.whenIdle move = s.reply .refused := if_pos h

theorem whenIdle_of_idle {s : State} (h : s.busy = false) (move : State → State) : s.whenIdle move = move s :=
  if_neg (Bool.eq_false_iff.mp h)

theorem whenIdle_of_refused {s : State} {move : State → State} (h : move s = s.reply .refused) :
    s.whenIdle move = s.reply .refused := by
  rw [State.whenIdle, h, ite_self]

/-- R62: an ill-formed move is refused in every state. -/
theorem hostMove_of_not_wf {move : HostMove} (h : ¬ move.wf = true) (s : State) :
    hostMove move s = s.reply .refused := by
  cases move with
  | wr number bs =>
    refine whenIdle_of_refused ?_
    unfold writeMove
    split
    case h_1 reg hreg =>
      have hw : ¬ reg.hostWritable = true := fun hw => h (wf_wr_iff.mpr ⟨reg, hw, number_of_ofNumber hreg⟩)
      exact if_neg fun hc => hw (Bool.and_eq_true_iff.mp hc).1
    all_goals rfl
  | rd number =>
    simp only [hostMove, readMove]
    split
    case h_1 t ht => exact absurd (wf_rd_iff.mpr ⟨t, number_of_ofNumber ht⟩) h
    case h_2 => rfl
  | _ => exact absurd rfl h

/-- Settles O14: each of these moves is ill-formed, by the numbers of what it could name. -/
theorem illFormedMovesAreRefused : Obligations.IllFormedMovesAreRefused := by
  intro s number bs
  refine ⟨fun hn => hostMove_of_not_wf ?notWritable s,
    fun hn => ⟨hostMove_of_not_wf ?reservedWr s, hostMove_of_not_wf ?reservedRd s⟩, fun hn => hostMove_of_not_wf ?log12 s⟩
  case notWritable =>
    rw [wf_wr_iff]
    rintro ⟨reg, hw, rfl⟩
    exact (hostWritable_number_notMem reg hw).1 hn
  case reservedWr =>
    rw [wf_wr_iff]
    rintro ⟨reg, -, rfl⟩
    exact number_not_reserved (.int reg) hn
  case reservedRd =>
    rw [wf_rd_iff]
    rintro ⟨t, rfl⟩
    exact number_not_reserved t hn
  case log12 =>
    rw [wf_wr_iff]
    rintro ⟨reg, hw, rfl⟩
    exact (hostWritable_number_notMem reg hw).2 hn

/-! ### RD (R62, R63) -/

theorem hostMove_rd (t : Target) (s : State) :
    hostMove (.rd t.number) s = if s.busy && t != .status then s.reply .refused else s.reply (.value (s.read t)) := by
  simp only [hostMove, readMove, ofNumber_number]

theorem hostMove_rd_of_idle {s : State} (h : s.busy = false) (t : Target) :
    hostMove (.rd t.number) s = s.reply (.value (s.read t)) := by
  rw [hostMove_rd, h]; rfl

theorem hostMove_rd_status (s : State) :
    hostMove (.rd 0x11) s = s.reply (.value (.number (statusWord s).toNat)) := by
  rw [show (0x11 : Byte) = Target.status.number from rfl, hostMove_rd, bne_self_eq_false, Bool.and_false]; rfl

theorem hostMove_rd_of_busy {s : State} (h : s.busy = true) {number : Byte} (hn : number ≠ 0x11) :
    hostMove (.rd number) s = s.reply .refused := by
  by_cases hwf : (HostMove.rd number).wf = true
  · obtain ⟨t, rfl⟩ := wf_rd_iff.mp hwf
    have ht : (t != .status) = true := bne_iff_ne.mpr fun he => hn (congrArg Target.number he)
    rw [hostMove_rd, h, ht]; rfl
  · exact hostMove_of_not_wf hwf s

/-- Settles O17: each number is that of what it names (R51), and a read on an idle block returns `State.read` of that. -/
theorem hostReadsReturnTheValue : Obligations.HostReadsReturnTheValue := by
  intro s hidle
  have hrd := hostMove_rd_of_idle hidle
  refine ⟨fun number reg hmem => ?register, hrd .cmd, hrd .status, hrd .fcode, hrd .finfo, hrd .blkcnt, hrd .ipos,
    hrd .lpos, hrd .inp, hrd .out, hrd .ledger⟩
  case register =>
    have hnumber : ∀ e ∈ [((0x00 : Byte), IntReg.p), (0x01, .q), (0x02, .n), (0x03, .a), (0x04, .b), (0x05, .m), (0x06, .r),
        (0x07, .x), (0x08, .y), (0x09, .mp), (0x0A, .mq), (0x0B, .m1), (0x0C, .m2), (0x0D, .m3), (0x0E, .m4),
        (0x0F, .sel)], e.1 = e.2.number := by decide
    obtain rfl : number = reg.number := hnumber _ hmem
    exact hrd (.int reg)

/-! ### A busy block -/

/-- Settles O13: of the moves that are not refused, `CMD` is ignored (R84) and hard reset resets (R230). -/
theorem movesAreRefusedWhileBusy : Obligations.MovesAreRefusedWhileBusy := fun s hbusy =>
  ⟨fun _ _ => whenIdle_of_busy hbusy _, fun _ => whenIdle_of_busy hbusy _, fun _ => whenIdle_of_busy hbusy _,
   fun _ hn => hostMove_rd_of_busy hbusy hn, hostMove_rd_status s, fun _ _ => if_pos hbusy, resetIn_allReset _⟩

/-! ### WR on an idle block (R22, R24, R62) -/

theorem hostMove_wr_of_idle {s : State} (h : s.busy = false) (reg : IntReg) (bs : List Byte) :
    hostMove (.wr reg.number bs) s = if reg.hostWritable && s.env.params.fits (beToNat bs : Nat) then
      (s.withRegs (s.regs.set (beToNat bs : Nat) reg)).reply .accepted else s.reply .refused := by
  simp only [hostMove, whenIdle_of_idle h, writeMove, ofNumber_reg]

/-- The register written is read at its own number alone (R51), and the reply at none. -/
theorem same_of_set_reply (s : State) (v : Int) (reg : IntReg) (w : Reply) :
    Same [.int reg] s ((s.withRegs (s.regs.set v reg)).reply w) := by
  intro g hg
  cases g with
  | int other =>
    have hne : other ≠ reg := fun he => hg (by rw [he]; exact List.mem_singleton_self _)
    exact congrArg HostValue.number (get_set_other s.regs v hne)
  | _ => rfl

/-- Settles O15: the nine registers are host-writable, and the bytes are the digits of the natural to base 256 (R12). -/
theorem hostWriteStoresTheNatural : Obligations.HostWriteStoresTheNatural := by
  intro s number reg bs hidle hmem
  have hnine : ∀ e ∈ [((0x00 : Byte), IntReg.p), (0x01, .q), (0x03, .a), (0x04, .b), (0x05, .m), (0x0B, .m1), (0x0C, .m2),
      (0x0D, .m3), (0x0E, .m4)], e.1 = e.2.number ∧ e.2.hostWritable = true := by decide
  obtain ⟨rfl, hw⟩ : number = reg.number ∧ reg.hostWritable = true := hnine _ hmem
  rw [ofDigits_bytes, hostMove_wr_of_idle hidle, hw, Bool.true_and]
  refine ⟨fun hfit => ?stored, fun hfit => if_neg (Bool.eq_false_iff.mp hfit)⟩
  case stored =>
    rw [if_pos hfit]
    exact ⟨get_set_same .., same_of_set_reply s _ reg _, rfl⟩

/-! ### The loads on an idle block (R27, R62) -/

theorem loadLedgerMove_of_fits {s : State} {ls : List Nat} (h : ∀ v ∈ ls, s.env.params.entryFits v = true) :
    loadLedgerMove ls s = { s with
      streams := { s.streams with ledger := ls, lpos := 0 }, env := { s.env with reply := .accepted } } :=
  if_pos (List.all_eq_true.mpr h)

theorem loadLedgerMove_of_not_fits {s : State} {ls : List Nat} (h : ∃ v ∈ ls, s.env.params.entryFits v = false) :
    loadLedgerMove ls s = s.reply .refused := by
  obtain ⟨v, hv, hfit⟩ := h
  exact if_neg fun hall => by simp [List.all_eq_true.mp hall v hv] at hfit

/-- Settles O16: an idle block takes either load, whatever its flags; the entries of a ledger are all checked first. -/
theorem hostLoadsReplaceTheBuffer : Obligations.HostLoadsReplaceTheBuffer := fun _ hidle =>
  ⟨fun _ => whenIdle_of_idle hidle _, fun _ hfit => (whenIdle_of_idle hidle _).trans (loadLedgerMove_of_fits hfit),
   fun _ hbad => (whenIdle_of_idle hidle _).trans (loadLedgerMove_of_not_fits hbad)⟩

end Sys2Proof.Machine
end

section
/-! PROOFS. The opcode map read both ways (R83, R85, R86): what decodes to a command, what is reserved, and that the two
exhaust the 256 words. -/

namespace Sys2Proof

/-- R86: the encoder's word of a command is the word of its row. -/
@[simp] theorem decode_encode (i : Instr) : decode (encode i) = .command i := by
  cases i <;> rfl

/-- R85, R86: a reserved word is reported by itself. -/
theorem eq_of_decode_reserved {w v : Byte} (h : decode w = .reserved v) : v = w := by
  unfold decode at h
  split at h
  case h_1 row hrow => exact nomatch h
  case h_2 hnone => exact (Decoded.reserved.inj h).symm

/-- R85: no OPCODE stands in the reserved space. -/
theorem encode_not_reserved (i : Instr) : ¬ (0x0D ≤ (encode i).toNat ∧ (encode i).toNat ≤ 0xFE) := by
  cases i <;> decide

/-- R83: outside the reserved space every word is the OPCODE of a row, 0x00 to 0x0C of the first thirteen and 0xFF of the
last. -/
theorem exists_row_of_not_reserved {w : Byte} (h : ¬ (0x0D ≤ w.toNat ∧ w.toNat ≤ 0xFE)) :
    ∃ row ∈ opcodeTable, row.bits = w := by
  have hfirst : ∀ n < 0x0D, ∃ row ∈ opcodeTable, row.bits = BitVec.ofNat 8 n := by decide
  have hlast : ∃ row ∈ opcodeTable, row.bits = 0xFF := by decide
  have hlt := w.isLt
  rcases (by omega : w.toNat < 0x0D ∨ w.toNat = 0xFF) with hw | hw
  · simpa using hfirst w.toNat hw
  · rwa [show w = 0xFF from BitVec.eq_of_toNat_eq hw]

/-- R85: the reserved words are 0x0D to 0xFE. -/
theorem decode_reserved_iff {w : Byte} : decode w = .reserved w ↔ 0x0D ≤ w.toNat ∧ w.toNat ≤ 0xFE := by
  constructor
  · intro hd
    by_contra hrange
    obtain ⟨row, hrow, rfl⟩ := exists_row_of_not_reserved hrange
    exact nomatch hd.symm.trans (opcodeTable_decodes row hrow)
  · intro hrange
    cases hd : decode w with
    | command i => exact absurd (eq_encode_of_decode hd ▸ hrange) (encode_not_reserved i)
    | reserved v => rw [eq_of_decode_reserved hd]

/-- R86: a word is the OPCODE of the command it decodes to, or it is a reserved word. -/
theorem decode_cases (w : Byte) :
    (∃ i, decode w = .command i ∧ encode i = w) ∨ (0x0D ≤ w.toNat ∧ w.toNat ≤ 0xFE ∧ decode w = .reserved w) := by
  cases hd : decode w with
  | command i => exact .inl ⟨i, rfl, (eq_encode_of_decode hd).symm⟩
  | reserved v =>
    obtain rfl := eq_of_decode_reserved hd
    obtain ⟨hlow, hhigh⟩ := decode_reserved_iff.mp hd
    exact .inr ⟨hlow, hhigh, rfl⟩

/-- Settles O1: the fourteen words are those of the encoder, and both ends of the reserved space lie in it. -/
theorem writtenWordsDecode : Obligations.WrittenWordsDecode :=
  ⟨decode_encode .nop, decode_encode .prime, decode_encode .modexp, decode_encode .egcd, decode_encode .genmod,
   decode_encode .keygenp, decode_encode .keygenq, decode_encode .tag, decode_encode .untag, decode_encode .crt,
   decode_encode .select, decode_encode .enc, decode_encode .dec, decode_encode .srst,
   decode_reserved_iff.mpr (by decide), decode_reserved_iff.mpr (by decide)⟩

end Sys2Proof
end

section
/-! PROOFS. A write of `CMD` (R84, R85) by the state it finds: a busy block, a recorded fault, a ready block and a reserved
word; and the step in which a ready block takes a command and runs it (R19, R80). -/

namespace Sys2Proof.Machine

theorem hostMove_cmd_of_busy {s : State} (h : s.busy = true) (w : Byte) (k : Nat) :
    hostMove (.cmd w k) s = s.reply .ignored := if_pos h

/-- R84: a recorded fault leaves SRST alone to be taken (R192, log 9). -/
theorem hostMove_cmd_of_faulted {s : State} (hbusy : s.busy = false) (hfault : s.flags.fault = true) (w : Byte) (k : Nat) :
    hostMove (.cmd w k) s = if w = 0xFF then resetMove s else s.reply .ignored := by
  simp only [hostMove, issue, hbusy, hfault, Bool.false_eq_true, if_true, if_false]

/-- R85: a ready block answers a reserved word with `IllegalCommand`. -/
theorem hostMove_cmd_of_reserved {s : State} {w v : Byte} (k : Nat) (h : s.Ready) (hd : decode w = .reserved v) :
    hostMove (.cmd w k) s = (enterFault { cause := .illegalCommand, info := 0 } s).reply .accepted := by
  obtain ⟨hbusy, hfault⟩ := h
  simp only [hostMove, issue, hbusy, hfault, hd, Bool.false_eq_true, if_false]

/-- Settles O2: the opcode map read both ways, and the fault entry of a reserved word (R200, R206). -/
theorem decodeEncodeRoundTrip : Obligations.DecodeEncodeRoundTrip := by
  refine ⟨decode_encode, decode_cases, fun s w v k hready hd => ?illegal⟩
  case illegal =>
    rw [hostMove_cmd_of_reserved k hready hd]
    exact ⟨rfl, rfl⟩

/-- Settles O11: `BUSY` is looked at first, then `FAULT`, then the word. -/
theorem issueIsDecidedInOrder : Obligations.IssueIsDecidedInOrder := by
  intro s w k
  refine ⟨fun hbusy => hostMove_cmd_of_busy hbusy w k, fun hidle hfault hw => ?ignored, fun hidle hfault hw => ?reset,
    fun i hready hd => hostMove_cmd_of_ready k hready hd⟩
  case ignored => rw [hostMove_cmd_of_faulted hidle hfault, if_neg hw]
  case reset =>
    rw [hostMove_cmd_of_faulted hidle hfault, if_pos hw]
    exact ⟨resetIn_allReset _, rfl⟩

/-- Settles O3: the host's turn accepts the command, and with no stall the sequencer's turn runs it. -/
theorem stepRunsTheDecodedCommand : Obligations.StepRunsTheDecodedCommand := by
  intro s w i rest hready hscript hd
  rw [step_of_move hscript, hostMove_cmd_of_ready 0 (hready.withScript rest) hd]
  exact sequencerTurn_of_due (accept_running ..)

end Sys2Proof.Machine
end

section
/-! PROOFS. The frame of a command that does not fault (R83): it has completed, or key generation goes on. -/

namespace Sys2Proof.Machine

theorem Same.mono {less more : List Target} {s t : State} (h : Same less s t) (hsub : less ⊆ more) : Same more s t :=
  fun g hg => h g fun hmem => hg (hsub hmem)

/-- R83: what a register number reads as after completion is as before, but at STATUS and the destinations. -/
theorem Written.same {i : Instr} {s t : State} (hw : Written i s t) : Same (.status :: writesOf i) s t := by
  intro g hg
  obtain ⟨hstatus, hwrites⟩ := not_or.mp (List.mem_cons.not.mp hg)
  have hkeep : ∀ d : Dest, d.target = g → d ∉ destinations i := fun d hd hmem =>
    hwrites (by rw [← hd, ← destinations_targets]; exact List.mem_map_of_mem hmem)
  cases g with
  | int reg => exact congrArg HostValue.number (hw.regs reg (hkeep (.reg reg) rfl))
  | cmd => rfl
  | status => exact absurd rfl hstatus
  | fcode => simp only [State.read, hw.codes.1]
  | finfo => simp only [State.read, hw.codes.2]
  | blkcnt => simp only [State.read, hw.blkcnt (hkeep .blkcnt rfl)]
  | ipos => simp only [State.read, hw.ipos (hkeep .ipos rfl)]
  | lpos => simp only [State.read, hw.lpos (hkeep .lpos rfl)]
  | inp => simp only [State.read, hw.inp]
  | out => simp only [State.read, hw.out (hkeep .out rfl)]
  | ledger => simp only [State.read, hw.ledger (hkeep .ledger rfl)]

/-- Settles O55: a fault and a reset are excluded, so the command has written its destinations and completed, or it is a
key generation that goes on and has drawn from the oracles only. -/
theorem completionChangesOnlyDestinations : Obligations.CompletionChangesOnlyDestinations := by
  intro i s t hi _ he hfault
  rcases exec_ends i s t he with ⟨trap, o, rfl, -⟩ | ⟨hsrst, -⟩ | ⟨o, -, rfl⟩ | ⟨-, hw⟩
  · exact nomatch hfault
  · exact absurd hsrst hi
  · exact ⟨(same_of_running_flags_env s _ s.flags _).mono (List.cons_subset_cons _ (List.nil_subset _)),
      ⟨rfl, rfl, rfl⟩, rfl, fun _ => rfl⟩
  · obtain ⟨o, henv, -⟩ := hw.outside
    refine ⟨hw.same, ?outside, ?free, hw.result⟩
    case outside => rw [SameOutside, henv]; exact ⟨rfl, rfl, rfl⟩
    case free => rw [henv]

end Sys2Proof.Machine
end

section
/-! PROOFS. A calculation that ends in one turn (R24, R84): what is held by whether it fits, and the command by the outcome
of its calculation; and MODEXP (R101), whose calculation is the modular power. -/

namespace Sys2Proof.Machine

/-! ### The outcome of a calculation -/

theorem hold_of_fits {ps : Params} {v : Nat} (h : ps.fits v = true) : hold ps v = .ok v := if_pos h

theorem hold_of_not_fits {ps : Params} {v : Nat} (h : ps.fits v = false) : hold ps v = .error .capacityExceeded :=
  if_neg (Bool.eq_false_iff.mp h)

section
variable {α : Type} {i : Instr} {result : Calc α} {write : α → State → State} {s : State}

theorem settle_of_ok {blk : Nat} {v : α} (h : result = .ok v) :
    settle i (atBlock blk result) write s = complete (write v s) := by
  rw [h, atBlock, settle]

theorem settle_of_error {blk : Nat} {c : Cause} (h : result = .error c) :
    FaultedAs c.code.toNat blk (writesOf i) s (settle i (atBlock blk result) write s) :=
  settle_faultedAs (t := { cause := c, info := blk }) (atBlock_error.mpr ⟨h, rfl⟩)

end

/-! ### MODEXP (R101) -/

theorem modexpCalc_of_zero (ps : Params) (b e : Nat) : modexpCalc ps b e 0 = .error .modulusZero := if_pos rfl

/-- R11, R101: under a modulus that is not 0 the calculation is the modular power, held to the capacity. -/
theorem modexpCalc_of_ne_zero {m : Nat} (hm : m ≠ 0) (ps : Params) (b e : Nat) :
    modexpCalc ps b e m = hold ps (b ^ e % m) := by
  rw [modexpCalc, if_neg hm, modexp_eq b e m (Nat.pos_of_ne_zero hm)]

theorem exec_modexp_of_ok {s : State} {v : Nat}
    (h : modexpCalc s.env.params s.regs.a s.regs.b s.regs.m = .ok v) :
    exec .modexp s = .next (complete (s.withRegs { s.regs with r := v })) :=
  congrArg _ (settle_of_ok h)

theorem exec_modexp_of_error {s : State} {c : Cause}
    (h : modexpCalc s.env.params s.regs.a s.regs.b s.regs.m = .error c) :
    ∃ t, exec .modexp s = .next t ∧ FaultedAs c.code.toNat 0 [.int .r] s t :=
  ⟨_, rfl, settle_of_error h⟩

/-- Settles O20: the modulus decides first, then whether the power fits. -/
theorem modexpWritesTheModularPower : Obligations.ModexpWritesTheModularPower := by
  refine ⟨decode_encode .modexp, fun s => ⟨fun hm hfit => ?power, fun hm => ?modulusZero, fun hm hfit => ?overflow⟩⟩
  case power => exact exec_modexp_of_ok ((modexpCalc_of_ne_zero hm ..).trans (hold_of_fits hfit))
  case modulusZero => exact exec_modexp_of_error (hm ▸ modexpCalc_of_zero ..)
  case overflow => exact exec_modexp_of_error ((modexpCalc_of_ne_zero hm ..).trans (hold_of_not_fits hfit))

end Sys2Proof.Machine
end

section
/-! PROOFS. GENMOD (R128): the product of `P` and `Q`, whatever they are, held to the capacity. -/

namespace Sys2Proof.Machine

/-- GENMOD ends with what becomes of the product. -/
theorem exec_genmod_of_key {s : State} {p q : Nat} (hkey : s.HoldsKey p q) :
    exec .genmod s = .next (settle .genmod (atBlock 0 (hold s.env.params (p * q)))
    (fun n s => s.withRegs { s.regs with n := n }) s) := by
  obtain ⟨hp, hq⟩ := hkey.toNat
  simp only [exec, execGenmod, hp, hq]

/-- Settles O22: no case looks at the primes themselves, only at whether their product fits. -/
theorem genmodMultipliesThePrimes : Obligations.GenmodMultipliesThePrimes := by
  refine ⟨decode_encode .genmod, fun s p q hkey =>
    ⟨fun hfit => ?product, fun hfit => ⟨_, exec_genmod_of_key hkey, ?overflow⟩⟩⟩
  case product => rw [exec_genmod_of_key hkey, settle_of_ok (hold_of_fits hfit)]; rfl
  case overflow => exact settle_of_error (hold_of_not_fits hfit)

end Sys2Proof.Machine
end

section
/-! PROOFS. The primality test (R110 to R118) and PRIME (R113): a round in terms of powers, why an odd prime passes every
base, and the test by the kind of its candidate and by the bases it draws. -/

namespace Sys2Proof.Machine

/-! ### One round (R112) -/

/-- R111, R112: there is one decomposition of `c - 1`, and over it a round passes exactly where the base does. -/
theorem mrRound_pass_iff {c : Nat} (h3 : 3 ≤ c) (hodd : c % 2 = 1) (a : Nat) :
    mrRound c (decomp c).1 (decomp c).2 a = .pass ↔ PassesBase c a := by
  obtain ⟨hdecomp, htodd, hspos⟩ := decomp_spec h3 hodd
  generalize (decomp c).1 = s at *
  generalize (decomp c).2 = t at *
  have hpasses : PassesBase c a ↔ (a ^ t % c = 1 ∨ ∃ r < s, a ^ (2 ^ r * t) % c = c - 1) := by
    refine ⟨?_, fun h => ⟨s, t, hdecomp, htodd, h⟩⟩
    rintro ⟨s', t', hdecomp', htodd', h⟩
    obtain ⟨rfl, rfl⟩ := odd_part_unique (hdecomp.symm.trans hdecomp') htodd htodd'
    exact h
  have hpow : ∀ r, (a ^ t) ^ 2 ^ r = a ^ (2 ^ r * t) := fun r => by rw [← pow_mul, mul_comm]
  rw [hpasses, mrRound, modexp_eq _ _ _ (by omega)]
  by_cases hfirst : a ^ t % c = 1 ∨ a ^ t % c = c - 1
  · rw [if_pos hfirst]
    exact iff_of_true rfl (hfirst.imp id fun h => ⟨0, hspos, by simpa using h⟩)
  · obtain ⟨hone, hminus⟩ := not_or.mp hfirst
    rw [if_neg hfirst, squarings_pass h3 _ _ hone hminus]
    constructor
    · rintro ⟨r, -, hr, h⟩
      exact .inr ⟨r, by omega, hpow r ▸ h⟩
    · rintro (h | ⟨r, hr, h⟩)
      · exact absurd h hone
      · have hrpos : r ≠ 0 := by rintro rfl; exact hminus (by simpa using h)
        exact ⟨r, by omega, by omega, hpow r ▸ h⟩

theorem mrRound_composite_iff {c : Nat} (h3 : 3 ≤ c) (hodd : c % 2 = 1) (a : Nat) :
    mrRound c (decomp c).1 (decomp c).2 a = .composite ↔ ¬ PassesBase c a := by
  rw [← mrRound_pass_iff h3 hodd]
  cases mrRound c (decomp c).1 (decomp c).2 a <;> simp

/-! ### An odd prime passes every base (R117) -/

/-- Where 1 has no square roots but 1 and -1, the square roots of a power that is 1 lead back to 1 or meet -1. -/
theorem pow_eq_one_or_neg_one {R : Type*} [Ring R] [NoZeroDivisors R] (x : R) (t : Nat) :
    ∀ s, x ^ (2 ^ s * t) = 1 → x ^ t = 1 ∨ ∃ r < s, x ^ (2 ^ r * t) = -1 := by
  intro s
  induction s with
  | zero => intro h; exact .inl (by simpa using h)
  | succ s ih =>
    intro h
    have hsquare : x ^ (2 ^ s * t) * x ^ (2 ^ s * t) = 1 := by
      rw [← h, ← pow_add, pow_succ]; congr 1; ring
    rcases mul_self_eq_one_iff.mp hsquare with hone | hminus
    · exact (ih hone).imp id fun ⟨r, hr, h⟩ => ⟨r, hr.trans (Nat.lt_succ_self s), h⟩
    · exact .inr ⟨s, Nat.lt_succ_self s, hminus⟩

theorem pow_mod_eq_one_iff {c : Nat} (hc : 2 ≤ c) (a k : Nat) : a ^ k % c = 1 ↔ (a : ZMod c) ^ k = 1 := by
  rw [← Nat.cast_pow, ← Nat.cast_one (R := ZMod c), ZMod.natCast_eq_natCast_iff',
    Nat.mod_eq_of_lt (show 1 < c from hc)]

theorem pow_mod_eq_pred_iff {c : Nat} (hc : 2 ≤ c) (a k : Nat) : a ^ k % c = c - 1 ↔ (a : ZMod c) ^ k = -1 := by
  have hpred : ((c - 1 : Nat) : ZMod c) = -1 := by rw [Nat.cast_pred (by omega), ZMod.natCast_self, zero_sub]
  rw [← hpred, ← Nat.cast_pow, ZMod.natCast_eq_natCast_iff', Nat.mod_eq_of_lt (show c - 1 < c by omega)]

/-- R117 (b): by Fermat the last power is 1, and in a field square roots of 1 are 1 and -1. -/
theorem passesBase_of_prime {c a : Nat} (hc : c.Prime) (h3 : 3 ≤ c) (h1 : 1 ≤ a) (ha : a ≤ c - 1) : PassesBase c a := by
  have : Fact c.Prime := ⟨hc⟩
  have hodd : c % 2 = 1 := hc.mod_two_eq_one_iff_ne_two.mpr (by omega)
  obtain ⟨hdecomp, htodd, -⟩ := decomp_spec h3 hodd
  have hne : (a : ZMod c) ≠ 0 := fun h =>
    absurd (Nat.le_of_dvd h1 ((ZMod.natCast_eq_zero_iff a c).mp h)) (by omega)
  have hfermat : (a : ZMod c) ^ (2 ^ (decomp c).1 * (decomp c).2) = 1 := by
    rw [← hdecomp]; exact ZMod.pow_card_sub_one_eq_one hne
  refine ⟨_, _, hdecomp, htodd, ?_⟩
  simpa only [pow_mod_eq_one_iff hc.two_le, pow_mod_eq_pred_iff hc.two_le] using
    pow_eq_one_or_neg_one (a : ZMod c) _ _ hfermat

/-! ### The test (R116) -/

theorem isProbablePrime_small {c : Nat} (h : c ≤ 2) (ps : Params) (o : Oracle) :
    isProbablePrime ps c o = .error .invalidInput := if_pos h

theorem isProbablePrime_even {c : Nat} (h : 3 ≤ c) (heven : c % 2 = 0) (ps : Params) (o : Oracle) :
    isProbablePrime ps c o = .ok (false, o) := by
  rw [isProbablePrime, if_neg (by omega), if_pos heven]

/-- R31: the test draws no byte of the random source. -/
theorem isProbablePrime_bytes {ps : Params} {c : Nat} {o o' : Oracle} {v : Bool}
    (h : isProbablePrime ps c o = .ok (v, o')) : o'.bytes = o.bytes ∧ o'.byteDraws = o.byteDraws := by
  obtain ⟨h3, -⟩ := isProbablePrime_ok h
  rcases Nat.mod_two_eq_zero_or_one c with heven | hodd
  · rw [isProbablePrime_even h3 heven] at h
    cases h; exact ⟨rfl, rfl⟩
  · rw [isProbablePrime_odd h3 hodd] at h
    rw [show o' = _ from (congrArg Prod.snd (Except.ok.inj h)).symm]
    exact rounds_bytes _ _

/-- R117 (b): the test accepts an odd prime, whatever bases it draws. -/
theorem isProbablePrime_prime {c : Nat} (hc : c.Prime) (h3 : 3 ≤ c) (ps : Params) (o : Oracle) :
    ∃ o', isProbablePrime ps c o = .ok (true, o') := by
  have hodd : c % 2 = 1 := hc.mod_two_eq_one_iff_ne_two.mpr (by omega)
  have htrue := rounds_true hc.two_le
    (fun a h1 ha => (mrRound_pass_iff h3 hodd a).mpr (passesBase_of_prime hc h3 h1 ha))
    (roundCount ps.rounds (ndigits c)) o
  exact ⟨_, (isProbablePrime_odd h3 hodd).trans (congrArg Except.ok (Prod.ext htrue rfl))⟩

section
variable {ps : Params} {c : Nat} {o : Oracle} (h3 : 3 ≤ c) (hodd : c % 2 = 1)
include h3 hodd

/-- R116: with all its bases known, the verdict is that the candidate passes each, and acceptance has drawn them all. -/
theorem isProbablePrime_scripted {bases rest : List Nat} (ho : o.bases = bases ++ rest)
    (hlen : bases.length = roundCount ps.rounds (ndigits c)) (hrange : ∀ a ∈ bases, 1 ≤ a ∧ a ≤ c - 1) :
    ∃ v o', isProbablePrime ps c o = .ok (v, o') ∧ (v = true ↔ ∀ a ∈ bases, PassesBase c a) ∧
      (v = true → o' = { o with bases := rest }) := by
  obtain ⟨hverdict, hdrawn⟩ := rounds_scripted (s := (decomp c).1) (t := (decomp c).2) bases rest o ho hrange
  refine ⟨_, _, isProbablePrime_odd h3 hodd, ?_, ?_⟩ <;> rw [← hlen, hverdict, decide_eq_true_iff]
  · simp only [mrRound_pass_iff h3 hodd]
  · exact hdrawn

/-- R116: the first base the candidate does not pass ends the test. -/
theorem isProbablePrime_stop {passed rest : List Nat} {a : Nat} (ho : o.bases = passed ++ a :: rest)
    (hlen : passed.length < roundCount ps.rounds (ndigits c))
    (hpassed : ∀ b ∈ passed, 1 ≤ b ∧ b ≤ c - 1 ∧ PassesBase c b) (h1 : 1 ≤ a) (ha : a ≤ c - 1)
    (hfails : ¬ PassesBase c a) : isProbablePrime ps c o = .ok (false, { o with bases := rest }) := by
  have hstop := (mrRound_composite_iff h3 hodd a).mpr hfails
  simp only [← mrRound_pass_iff h3 hodd] at hpassed
  rw [isProbablePrime_odd h3 hodd, rounds_stop passed rest _ o ho hlen hpassed h1 ha hstop]

end

/-! ### PRIME (R113) -/

theorem exec_prime_of_ok {s : State} {v : Bool} {o : Oracle}
    (h : isProbablePrime s.env.params s.regs.a s.env.oracle = .ok (v, o)) :
    exec .prime s = .next { s with
      running := none
      flags := { s.flags with done := true, result := v }
      env := { s.env with oracle := o } } :=
  congrArg _ (settle_of_ok h)

theorem exec_prime_of_error {s : State} {c : Cause}
    (h : isProbablePrime s.env.params s.regs.a s.env.oracle = .error c) :
    ∃ t, exec .prime s = .next t ∧ FaultedAs c.code.toNat 0 [] s t :=
  ⟨_, rfl, settle_of_error h⟩

/-- Settles O34: the test answers before it draws. -/
theorem primeOnSmallAndEvenNumbers : Obligations.PrimeOnSmallAndEvenNumbers := fun _ =>
  ⟨fun hsmall => exec_prime_of_error (isProbablePrime_small hsmall ..),
   fun h4 heven => exec_prime_of_ok (isProbablePrime_even (by omega) heven ..)⟩

/-- Settles O35: an odd candidate is tested by its rounds, which do not fault. -/
theorem primeCompletesOnOddNumbers : Obligations.PrimeCompletesOnOddNumbers := by
  intro s h3 hodd
  have htest := isProbablePrime_odd (ps := s.env.params) (o := s.env.oracle) h3 hodd
  exact ⟨_, _, exec_prime_of_ok htest, isProbablePrime_bytes htest⟩

/-- Settles O36: the bases in order, and the two constraints on the round count. -/
theorem primeVerdictIsThatOfItsBases : Obligations.PrimeVerdictIsThatOfItsBases := by
  refine ⟨?all, ?first, fun r _ _ => ⟨roundCount_pos r, roundCount_mono r⟩⟩
  case all =>
    intro s t bases rest h3 hodd ho hlen hrange he
    rw [← ndigits_eq _ (by omega)] at hlen
    obtain ⟨v, o, htest, hverdict, hdrawn⟩ := isProbablePrime_scripted h3 hodd ho hlen hrange
    cases he.symm.trans (exec_prime_of_ok htest)
    exact ⟨hverdict, hdrawn⟩
  case first =>
    intro s t passed rest a h3 hodd ho hlen hpassed h1 ha hfails he
    rw [← ndigits_eq _ (by omega)] at hlen
    cases he.symm.trans (exec_prime_of_ok (isProbablePrime_stop h3 hodd ho hlen hpassed h1 ha hfails))
    exact ⟨rfl, rfl⟩

/-- Settles O37: an odd prime passes whatever base is drawn. -/
theorem primeAcceptsEveryOddPrime : Obligations.PrimeAcceptsEveryOddPrime := by
  intro s hprime h2
  obtain ⟨o, htest⟩ := isProbablePrime_prime hprime h2 s.env.params s.env.oracle
  exact ⟨_, exec_prime_of_ok htest, rfl, rfl, rfl⟩

end Sys2Proof.Machine
end

section
/-! PROOFS. Key generation (R120 to R132): what becomes of a sample, the three ends of a pass, and a run of passes whose
samples are rejected. -/

namespace Sys2Proof.Machine

/-! ### A sample (R120) -/

theorem judgeSample_of_negative {bs : List Byte} (h : negativeSample bs = true) (ps : Params) (o : Oracle) :
    judgeSample ps bs o = (.again, o) := if_pos h

theorem negativeSample_eq_false {bs : List Byte} (hlen : bs.length = 64) (h : beToNat bs < 2 ^ 511) :
    negativeSample bs = false :=
  Bool.eq_false_iff.mpr fun hneg => Nat.not_lt.mpr ((negativeSample_iff bs hlen).mp hneg) h

section
variable {ps : Params} {bs : List Byte} {o : Oracle} (hneg : negativeSample bs = false)
  (hfit : ps.fits (beToNat bs : Nat) = true)
include hneg hfit

theorem judgeSample_of_error {c : Cause} (h : heldTest ps (beToNat bs) o = .error c) :
    judgeSample ps bs o = (.fault c, o) := by
  simp only [judgeSample, hneg, hfit, h, Bool.false_eq_true, if_false, if_true]

/-- A tested sample is accepted if the test accepted it and it is 3 modulo 4. -/
theorem judgeSample_of_ok {v : Bool} {o' : Oracle} (h : heldTest ps (beToNat bs) o = .ok (v, o')) :
    judgeSample ps bs o = (if v = true ∧ beToNat bs % 4 = 3 then .accept (beToNat bs) else .again, o') := by
  simp only [judgeSample, hneg, hfit, h, Bool.false_eq_true, if_false, if_true]
  cases v with
  | false => rfl
  | true => by_cases hmod : beToNat bs % 4 = 3 <;> simp [hmod]

end

/-- The sample is negative (R54), or it fits and the test rejects it or it is not 3 modulo 4 (R120). -/
def RejectedSample (ps : Params) (bs : List Byte) (o : Oracle) : Prop :=
  2 ^ 511 ≤ beToNat bs ∨ (ps.fits (beToNat bs : Nat) = true ∧
    ∃ v o', heldTest ps (beToNat bs) o = .ok (v, o') ∧ ¬ (v = true ∧ beToNat bs % 4 = 3))

/-- R120: a rejected sample sends the loop round again; the test has drawn no byte (R31). -/
theorem RejectedSample.judged {ps : Params} {bs : List Byte} {o : Oracle} (h : RejectedSample ps bs o)
    (hlen : bs.length = 64) :
    ∃ o', judgeSample ps bs o = (.again, o') ∧ o'.bytes = o.bytes ∧ o'.byteDraws = o.byteDraws := by
  rcases Nat.lt_or_ge (beToNat bs) (2 ^ 511) with hlt | hge
  · obtain ⟨hfit, v, o', htest, hreject⟩ := h.resolve_left (Nat.not_le.mpr hlt)
    have hjudge := judgeSample_of_ok (negativeSample_eq_false hlen hlt) hfit htest
    rw [if_neg hreject] at hjudge
    exact ⟨o', hjudge, isProbablePrime_bytes (heldTest_ok htest)⟩
  · exact ⟨o, judgeSample_of_negative ((negativeSample_iff bs hlen).mpr hge) ps o, rfl, rfl⟩

/-- R116: the test inside key generation is that of PRIME, once the round count of an odd candidate fits. -/
theorem heldTest_of_fits {ps : Params} {c : Nat} {o : Oracle} (h3 : 3 ≤ c)
    (hfit : ps.fits (roundCount ps.rounds (Nat.digits 10 c).length : Nat) = true) :
    heldTest ps c o = isProbablePrime ps c o :=
  heldTest_eq (.inr (.inr (by rwa [ndigits_eq c (by omega)])))

theorem heldTest_prime {ps : Params} {c : Nat} (hc : c.Prime) (h3 : 3 ≤ c)
    (hfit : ps.fits (roundCount ps.rounds (Nat.digits 10 c).length : Nat) = true) (o : Oracle) :
    ∃ o', heldTest ps c o = .ok (true, o') := by
  rw [heldTest_of_fits h3 hfit]; exact isProbablePrime_prime hc h3 ps o

theorem heldTest_even {c : Nat} (h3 : 3 ≤ c) (heven : c % 2 = 0) (ps : Params) (o : Oracle) :
    heldTest ps c o = .ok (false, o) :=
  (heldTest_eq (.inr (.inl heven))).trans (isProbablePrime_even h3 heven ps o)

/-! ### One pass (R120) -/

section
variable {s : State} {i : Instr} {dst : IntReg} (hi : KeyCommand i dst)
include hi

theorem exec_of_acceptedAttempt {v : Nat} {o : Oracle}
    (h : keyAttempt s.env.params s.tries s.env.oracle = (.accept v, o)) :
    exec i s = .next { s with
      regs := s.regs.set v dst
      running := none
      flags := { s.flags with done := true }
      env := { s.env with oracle := o } } := by
  rw [exec_of_keyCommand hi, keygenPass, h]; rfl

theorem exec_of_rejectedAttempt {o : Oracle} (h : keyAttempt s.env.params s.tries s.env.oracle = (.again, o)) :
    exec i s = .next { s with
      running := some { cmd := i, stall := 0, tries := s.tries + 1 }
      env := { s.env with oracle := o } } := by
  rw [exec_of_keyCommand hi, keygenPass, h]; rfl

end

theorem State.Samples.length_eq {s : State} {bs rest : List Byte} (h : s.Samples bs rest) : bs.length = 64 := by
  obtain ⟨-, hlen, -⟩ := h
  exact hlen

/-- A scripted sample that is reached is judged with the bytes behind it left (R88, R120). -/
theorem State.Samples.attempt_eq {s : State} {bs rest : List Byte} (h : s.Samples bs rest) :
    keyAttempt s.env.params s.tries s.env.oracle =
      judgeSample s.env.params bs { s.env.oracle with bytes := rest } := by
  obtain ⟨hbytes, hlen, hcap, hfit⟩ := h
  exact keyAttempt_scripted hbytes hlen hcap hfit

/-- A pass whose scripted sample is rejected goes on with one try more (R120). -/
theorem exec_of_rejectedSample {s : State} {i : Instr} {dst : IntReg} {bs rest : List Byte} (hi : KeyCommand i dst)
    (hs : s.Samples bs rest) (h : RejectedSample s.env.params bs { s.env.oracle with bytes := rest }) :
    ∃ o : Oracle, exec i s = .next { s with
        running := some { cmd := i, stall := 0, tries := s.tries + 1 }
        env := { s.env with oracle := o } } ∧
      o.bytes = rest ∧ o.byteDraws = s.env.oracle.byteDraws := by
  obtain ⟨o, hjudge, hdrawn⟩ := h.judged hs.length_eq
  exact ⟨o, exec_of_rejectedAttempt hi (hs.attempt_eq.trans hjudge), hdrawn⟩

/-- Settles O38: the test accepts the prime (R117), and it is 3 modulo 4. -/
theorem keyGenerationWritesTheSample : Obligations.KeyGenerationWritesTheSample := by
  intro s i dst bs rest hi hs hlt hprime hmod hfit hrounds
  have h3 : 3 ≤ beToNat bs := by omega
  obtain ⟨o, htest⟩ := heldTest_prime hprime h3 hrounds { s.env.oracle with bytes := rest }
  have hjudge := judgeSample_of_ok (negativeSample_eq_false hs.length_eq hlt) hfit htest
  rw [if_pos ⟨rfl, hmod⟩] at hjudge
  exact ⟨o, exec_of_acceptedAttempt hi (hs.attempt_eq.trans hjudge), isProbablePrime_bytes (heldTest_ok htest)⟩

/-- Settles O39: a pass that goes on is busy and one that faults clears `DONE`, so this one accepted its sample. -/
theorem keyGenerationPostcondition : Obligations.KeyGenerationPostcondition := by
  intro s t i dst hi he hidle hdone
  rw [exec_of_keyCommand hi] at he
  obtain rfl := Host.Outcome.next.inj he
  rcases keygenPass_cases i dst s with ⟨v, o, hattempt, hpass⟩ | ⟨o, -, hpass⟩ | ⟨c, o, -, hpass⟩
  · obtain ⟨hv, hneg, -, htest, hmod⟩ := judgeSample_accept (keyAttempt_accept hattempt)
    rw [keyBytes_eq] at hv hneg htest
    have hlt : ¬ 2 ^ 511 ≤ v := fun hge =>
      Bool.eq_false_iff.mp hneg ((negativeSample_iff _ (rngFill_length 64 _)).mpr (hv ▸ hge))
    obtain ⟨h3, -⟩ := isProbablePrime_ok htest
    rw [hpass, ← hv]
    exact ⟨get_set_same .., h3, by omega, hmod, htest⟩
  · rw [hpass] at hidle; exact nomatch hidle
  · rw [hpass] at hdone; exact nomatch hdone

/-- Settles O40: the test rejects the sample by its parity or by a base, or accepts a prime that is 1 modulo 4. -/
theorem rejectedSampleKeepsItBusy : Obligations.RejectedSampleKeepsItBusy := by
  intro s i dst bs rest hi hs h
  refine exec_of_rejectedSample hi hs (h.imp id fun ⟨hfit, h3, hkind⟩ => ⟨hfit, ?_⟩)
  rcases hkind with heven | ⟨hrounds, ⟨hprime, hmod⟩ | ⟨hodd, passed, more, a, ho, hlen, hpassed, h1, ha, hfails⟩⟩
  · exact ⟨_, _, heldTest_even h3 heven .., by simp⟩
  · obtain ⟨o, htest⟩ := heldTest_prime hprime h3 hrounds { s.env.oracle with bytes := rest }
    exact ⟨_, _, htest, by omega⟩
  · rw [← ndigits_eq _ (by omega)] at hlen
    have htest := isProbablePrime_stop (o := { s.env.oracle with bytes := rest }) h3 hodd ho hlen hpassed h1 ha hfails
    exact ⟨_, _, (heldTest_of_fits h3 hrounds).trans htest, by simp⟩

/-- Settles O41: the test faults on a sample of at most 2 (R116); the cap is looked at before the draw (R130). -/
theorem keyGenerationFaults : Obligations.KeyGenerationFaults := by
  intro s i dst hi
  refine ⟨fun bs rest hs hsmall hfit => ?sample, fun hcap => ?cap⟩
  case sample =>
    have hneg := negativeSample_eq_false hs.length_eq (show beToNat bs < 2 ^ 511 by omega)
    have htest := (heldTest_eq (.inl hsmall)).trans
      (isProbablePrime_small hsmall s.env.params { s.env.oracle with bytes := rest })
    exact exec_of_faultedAttempt hi (hs.attempt_eq.trans (judgeSample_of_error hneg hfit htest))
  case cap => exact exec_of_faultedAttempt (c := .retryExhausted) (o := s.env.oracle) hi (if_pos hcap)

/-! ### Any number of passes (R132) -/

theorem run_succ_of_step {s s' : State} (h : step s = .next s') (n : Nat) :
    Sys2Proof.core.run (n + 1) s = Sys2Proof.core.run n s' := by
  have hstep : Sys2Proof.core.step s = .next s' := h
  simp only [Host.Core.run, hstep]

/-- With a silent host and nothing to bound it, key generation makes a pass a step for as long as its samples are
negative, or even and more than 2. -/
theorem run_of_rejectedSamples {i : Instr} {dst : IntReg} (hi : KeyCommand i dst) (rest : List Byte) :
    ∀ (samples : List (List Byte)) (s : State) (n : Nat), s.env.params.retryCap = none → s.env.params.xbits = none →
    s.env.script = [] → s.running = some { cmd := i, stall := 0, tries := n } →
    s.env.oracle.bytes = samples.flatten ++ rest →
    (∀ bs ∈ samples, bs.length = 64 ∧ (2 ^ 511 ≤ beToNat bs ∨ (2 < beToNat bs ∧ beToNat bs % 2 = 0))) →
    ∃ o : Oracle, Sys2Proof.core.run samples.length s = .next { s with
      running := some { cmd := i, stall := 0, tries := n + samples.length }
      env := { s.env with oracle := o } } := by
  intro samples
  induction samples with
  | nil =>
    intro s n _ _ _ hrun _ _
    exact ⟨s.env.oracle, by rw [List.length_nil, Nat.add_zero, ← hrun]; rfl⟩
  | cons bs samples ih =>
    intro s n hcap hx hsilent hrun hbytes hall
    obtain ⟨⟨hlen, hkind⟩, hall⟩ := List.forall_mem_cons.mp hall
    have htries : s.tries = n := by rw [State.tries, hrun]
    have hs : s.Samples bs (samples.flatten ++ rest) :=
      ⟨by rw [hbytes, List.flatten_cons, List.append_assoc], hlen, by simp [hcap], fits_of_infinite hx _⟩
    obtain ⟨o, hexec, hleft, -⟩ := exec_of_rejectedSample hi hs (hkind.imp id fun ⟨h3, heven⟩ =>
      ⟨fits_of_infinite hx _, false, _, heldTest_even h3 heven .., by simp⟩)
    have hstep := (step_of_silent hsilent).trans ((sequencerTurn_of_due hrun).trans hexec)
    obtain ⟨o', hrest⟩ := ih { s with
      running := some { cmd := i, stall := 0, tries := s.tries + 1 }
      env := { s.env with oracle := o } } (s.tries + 1) hcap hx hsilent rfl hleft hall
    refine ⟨o', ?_⟩
    rw [List.length_cons, run_succ_of_step hstep, hrest, htries, Nat.add_right_comm, Nat.add_assoc]

/-- Settles O43: after a step a sample the command still runs, and only its tries and the oracles have changed. -/
theorem keyGenerationNeedNotEnd : Obligations.KeyGenerationNeedNotEnd := by
  intro s i dst samples rest hi hcap hx hsilent hrun hbytes hall
  obtain ⟨o, ht⟩ := run_of_rejectedSamples hi rest samples s 0 hcap hx hsilent hrun hbytes hall
  refine ⟨_, ht, rfl, Nat.zero_add _, fun g _ => ?same⟩
  case same =>
    cases g with
    | status => simp [State.read, statusWord, State.busy, hrun]
    | _ => rfl

end Sys2Proof.Machine
end

section
/-! PROOFS. EGCD (R142 to R144): the command by the outcome of the recurrence, the pairs of operands on which that returns,
and the pair it returns where an operand is 1 and where none is. -/

namespace Sys2Proof.Machine

theorem exec_egcd_of_ok {s : State} {x y : Int} (h : extendedGcd s.env.params s.regs.a s.regs.b = .ok (x, y)) :
    exec .egcd s = .next { s with
      regs := { s.regs with x := x, y := y }
      running := none
      flags := { s.flags with done := true } } :=
  congrArg _ (settle_of_ok h)

theorem exec_egcd_of_error {s : State} {c : Cause}
    (h : extendedGcd s.env.params s.regs.a s.regs.b = .error c) :
    ∃ t, exec .egcd s = .next t ∧ FaultedAs c.code.toNat 0 [.int .x, .int .y] s t :=
  ⟨_, rfl, settle_of_error h⟩

/-- R144: among the pairs with an operand 0 only `(1, 0)` and `(0, 1)` are coprime, so the pairs that fault are those that
are not coprime or have an operand 0. -/
theorem not_coprime_or_unit_zero_iff (a b : Nat) :
    (Nat.gcd a b ≠ 1 ∨ (a = 1 ∧ b = 0) ∨ (a = 0 ∧ b = 1)) ↔ ¬ (Nat.gcd a b = 1 ∧ a ≠ 0 ∧ b ≠ 0) := by
  rcases Nat.eq_zero_or_pos a with rfl | ha
  · rw [Nat.gcd_zero_left]; omega
  · rcases Nat.eq_zero_or_pos b with rfl | hb
    · rw [Nat.gcd_zero_right]; omega
    · omega

section
variable {ps : Params} {a b : Nat} {x y : Int}

theorem extendedGcd_of_coprime (hx : ps.xbits = none) (hgcd : Nat.gcd a b = 1) (ha : a ≠ 0) (hb : b ≠ 0) :
    ∃ x y, extendedGcd ps a b = .ok (x, y) := by
  rcases extendedGcd_infinite hx a b with ⟨-, -, -, ⟨x, y⟩, h⟩ | ⟨hnot, -⟩
  · exact ⟨x, y, h⟩
  · exact absurd ⟨hgcd, ha, hb⟩ hnot

/-- R143 (e): the first operand 1, by the exchange (b). -/
theorem extendedGcd_one_left (hx : ps.xbits = none) (hb : 2 ≤ b) : extendedGcd ps 1 b = .ok (1, 0) :=
  extendedGcd_swap (by omega) (extendedGcd_one_right hx (by omega))

/-- R143 (d): a coefficient 0 leaves the other operand a divisor of 1, so above 1 the signs are opposite. -/
theorem extendedGcd_opposite_signs (h : extendedGcd ps a b = .ok (x, y)) (ha : 2 ≤ a) (hb : 2 ≤ b) : x * y < 0 := by
  obtain ⟨hlin, -, -, hsign, -⟩ := extendedGcd_ok h
  refine lt_of_le_of_ne hsign fun hzero => ?_
  rcases mul_eq_zero.mp hzero with rfl | rfl
  · rw [mul_zero, zero_add] at hlin
    have := Int.eq_one_or_neg_one_of_mul_eq_one hlin
    omega
  · rw [mul_zero, add_zero] at hlin
    have := Int.eq_one_or_neg_one_of_mul_eq_one hlin
    omega

end

/-- Settles O25: the recurrence returns, its pair has the laws, and the exchanged operands give the exchanged pair. -/
theorem egcdWritesTheBezoutPair : Obligations.EgcdWritesTheBezoutPair := by
  intro s hx hgcd ha hb
  obtain ⟨x, y, h⟩ := extendedGcd_of_coprime hx hgcd ha hb
  obtain ⟨hlin, hxb, hya, hsign, hhalf, -⟩ := extendedGcd_ok h
  refine ⟨x, y, exec_egcd_of_ok h, hlin, hxb, hya, hsign,
    fun ha2 hb2 => ⟨extendedGcd_opposite_signs h ha2 hb2, hhalf ha2 hb2⟩, fun hb1 => ?one_right, fun ha1 hb2 => ?one_left,
    fun hne => exec_egcd_of_ok (extendedGcd_swap hne h)⟩
  case one_right =>
    rw [hb1, extendedGcd_one_right hx ha] at h
    cases h
    exact ⟨rfl, rfl⟩
  case one_left =>
    rw [ha1, extendedGcd_one_left hx hb2] at h
    cases h
    exact ⟨rfl, rfl⟩

/-- Settles O26: the recurrence raises on the pairs named and returns on every other. -/
theorem egcdFaultsExactlyWhenNotCoprime : Obligations.EgcdFaultsExactlyWhenNotCoprime := by
  intro s hx
  simp only [not_coprime_or_unit_zero_iff, not_not]
  refine ⟨fun hnot => ?faults, fun hfault ⟨hgcd, ha, hb⟩ => ?completes⟩
  case faults =>
    rcases extendedGcd_infinite hx s.regs.a s.regs.b with ⟨hgcd, ha, hb, -⟩ | ⟨-, h⟩
    · exact absurd ⟨hgcd, ha, hb⟩ hnot
    · exact exec_egcd_of_error h
  case completes =>
    obtain ⟨x, y, h⟩ := extendedGcd_of_coprime hx hgcd ha hb
    exact ⟨_, exec_egcd_of_ok h, hfault, rfl⟩

end Sys2Proof.Machine
end

section
/-! PROOFS. The codec commands (R150, R151): TAG holds its product to the capacity, UNTAG holds nothing. -/

namespace Sys2Proof.Machine

/-- TAG ends with what becomes of the tagged natural, under the literal of R6. -/
theorem exec_tag (s : State) :
    exec .tag s = .next (settle .tag (atBlock 0 (hold s.env.params (s.regs.a * 10000)))
      (fun v s => s.withRegs { s.regs with r := v }) s) := rfl

theorem exec_untag (s : State) :
    exec .untag s = .next (complete (s.withRegs { s.regs with r := (s.regs.a / 10000 : Nat) })) := rfl

/-- Settles O21: TAG by whether the product fits; UNTAG completes in every state. -/
theorem tagAndUntagWriteTheirResult : Obligations.TagAndUntagWriteTheirResult := by
  refine ⟨decode_encode .tag, decode_encode .untag, fun s =>
    ⟨fun hfit => ?tagged, fun hfit => ⟨_, exec_tag s, ?overflow⟩, exec_untag s⟩⟩
  case tagged => rw [exec_tag, settle_of_ok (hold_of_fits hfit)]; rfl
  case overflow => exact settle_of_error (hold_of_not_fits hfit)

end Sys2Proof.Machine
end

section
/-! PROOFS. CRT (R152 to R156): the command by the outcome of its calculation, the listing it writes under a coprime key,
and the ranges of the four roots. -/

namespace Sys2Proof.Machine

/-! ### The command by its calculation -/

/-- A command of one calculation that records no fault has completed: its calculation returned. -/
theorem settle_completed {α : Type} {i : Instr} {blk : Nat} {result : Calc α} {write : α → State → State} {s : State}
    (h : (settle i (atBlock blk result) write s).flags.fault = false) :
    ∃ v, result = .ok v ∧ settle i (atBlock blk result) write s = complete (write v s) := by
  cases result with
  | ok v => exact ⟨v, rfl, rfl⟩
  | error c => exact nomatch h

/-- The nine writes of CRT (R152, R153). -/
def Regs.withRoots (g : Regs) (v : Roots) : Regs :=
  { g with n := v.n, mp := v.mp, mq := v.mq, x := v.yp, y := v.yq, m1 := v.m1, m2 := v.m2, m3 := v.m3, m4 := v.m4 }

/-- The four roots by position, as SELECT reads them (R157). -/
def Roots.four (v : Roots) : List Nat := [v.m1, v.m2, v.m3, v.m4]

/-- The four roots stand in `M1` to `M4`. -/
theorem withRoots_four (g : Regs) (v : Roots) :
    [(g.withRoots v).m1, (g.withRoots v).m2, (g.withRoots v).m3, (g.withRoots v).m4] = v.four.map Nat.cast := rfl

section
variable {s : State} {p q : Nat} (hkey : s.HoldsKey p q)
include hkey

/-- CRT ends with what becomes of the roots of `A` under the key. -/
theorem exec_crt_of_key : exec .crt s = .next (settle .crt (atBlock 0 (crtRoots s.env.params s.regs.a p q))
    (fun v s => s.withRegs (s.regs.withRoots v)) s) := by
  obtain ⟨hp, hq⟩ := hkey.toNat
  simp only [exec, execCrt, hp, hq]
  rfl

theorem exec_crt_of_ok {v : Roots} (h : crtRoots s.env.params s.regs.a p q = .ok v) :
    exec .crt s = .next (complete (s.withRegs (s.regs.withRoots v))) := by
  rw [exec_crt_of_key hkey, settle_of_ok h]

theorem exec_crt_completed {t : State} (he : exec .crt s = .next t) (hfault : t.flags.fault = false) :
    ∃ v, crtRoots s.env.params s.regs.a p q = .ok v ∧ t = complete (s.withRegs (s.regs.withRoots v)) := by
  obtain rfl := Host.Outcome.next.inj (he.symm.trans (exec_crt_of_key hkey))
  exact settle_completed hfault

end

/-! ### The calculation with infinite capacity (R154) -/

section
variable {ps : Params} (hx : ps.xbits = none) (c : Nat) {p q : Nat}
include hx

theorem crtRoots_of_zero (h : p = 0 ∨ q = 0) : crtRoots ps c p q = .error .modulusZero := by
  rw [crtRoots_infinite hx]
  rcases h with rfl | rfl
  · rw [if_pos rfl]
  · rw [if_pos rfl, ite_self]

theorem crtRoots_of_egcd_ok (hp : p ≠ 0) (hq : q ≠ 0) {x y : Int} (h : extendedGcd ps p q = .ok (x, y)) :
    crtRoots ps c p q = .ok (listing c p q x y) := by
  rw [crtRoots_infinite hx, if_neg hp, if_neg hq, h]

theorem crtRoots_of_not_coprime (hp : p ≠ 0) (hq : q ≠ 0) (hgcd : Nat.gcd p q ≠ 1) :
    crtRoots ps c p q = .error .arithmeticPrecondition := by
  rcases extendedGcd_infinite hx p q with ⟨hone, -⟩ | ⟨-, h⟩
  · exact absurd hone hgcd
  · rw [crtRoots_infinite hx, if_neg hp, if_neg hq, h]

end

/-- Under a coprime key CRT completes with the listing of a Bézout pair (R143, R154). -/
theorem exec_crt_of_coprime {s : State} {p q : Nat} (hx : s.env.params.xbits = none) (hkey : s.HoldsKey p q)
    (hgcd : Nat.gcd p q = 1) (hp : p ≠ 0) (hq : q ≠ 0) :
    ∃ x y, (p : Int) * x + q * y = 1 ∧
      exec .crt s = .next (complete (s.withRegs (s.regs.withRoots (listing s.regs.a p q x y)))) := by
  obtain ⟨x, y, h⟩ := extendedGcd_of_coprime hx hgcd hp hq
  obtain ⟨hlin, -⟩ := extendedGcd_ok h
  exact ⟨x, y, hlin, exec_crt_of_ok hkey (crtRoots_of_egcd_ok hx _ hp hq h)⟩

/-- Settles O28: a zero in the key is found before the pair is asked for. -/
theorem crtFaultsInOrder : Obligations.CrtFaultsInOrder := fun _ _ _ hx hkey =>
  ⟨fun hzero => exec_crt_of_error hkey (crtRoots_of_zero hx _ hzero),
   fun hp hq hgcd => exec_crt_of_error hkey (crtRoots_of_not_coprime hx _ hp hq hgcd)⟩

/-! ### The listing in plain arithmetic (R154, R156) -/

section
variable {c p q : Nat} {x y : Int}

theorem listing_mp (hp : 0 < p) : (listing c p q x y).mp = c ^ ((p + 1) / 4) % p := modexp_eq _ _ _ hp

theorem listing_mq (hq : 0 < q) : (listing c p q x y).mq = c ^ ((q + 1) / 4) % q := modexp_eq _ _ _ hq

variable (hn : 0 < p * q)
include hn

/-- R10: the two sums by their true modulo. -/
theorem listing_m1_cast : ((listing c p q x y).m1 : Int) =
    (x * p * (listing c p q x y).mq + y * q * (listing c p q x y).mp) % (p * q) := by
  rw [← Nat.cast_mul]; exact intMod_cast _ hn

theorem listing_m3_cast : ((listing c p q x y).m3 : Int) =
    (x * p * (listing c p q x y).mq - y * q * (listing c p q x y).mp) % (p * q) := by
  rw [← Nat.cast_mul]; exact intMod_cast _ hn

/-- R154, R156 (a): the first and the third root are below `n`, the second and the fourth are their complements. -/
theorem listing_ranges (c : Nat) (x y : Int) :
    let v := listing c p q x y
    v.m1 < p * q ∧ v.m3 < p * q ∧ v.m1 + v.m2 = p * q ∧ v.m3 + v.m4 = p * q := by
  intro v
  have h1 : v.m1 < p * q := intMod_lt _ hn
  have h3 : v.m3 < p * q := intMod_lt _ hn
  exact ⟨h1, h3, Nat.add_sub_of_le h1.le, Nat.add_sub_of_le h3.le⟩

theorem listing_m2_cast : ((listing c p q x y).m2 : Int) = p * q - (listing c p q x y).m1 := by
  obtain ⟨-, -, h12, -⟩ := listing_ranges hn c x y
  rw [← Nat.cast_mul, ← h12, Nat.cast_add, add_sub_cancel_left]

theorem listing_m4_cast : ((listing c p q x y).m4 : Int) = p * q - (listing c p q x y).m3 := by
  obtain ⟨-, -, -, h34⟩ := listing_ranges hn c x y
  rw [← Nat.cast_mul, ← h34, Nat.cast_add, add_sub_cancel_left]

theorem listing_four_le : ∀ m ∈ (listing c p q x y).four, m ≤ p * q := by
  obtain ⟨h1, h3, h12, h34⟩ := listing_ranges hn c x y
  simpa [Roots.four] using show _ ∧ _ ∧ _ ∧ _ from ⟨h1.le, by omega, h3.le, by omega⟩

end

/-- Settles O27: EGCD on the key gives the pair CRT asks for (R142), and the listing of that pair is what CRT writes. -/
theorem crtWritesTheListing : Obligations.CrtWritesTheListing := by
  intro s e p q hx hkey hgcd hp hq he mp mq m1 m3
  have hn : 0 < p * q := Nat.pos_of_ne_zero (mul_ne_zero hp hq)
  obtain ⟨x, y, h⟩ := extendedGcd_of_coprime hx hgcd hp hq
  obtain rfl := Host.Outcome.next.inj (he.symm.trans (exec_egcd_of_ok h))
  have hmp : (listing s.regs.a p q x y).mp = mp := listing_mp (Nat.pos_of_ne_zero hp)
  have hmq : (listing s.regs.a p q x y).mq = mq := listing_mq (Nat.pos_of_ne_zero hq)
  have hm1 : ((listing s.regs.a p q x y).m1 : Int) = m1 := by rw [listing_m1_cast hn, hmp, hmq]
  have hm3 : ((listing s.regs.a p q x y).m3 : Int) = m3 := by rw [listing_m3_cast hn, hmp, hmq]
  rw [exec_crt_of_ok hkey (crtRoots_of_egcd_ok hx _ hp hq h), Regs.withRoots, listing_m2_cast hn, listing_m4_cast hn, hm1,
    hm3, hmp, hmq, show ((listing s.regs.a p q x y).n : Int) = p * q from Nat.cast_mul p q]
  rfl

/-- Settles O29: the ranges of the listing, and its residues (R156 (b)). -/
theorem crtRootsHaveTheResidues : Obligations.CrtRootsHaveTheResidues := by
  intro s t p q hx hkey hp hq hgcd he
  obtain ⟨x, y, hlin, hcrt⟩ := exec_crt_of_coprime hx hkey hgcd (by omega) (by omega)
  obtain rfl := Host.Outcome.next.inj (he.symm.trans hcrt)
  have hn : 0 < p * q := Nat.mul_pos (by omega) (by omega)
  obtain ⟨r1p, r1q, r3p, r3q⟩ := listing_residues s.regs.a p q x y (by omega) (by omega) hlin
  obtain ⟨h1, h3, h12, h34⟩ := listing_ranges hn s.regs.a x y
  simp only [complete_regs, withRegs_regs, Regs.withRoots]
  have hN : (listing s.regs.a p q x y).n = p * q := rfl
  refine ⟨Nat.cast_mul p q, ?_, ?_, ?_, ?_, ?_, ?_, ?_, ?_, ?_, ?_, r1p, r1q, r3p, r3q⟩ <;> omega

end Sys2Proof.Machine
end

section
/-! PROOFS. CRT under a keypair (R29, R156 (d)): for a Blum prime the power of the listing is a square root, the four roots
are the square roots modulo `n` of a square, and every root of it below `n` is one of them. -/

namespace Sys2Proof.Machine

/-! ### Square roots modulo one prime -/

/-- For a prime that is 3 modulo 4 the power `(p + 1) / 4` of a square is a square root of it: by Fermat `z ^ p = z`. -/
theorem BlumPrime.pow_sq {p : Nat} (hp : BlumPrime p) (z : ZMod p) : ((z ^ 2) ^ ((p + 1) / 4)) ^ 2 = z ^ 2 := by
  obtain ⟨hprime, hmod⟩ := hp
  have : Fact p.Prime := ⟨hprime⟩
  calc ((z ^ 2) ^ ((p + 1) / 4)) ^ 2 = z ^ (p + 1) := by rw [← pow_mul, ← pow_mul]; congr 1; omega
    _ = z ^ 2 := by rw [pow_succ, ZMod.pow_card, sq]

theorem BlumPrime.root_sq {p c : Nat} (hp : BlumPrime p) {z : Int} (hc : (c : Int) ≡ z ^ 2 [ZMOD p]) :
    ((c ^ ((p + 1) / 4) % p : Nat) : Int) ^ 2 ≡ z ^ 2 [ZMOD p] := by
  rw [← ZMod.intCast_eq_intCast_iff] at hc ⊢
  push_cast at hc ⊢
  rw [hc, hp.pow_sq]

/-- Modulo a prime equal squares have equal or opposite roots. -/
theorem modEq_or_modEq_neg_of_sq {p : Nat} (hp : p.Prime) {a b : Int} (h : a ^ 2 ≡ b ^ 2 [ZMOD p]) :
    a ≡ b [ZMOD p] ∨ a ≡ -b [ZMOD p] := by
  have : Fact p.Prime := ⟨hp⟩
  simp only [← ZMod.intCast_eq_intCast_iff] at h ⊢
  push_cast at h ⊢
  exact sq_eq_sq_iff_eq_or_eq_neg.mp h

/-! ### Representatives modulo the product -/

theorem modEq_mul_of_coprime {p q : Nat} (hgcd : Nat.Coprime p q) {a b : Int} (hp : a ≡ b [ZMOD p])
    (hq : a ≡ b [ZMOD q]) : a ≡ b [ZMOD (p * q : Nat)] := by
  rw [Nat.cast_mul]; exact (Int.modEq_and_modEq_iff_modEq_mul (m := p) (n := q) hgcd).mp ⟨hp, hq⟩

/-- Numbers with sum `n` have the same square modulo `n`. -/
theorem sq_modEq_of_add_eq {a b n : Nat} (h : a + b = n) : (b : Int) ^ 2 ≡ (a : Int) ^ 2 [ZMOD n] := by
  refine Int.modEq_iff_dvd.mpr ⟨a - b, ?_⟩
  rw [← h]; push_cast; ring

/-- Below `n` a positive number congruent to the opposite of another is its complement. -/
theorem add_eq_of_modEq_neg {a x n : Nat} (ha : a < n) (hpos : 1 ≤ x) (hx : x < n) (h : (a : Int) ≡ -x [ZMOD n]) :
    a + x = n := by
  have hdvd : n ∣ a + x := by
    rw [← Int.natCast_dvd_natCast]
    simpa using h.symm.dvd
  exact Nat.eq_of_dvd_of_lt_two_mul (by omega) hdvd (by omega)

/-! ### The four roots -/

section
variable {p q c z : Nat} {x y : Int} (hkey : Keypair p q) (hlin : (p : Int) * x + q * y = 1)
include hkey

theorem Keypair.coprime : Nat.Coprime p q := by
  obtain ⟨⟨hp, -⟩, ⟨hq, -⟩, hne⟩ := hkey
  exact (Nat.coprime_primes hp hq).mpr hne

theorem Keypair.pos : 0 < p ∧ 0 < q := by
  obtain ⟨⟨hp, -⟩, ⟨hq, -⟩, -⟩ := hkey
  exact ⟨hp.pos, hq.pos⟩

variable (hc : c = z ^ 2 % (p * q))
include hc

/-- The residues of the listing are square roots modulo the two primes. -/
theorem listing_residues_sq :
    ((listing c p q x y).mp : Int) ^ 2 ≡ (z : Int) ^ 2 [ZMOD p] ∧
    ((listing c p q x y).mq : Int) ^ 2 ≡ (z : Int) ^ 2 [ZMOD q] := by
  obtain ⟨hp, hq⟩ := hkey.pos
  have hmod : (c : Int) ≡ (z : Int) ^ 2 [ZMOD (p * q : Nat)] := by
    rw [hc]; push_cast; exact Int.mod_modEq _ _
  rw [listing_mp hp, listing_mq hq]
  obtain ⟨hblum, hblum', -⟩ := hkey
  exact ⟨hblum.root_sq (hmod.of_dvd (Int.natCast_dvd_natCast.mpr (dvd_mul_right p q))),
    hblum'.root_sq (hmod.of_dvd (Int.natCast_dvd_natCast.mpr (dvd_mul_left q p)))⟩

include hlin

/-- R156 (d): each of the four is a square root of `c` modulo `n`. -/
theorem listing_four_sq : ∀ m ∈ (listing c p q x y).four, m ^ 2 % (p * q) = c := by
  obtain ⟨hp, hq⟩ := hkey.pos
  have hn := Nat.mul_pos hp hq
  obtain ⟨r1p, r1q, r3p, r3q⟩ := listing_residues c p q x y hp hq hlin
  obtain ⟨sp, sq⟩ := listing_residues_sq (x := x) (y := y) hkey hc
  obtain ⟨-, -, h12, h34⟩ := listing_ranges hn c x y
  have h1 : ((listing c p q x y).m1 : Int) ^ 2 ≡ (z : Int) ^ 2 [ZMOD (p * q : Nat)] :=
    modEq_mul_of_coprime hkey.coprime ((r1p.pow 2).trans sp) ((r1q.pow 2).trans sq)
  have h3 : ((listing c p q x y).m3 : Int) ^ 2 ≡ (z : Int) ^ 2 [ZMOD (p * q : Nat)] :=
    modEq_mul_of_coprime hkey.coprime ((r3p.pow 2).trans (by rwa [neg_sq])) ((r3q.pow 2).trans sq)
  have h2 := (sq_modEq_of_add_eq h12).trans h1
  have h4 := (sq_modEq_of_add_eq h34).trans h3
  have hnat : ∀ m : Nat, (m : Int) ^ 2 ≡ (z : Int) ^ 2 [ZMOD (p * q : Nat)] → m ^ 2 % (p * q) = c := fun m h => by
    rw [hc]; exact Int.natCast_modEq_iff.mp (by exact_mod_cast h)
  simpa [Roots.four] using ⟨hnat _ h1, hnat _ h2, hnat _ h3, hnat _ h4⟩

/-- R156 (d): a square root below `n` that is not 0 is one of the four, by its signs modulo the two primes. -/
theorem mem_listing_four (hpos : 1 ≤ z) (hz : z < p * q) : z ∈ (listing c p q x y).four := by
  obtain ⟨hp, hq⟩ := hkey.pos
  have hn := Nat.mul_pos hp hq
  obtain ⟨r1p, r1q, r3p, r3q⟩ := listing_residues c p q x y hp hq hlin
  obtain ⟨sp, sq⟩ := listing_residues_sq (x := x) (y := y) hkey hc
  obtain ⟨h1, h3, h12, h34⟩ := listing_ranges hn c x y
  have hcop := hkey.coprime
  obtain ⟨⟨hprime, -⟩, ⟨hprime', -⟩, -⟩ := hkey
  simp only [Roots.four, List.mem_cons, List.not_mem_nil, or_false]
  rcases modEq_or_modEq_neg_of_sq hprime sp with hmp | hmp <;>
    rcases modEq_or_modEq_neg_of_sq hprime' sq with hmq | hmq
  · have hm1 := modEq_mul_of_coprime hcop (r1p.trans hmp) (r1q.trans hmq)
    exact .inl ((Int.natCast_modEq_iff.mp hm1).eq_of_lt_of_lt h1 hz).symm
  · have hm3 := modEq_mul_of_coprime hcop (r3p.trans hmp.neg) (r3q.trans hmq)
    have := add_eq_of_modEq_neg h3 hpos hz hm3
    omega
  · have hm3 := modEq_mul_of_coprime hcop (r3p.trans (neg_neg (z : Int) ▸ hmp.neg)) (r3q.trans hmq)
    exact .inr (.inr (.inl ((Int.natCast_modEq_iff.mp hm3).eq_of_lt_of_lt h3 hz).symm))
  · have hm1 := modEq_mul_of_coprime hcop (r1p.trans hmp) (r1q.trans hmq)
    have := add_eq_of_modEq_neg h1 hpos hz hm1
    omega

end

theorem Keypair.product_odd {p q : Nat} (hkey : Keypair p q) : p * q % 2 = 1 := by
  obtain ⟨⟨-, hp⟩, ⟨-, hq⟩, -⟩ := hkey
  exact Nat.odd_iff.mp ((Nat.odd_iff.mpr (by omega)).mul (Nat.odd_iff.mpr (by omega)))

/-- Settles O30: CRT completes with the listing, whose four roots are the square roots. -/
theorem crtFindsTheSquareRoots : Obligations.CrtFindsTheSquareRoots := by
  intro s p q x hx hholds hkey hpos hlt ha
  obtain ⟨hp, hq⟩ := hkey.pos
  obtain ⟨yp, yq, hlin, hcrt⟩ := exec_crt_of_coprime hx hholds hkey.coprime hp.ne' hq.ne'
  refine ⟨_, hcrt, rfl, rfl, rfl, ?found, ?roots⟩ <;>
    rw [complete_regs, withRegs_regs, withRoots_four]
  case found => exact List.mem_map_of_mem (mem_listing_four hkey hlin ha hpos hlt)
  case roots =>
    intro m hm
    obtain ⟨k, hk, rfl⟩ := List.mem_map.mp hm
    exact_mod_cast listing_four_sq hkey hlin ha k hk

end Sys2Proof.Machine
end

section
/-! PROOFS. SELECT (R157, R158) by the positions that end in `0000`, and a block decrypted by CRT and SELECT (R160, R161). -/

namespace Sys2Proof.Machine

/-! ### The selection (R157) -/

theorem endsSuffix_iff_endsInFourZeros (v : Nat) : endsSuffix v = true ↔ EndsInFourZeros v := endsSuffix_iff v

/-- R157: the value at the only position that ends in the suffix. -/
theorem selectRoot_eq_ok_iff {m1 m2 m3 m4 m : Nat} : selectRoot m1 m2 m3 m4 = .ok m ↔
    ∃ k, [m1, m2, m3, m4][k]? = some m ∧ EndsInFourZeros m ∧
      ∀ j m' : Nat, [m1, m2, m3, m4][j]? = some m' → EndsInFourZeros m' → j = k := by
  simp only [← endsSuffix_iff_endsInFourZeros]
  constructor
  · intro h
    obtain ⟨hmem, hends⟩ := selectRoot_mem h
    obtain ⟨k, hk⟩ := List.mem_iff_getElem?.mp hmem
    exact ⟨k, hk, hends, fun j m' hj hm' => by_contra fun hne =>
      no_two_matches _ (selectRoot_ok h) j k m' m hne hj hk hm' hends⟩
  · rintro ⟨k, hk, hends, honly⟩
    rw [selectRoot, filter_of_one_match _ k m hk hends honly]

/-- R157: no match, or two at different positions, is no one match. -/
theorem selectRoot_of_none_or_two {m1 m2 m3 m4 : Nat}
    (h : (∀ m ∈ [m1, m2, m3, m4], ¬ EndsInFourZeros m) ∨
      ∃ j k m m' : Nat, j ≠ k ∧ [m1, m2, m3, m4][j]? = some m ∧ [m1, m2, m3, m4][k]? = some m' ∧
        EndsInFourZeros m ∧ EndsInFourZeros m') :
    selectRoot m1 m2 m3 m4 = .error .ambiguousOrCorruptCiphertext := by
  cases hsel : selectRoot m1 m2 m3 m4 with
  | error c => rw [selectRoot_error hsel]
  | ok m =>
    obtain ⟨i, hi, hends, honly⟩ := selectRoot_eq_ok_iff.mp hsel
    rcases h with hnone | ⟨j, k, a, b, hne, hj, hk, ha, hb⟩
    · exact absurd hends (hnone m (List.mem_of_getElem? hi))
    · exact absurd ((honly j a hj ha).trans (honly k b hk hb).symm) hne

/-! ### The command (R158) -/

section
variable {s : State} {m1 m2 m3 m4 : Nat} (h1 : s.regs.m1 = m1) (h2 : s.regs.m2 = m2) (h3 : s.regs.m3 = m3)
  (h4 : s.regs.m4 = m4)
include h1 h2 h3 h4

/-- SELECT ends with what becomes of the four naturals. -/
theorem exec_select_of_roots : exec .select s = .next (settle .select (atBlock 0 (selectRoot m1 m2 m3 m4))
    (fun sel s => s.withRegs { s.regs with sel := sel, r := untagOf sel }) s) := by
  simp only [exec, execSelect, h1, h2, h3, h4, Int.toNat_natCast]

theorem exec_select_of_ok {m : Nat} (h : selectRoot m1 m2 m3 m4 = .ok m) :
    exec .select s = .next (complete (s.withRegs { s.regs with sel := m, r := untagOf m })) := by
  rw [exec_select_of_roots h1 h2 h3 h4, settle_of_ok h]

theorem exec_select_of_error (h : selectRoot m1 m2 m3 m4 = .error .ambiguousOrCorruptCiphertext) :
    ∃ t, exec .select s = .next t ∧ FaultedAs 3 0 [.int .sel, .int .r] s t :=
  ⟨_, exec_select_of_roots h1 h2 h3 h4, settle_of_error h⟩

theorem exec_select_completed {t : State} (he : exec .select s = .next t) (hfault : t.flags.fault = false) :
    ∃ m, selectRoot m1 m2 m3 m4 = .ok m ∧
      t = complete (s.withRegs { s.regs with sel := m, r := untagOf m }) := by
  obtain rfl := Host.Outcome.next.inj (he.symm.trans (exec_select_of_roots h1 h2 h3 h4))
  exact settle_completed hfault

end

/-- Settles O31: one match is selected, and none or two is the fault. -/
theorem selectTakesExactlyOneMatch : Obligations.SelectTakesExactlyOneMatch := by
  refine ⟨decode_encode .select, fun s m1 m2 m3 m4 h1 h2 h3 h4 => ⟨fun k m hk hends honly => ?one, fun h => ?other⟩⟩
  case one => exact exec_select_of_ok h1 h2 h3 h4 (selectRoot_eq_ok_iff.mpr ⟨k, hk, hends, honly⟩)
  case other => exact exec_select_of_error h1 h2 h3 h4 (selectRoot_of_none_or_two h)

/-! ### A block (R160, R161) -/

theorem decryptBlock_of_ok {ps : Params} {c p q m : Nat} {v : Roots} (hv : crtRoots ps c p q = .ok v)
    (hm : selectRoot v.m1 v.m2 v.m3 v.m4 = .ok m) : decryptBlock ps c p q = .ok (untagOf m) := by
  simp only [decryptBlock, hv, hm]

/-- Settles O32: both commands completed, so both calculations of `decrypt_block` returned. -/
theorem crtThenSelectDecryptsABlock : Obligations.CrtThenSelectDecryptsABlock := by
  intro s t u p q hholds _ hcrt ht hsel hu
  obtain ⟨v, hv, rfl⟩ := exec_crt_completed hholds hcrt ht
  obtain ⟨m, hm, rfl⟩ := exec_select_completed (m1 := v.m1) (m2 := v.m2) (m3 := v.m3) (m4 := v.m4) rfl rfl rfl rfl hsel hu
  exact ⟨untagOf m, decryptBlock_of_ok hv hm, rfl⟩

/-- A root that ends in the suffix is the one selected. -/
theorem eq_of_selectRoot_ok {m1 m2 m3 m4 a m : Nat} (h : selectRoot m1 m2 m3 m4 = .ok m) (ha : a ∈ [m1, m2, m3, m4])
    (hends : EndsInFourZeros a) : a = m :=
  List.mem_singleton.mp (selectRoot_ok h ▸ List.mem_filter.mpr ⟨ha, (endsSuffix_iff_endsInFourZeros a).mpr hends⟩)

/-- R157: a root is selected where one position only of the registers ends in the suffix. -/
theorem exists_selectRoot_ok_iff {m1 m2 m3 m4 : Nat} : (∃ m, selectRoot m1 m2 m3 m4 = .ok m) ↔
    ∃ k < 4, ∀ (j : Nat) (v : Int), [(m1 : Int), m2, m3, m4][j]? = some v → (EndsInFourZeros v.toNat ↔ j = k) := by
  have hread : ∀ (j : Nat) (v : Int), [(m1 : Int), m2, m3, m4][j]? = some v ↔
      ∃ m : Nat, [m1, m2, m3, m4][j]? = some m ∧ (m : Int) = v := fun j v => by
    rw [show [(m1 : Int), m2, m3, m4] = [m1, m2, m3, m4].map Nat.cast from rfl, List.getElem?_map, Option.map_eq_some_iff]
  constructor
  · rintro ⟨m, hm⟩
    obtain ⟨k, hk, hends, honly⟩ := selectRoot_eq_ok_iff.mp hm
    refine ⟨k, (List.getElem?_eq_some_iff.mp hk).1, fun j v hv => ?_⟩
    obtain ⟨a, ha, rfl⟩ := (hread j v).mp hv
    rw [Int.toNat_natCast]
    refine ⟨honly j a ha, ?_⟩
    rintro rfl
    rwa [Option.some.inj (ha.symm.trans hk)]
  · rintro ⟨k, hk, hiff⟩
    have hat : ∀ j m : Nat, [m1, m2, m3, m4][j]? = some m → (EndsInFourZeros m ↔ j = k) := fun j m hm =>
      hiff j m ((hread j m).mpr ⟨m, hm, rfl⟩)
    have hget := List.getElem?_eq_getElem (l := [m1, m2, m3, m4]) hk
    exact ⟨_, selectRoot_eq_ok_iff.mpr ⟨k, hget, (hat k _ hget).mpr rfl, fun j m hm => (hat j m hm).mp⟩⟩

/-- Settles O33: the selected root is one of the four, and the tagged `m` is too where it is a positive root below `n`; a
root that is `n` itself is odd, so it does not end in `0000`. -/
theorem blockDecryptsExactlyWhen : Obligations.BlockDecryptsExactlyWhen := by
  intro s t u p q m hx hfault hholds hkey ha hcrt hsel
  obtain ⟨hp, hq⟩ := hkey.pos
  obtain ⟨x, y, hlin, hlisting⟩ := exec_crt_of_coprime hx hholds hkey.coprime hp.ne' hq.ne'
  obtain rfl := Host.Outcome.next.inj (hcrt.symm.trans hlisting)
  generalize hv : listing s.regs.a p q x y = v at *
  refine Iff.trans ?_ (and_congr_right fun _ => and_congr_right fun _ =>
    exists_selectRoot_ok_iff (m1 := v.m1) (m2 := v.m2) (m3 := v.m3) (m4 := v.m4))
  constructor
  case mp =>
    rintro ⟨hu, hr⟩
    obtain ⟨sel, hroot, rfl⟩ := exec_select_completed (m1 := v.m1) (m2 := v.m2) (m3 := v.m3) (m4 := v.m4)
      rfl rfl rfl rfl hsel hu
    obtain ⟨hmem, hends⟩ := selectRoot_mem hroot
    obtain ⟨hlow, hzeros⟩ := (endsSuffix_iff sel).mp hends
    have hle : sel ≤ p * q := listing_four_le (Nat.mul_pos hp hq) sel (hv ▸ hmem)
    have hodd := hkey.product_odd
    have hdiv : sel / 10000 = m := Int.natCast_inj.mp hr
    exact ⟨by omega, by omega, sel, hroot⟩
  case mpr =>
    rintro ⟨hpos, hlt, sel, hroot⟩
    have hmem : m * 10000 ∈ v.four := hv ▸ mem_listing_four hkey hlin ha (by omega) hlt
    obtain rfl := eq_of_selectRoot_ok hroot hmem ⟨by omega, by omega⟩
    obtain rfl := Host.Outcome.next.inj (hsel.symm.trans
      (exec_select_of_ok (m1 := v.m1) (m2 := v.m2) (m3 := v.m3) (m4 := v.m4) rfl rfl rfl rfl hroot))
    exact ⟨hfault, congrArg Nat.cast (untag_tag m)⟩

end Sys2Proof.Machine
end

section
/-! PROOFS. ENC (R171 to R173, R183): the command by the outcome of its calculation, the ciphertext with infinite capacity,
the key with a zero, the exhausted `IN`, and what the ciphertext depends on. -/

namespace Sys2Proof.Machine

/-! ### The command by its calculation -/

/-- The block as ENC and DEC leave it at completion (R84, R172, R176). -/
def State.ciphered (s : State) (p q : Nat) (st : Streams) (blk : Nat) : State := { s with
  regs := { s.regs with n := p * q }
  streams := st
  blkcnt := blk
  running := none
  flags := { s.flags with done := true } }

theorem complete_writeCipher (p q blk : Nat) (st : Streams) (s : State) :
    complete (writeCipher (p * q, st, blk) s) = s.ciphered p q st blk := by
  simp only [complete, writeCipher, Flags.completed, State.ciphered, Nat.cast_mul]

section
variable {s : State} {p q blk : Nat} {st : Streams} (hkey : s.HoldsKey p q)
include hkey

theorem exec_enc_of_ok (h : encCalc s.env.params p q s.streams = .ok (p * q, st, blk)) :
    exec .enc s = .next (s.ciphered p q st blk) := by
  obtain ⟨hp, hq⟩ := hkey.toNat
  rw [← complete_writeCipher, exec, execEnc, hp, hq, h, settle]

theorem exec_dec_of_ok (h : decCalc s.env.params p q s.streams = .ok (p * q, st, blk)) :
    exec .dec s = .next (s.ciphered p q st blk) := by
  obtain ⟨hp, hq⟩ := hkey.toNat
  rw [← complete_writeCipher, exec, execDec, hp, hq, h, settle]

end

/-- The streams the loop of ENC starts on: no output, no ledger (R172). -/
def Streams.emptied (st : Streams) : Streams := { st with out := [], ledger := [], lpos := 0 }

/-- With a modulus that fits, ENC calculates what its loop does on emptied outputs (R172). -/
theorem encCalc_of_fits {ps : Params} {p q : Nat} (h : ps.fits (p * q : Nat) = true) (st : Streams) :
    encCalc ps p q st =
      (encryptLoop ps (p * q) (st.inp.length - st.ipos + 1) st.emptied 0).map (Prod.mk (p * q)) := by
  cases hloop : encryptLoop ps (p * q) (st.inp.length - st.ipos + 1) st.emptied 0 <;> rw [Streams.emptied] at hloop <;>
    simp only [encCalc, hold_of_fits h, atBlock, hloop, Except.map]

/-! ### Every chunk, with infinite capacity (R171, R172) -/

/-- R171 in plain arithmetic: the tagged integer of the chunk, squared. -/
theorem cipherBlock_eq {n : Nat} (hn : 0 < n) (chunk : List Byte) :
    cipherBlock n chunk = natToBe ((beToNat chunk * 10000) ^ 2 % n) := by
  rw [cipherBlock, modexp_eq _ _ _ hn, tagOf, tag_eq]

/-- The chunks of what is left of `IN` (R55). -/
theorem chunksOf_left (s : State) :
    chunksOf (s.streams.inp.drop s.streams.ipos) = (List.range s.chunkCount).map s.chunk := by
  rw [chunksOf, List.length_drop]
  exact List.map_congr_left fun i _ => congrArg (List.take 16) List.drop_drop

theorem encCalc_infinite {ps : Params} (hps : Unbounded ps) {p q : Nat} (hn : p * q ≠ 0) {st : Streams}
    (hle : st.ipos ≤ st.inp.length) :
    encCalc ps p q st = .ok (p * q,
      { st with
          out := ((chunksOf (st.inp.drop st.ipos)).map (cipherBlock (p * q))).flatten
          ledger := (chunksOf (st.inp.drop st.ipos)).map fun ch => (cipherBlock (p * q) ch).length
          ipos := st.inp.length
          lpos := 0 },
      (chunksOf (st.inp.drop st.ipos)).length) := by
  obtain ⟨hx, hl⟩ := hps
  rw [encCalc_of_fits (fits_of_infinite hx _), encryptLoop_infinite hx hl hn (st.inp.length - st.ipos + 1) st.emptied 0
    (Nat.lt_succ_self _) hle]
  simp only [Except.map, Streams.emptied, List.nil_append, Nat.zero_add]

/-- Settles O44: the loop's ciphertext blocks are those of the chunks, in order. -/
theorem encEncryptsEveryChunk : Obligations.EncEncryptsEveryChunk := by
  intro s p q hps hkey hp hq hle
  have hblock : cipherBlock (p * q) ∘ s.chunk = s.cipher (p * q) :=
    funext fun i => cipherBlock_eq (Nat.mul_pos (Nat.pos_of_ne_zero hp) (Nat.pos_of_ne_zero hq)) (s.chunk i)
  have h := encCalc_infinite hps (mul_ne_zero hp hq) hle
  simp only [chunksOf_left, List.map_map, hblock, List.length_map, List.length_range] at h
  rw [exec_enc_of_ok hkey h, State.ciphered]
  simp only [← hblock, Function.comp_def]

/-! ### A zero in the key, and no input (R172) -/

/-- A read of no byte consumes nothing (R57). -/
theorem inRead_snd_of_nil {st : Streams} {k : Nat} (h : (st.inRead k).1 = []) : (st.inRead k).2 = st := by
  have hpos : (st.inRead k).2.ipos = st.ipos := by rw [inRead_advance, h, List.length_nil, Nat.add_zero]
  rw [inRead_ipos] at hpos
  rw [Streams.inRead, hpos]

theorem encryptLoop_of_exhausted {st : Streams} (h : st.inp.length ≤ st.ipos) (ps : Params) (n k blk : Nat) :
    encryptLoop ps n (k + 1) st blk = .ok (st, blk) := by
  have hnil : (st.inRead Config.blockBytes).1 = [] := (inRead_eq_nil st _ (by simp)).mpr h
  rw [encryptLoop, if_pos hnil, inRead_snd_of_nil hnil]

theorem encryptLoop_of_zero {ps : Params} {st : Streams} (hleft : st.ipos < st.inp.length)
    (hfit : ps.fits ((st.inp.drop st.ipos).take 16).length = true) (k blk : Nat) :
    encryptLoop ps 0 (k + 1) st blk = .error { cause := .modulusZero, info := blk } := by
  have hne : ¬ (st.inRead Config.blockBytes).1 = [] := fun hnil =>
    Nat.not_le.mpr hleft ((inRead_eq_nil st _ (by simp)).mp hnil)
  rw [encryptLoop, if_neg hne, inRead_fst, blockBytes_eq, encBlock, hold_of_fits hfit]
  rfl

/-- Settles O45: the loop meets the zero at its first chunk, and on no input it ends before it uses the modulus. -/
theorem encOnAZeroKeyAndOnNoInput : Obligations.EncOnAZeroKeyAndOnNoInput := by
  refine fun s p q hkey => ⟨fun hzero hleft hfit => ?zero, fun hend hfit => ?empty⟩
  case zero =>
    have hn : p * q = 0 := mul_eq_zero.mpr hzero
    refine exec_enc_of_error hkey (trap := { cause := .modulusZero, info := 0 }) ?_
    rw [encCalc_of_fits (by rw [hn]; exact fits_zero _), hn, encryptLoop_of_zero (st := s.streams.emptied) hleft hfit]
    rfl
  case empty =>
    refine exec_enc_of_ok hkey ?_
    rw [encCalc_of_fits hfit, encryptLoop_of_exhausted (st := s.streams.emptied) hend.ge]
    rfl

/-! ### The ledger and the output, whatever the parameters (R173, R30) -/

/-- ENC without a recorded fault has completed: its calculation returned. -/
theorem exec_enc_completed {s t : State} (he : exec .enc s = .next t) (hfault : t.flags.fault = false) :
    ∃ v, encCalc s.env.params s.regs.p.toNat s.regs.q.toNat s.streams = .ok v ∧ t = complete (writeCipher v s) := by
  rcases settle_cases (Host.Outcome.next.inj he) with hok | ⟨trap, -, rfl⟩
  · exact hok
  · exact nomatch hfault

/-- Settles O46: what the loop counts, from an empty output and an empty ledger. -/
theorem encLedgerMatchesItsOutput : Obligations.EncLedgerMatchesItsOutput := by
  intro s t _ hle he hfault
  obtain ⟨⟨n, st, blk⟩, hcalc, rfl⟩ := exec_enc_completed he hfault
  obtain ⟨-, -, hloop⟩ := encCalc_ok hcalc
  obtain ⟨hinp, hlpos, -⟩ := encryptLoop_keeps _ _ _ _ _ hloop
  obtain ⟨hipos, hblk, hlen, hentries, hsum⟩ := encryptLoop_counts _ s.streams.emptied _ _ _ (Nat.lt_succ_self _) hle hloop
  exact ⟨hipos.trans (congrArg List.length hinp).symm, hlpos, (hlen.trans (Nat.zero_add blk)).symm,
    hblk.trans (Nat.zero_add _), hentries (List.forall_mem_nil _), hsum.trans (Nat.zero_add _)⟩

/-! ### What the ciphertext depends on (R183) -/

/-- What a completed ENC shows of its calculation: the modulus, the output, the ledger and the block count. -/
def ciphertextOf (v : Nat × Streams × Nat) : Nat × List Byte × List Nat × Nat := (v.1, v.2.1.out, v.2.1.ledger, v.2.2)

/-- R183: the ciphertext, or the fault, is that of any streams with the same rest of `IN`. -/
theorem encCalc_rest {st st' : Streams} (h : st.inp.drop st.ipos = st'.inp.drop st'.ipos) (ps : Params) (p q : Nat) :
    (encCalc ps p q st).map ciphertextOf = (encCalc ps p q st').map ciphertextOf := by
  by_cases hfit : ps.fits (p * q : Nat) = true
  case neg => simp only [encCalc, hold_of_not_fits (Bool.eq_false_iff.mpr hfit), atBlock]
  case pos =>
    have hlen : st'.inp.length - st'.ipos = st.inp.length - st.ipos := by
      rw [← List.length_drop, ← h, List.length_drop]
    have hrest := encryptLoop_rest (ps := ps) (n := p * q) (st.inp.length - st.ipos + 1) st.emptied st'.emptied 0
      h rfl rfl
    rw [encCalc_of_fits hfit, encCalc_of_fits hfit, hlen]
    split at hrest
    case h_1 a b a' b' ha hb =>
      obtain ⟨hout, hledger, rfl⟩ := hrest
      simp only [ha, hb, Except.map, ciphertextOf, hout, hledger]
    case h_2 t t' ht ht' => rw [ht, ht', hrest]
    case h_3 => exact hrest.elim
    case h_4 => exact hrest.elim

/-- Settles O47: both commands end with one ciphertext or with one fault. -/
theorem encDependsOnInputAndKeyOnly : Obligations.EncDependsOnInputAndKeyOnly := by
  intro s s' t t' hs hs' hparams hp hq hrest he he'
  have hcalc := encCalc_rest hrest s.env.params s.regs.p.toNat s.regs.q.toNat
  obtain rfl := Host.Outcome.next.inj he
  obtain rfl := Host.Outcome.next.inj he'
  rw [← hparams, ← hp, ← hq]
  generalize encCalc s.env.params s.regs.p.toNat s.regs.q.toNat s.streams = r at *
  generalize encCalc s.env.params s.regs.p.toNat s.regs.q.toNat s'.streams = r' at *
  cases r <;> cases r' <;> simp only [Except.map, Except.ok.injEq, Except.error.injEq, reduceCtorEq] at hcalc
  case error.error trap trap' =>
    subst hcalc
    exact ⟨rfl, fun _ => ⟨rfl, rfl⟩, fun hf => nomatch hf⟩
  case ok.ok v v' =>
    simp only [ciphertextOf, Prod.mk.injEq] at hcalc
    obtain ⟨hn, hout, hledger, hblk⟩ := hcalc
    refine ⟨hs.trans hs'.symm, fun hf => ?_, fun _ => ⟨hout, hledger, hblk, congrArg Nat.cast hn⟩⟩
    exact absurd (hs.symm.trans hf) Bool.false_ne_true

end Sys2Proof.Machine
end

section
/-! PROOFS. DEC (R176 to R178): after pieces that decrypt, the next entry of the ledger is a piece that does not decrypt, asks
for more than is left, or ends the command. -/

namespace Sys2Proof.Machine

/-- With a modulus that fits, DEC calculates what its loop does on an empty output (R176). -/
theorem decCalc_of_fits {ps : Params} {p q : Nat} (h : ps.fits (p * q : Nat) = true) (st : Streams) :
    decCalc ps p q st =
      (decryptLoop ps p q (st.ledger.length - st.lpos) { st with out := [] } 0).map (Prod.mk (p * q)) := by
  cases hloop : decryptLoop ps p q (st.ledger.length - st.lpos) { st with out := [] } 0 <;>
    simp only [decCalc, hold_of_fits h, atBlock, hloop, Except.map]

/-! ### The next entry (R176 to R178) -/

section
variable {ps : Params} (hx : ps.xbits = none) {st : Streams} {len : Nat} {more : List Nat}
  (hl : st.ledger.drop st.lpos = len :: more) (p q k blk : Nat)
include hx hl

/-- R178: an entry whose read gives no byte is consumed and ends the loop. -/
theorem decryptLoop_of_nil_read (hnil : (st.inp.drop st.ipos).take len = []) :
    decryptLoop ps p q (k + 1) st blk = .ok ({ st with lpos := st.lpos + 1 }, blk) := by
  obtain ⟨hnext, -⟩ := ledgerNext_drop hl
  have hread : (Streams.inRead { st with lpos := st.lpos + 1 } len).1 = [] := hnil
  simp only [decryptLoop, hnext, hold_infinite hx, atBlock, hread, if_true, inRead_snd_of_nil hread]

/-- R211: a block that was read and faults ends the loop with its index. -/
theorem decryptLoop_of_block_error (hne : (st.inp.drop st.ipos).take len ≠ []) {c : Cause}
    (h : decBlock ps p q len ((st.inp.drop st.ipos).take len) = .error c) :
    decryptLoop ps p q (k + 1) st blk = .error { cause := c, info := blk } := by
  obtain ⟨hnext, -⟩ := ledgerNext_drop hl
  simp only [decryptLoop, hnext, hold_infinite hx, atBlock, inRead_fst, if_neg hne, h]

end

theorem decBlock_of_short {len : Nat} {cb : List Byte} (h : cb.length < len) (ps : Params) (p q : Nat) :
    decBlock ps p q len cb = .error .truncatedCiphertext := if_pos h

theorem decBlock_of_error {ps : Params} (hx : ps.xbits = none) {p q : Nat} {cb : List Byte} {c : Cause}
    (h : decryptBlock ps (beToNat cb) p q = .error c) : decBlock ps p q cb.length cb = .error c := by
  simp only [decBlock, lt_irrefl, if_false, hold_infinite hx, h]

/-! ### After pieces that decrypt -/

/-- The streams of DEC after the pieces, which decrypted to `ms` (R176). -/
def Streams.pastPieces (st : Streams) (pieces : List (List Byte)) (ms : List Nat) : Streams :=
  { st with
    out := (ms.map natToBe).flatten
    ipos := st.ipos + pieces.flatten.length
    lpos := st.lpos + pieces.length }

section
variable {st : Streams} {pieces : List (List Byte)} (ms : List Nat)

theorem pastPieces_left {left : List Byte} (hi : st.inp.drop st.ipos = pieces.flatten ++ left) :
    (st.pastPieces pieces ms).inp.drop (st.pastPieces pieces ms).ipos = left := by
  rw [Streams.pastPieces, ← List.drop_drop, hi, List.drop_left]

theorem pastPieces_entries {more : List Nat} (hl : st.ledger.drop st.lpos = pieces.map List.length ++ more) :
    (st.pastPieces pieces ms).ledger.drop (st.pastPieces pieces ms).lpos = more := by
  rw [Streams.pastPieces, ← List.drop_drop, hl, List.drop_left' (List.length_map _)]

end

/-- Pieces that decrypt take DEC to the streams past them, with the entries that follow still to read. -/
theorem decCalc_of_pieces {ps : Params} (hx : ps.xbits = none) {p q : Nat} {st : Streams} {pieces : List (List Byte)}
    {ms : List Nat} {left : List Byte} {more : List Nat} (hi : st.inp.drop st.ipos = pieces.flatten ++ left)
    (hl : st.ledger.drop st.lpos = pieces.map List.length ++ more) (hne : ∀ cb ∈ pieces, cb ≠ [])
    (hms : List.Forall₂ (fun cb m => decryptBlock ps (beToNat cb) p q = .ok m) pieces ms) :
    decCalc ps p q st =
      (decryptLoop ps p q more.length (st.pastPieces pieces ms) pieces.length).map (Prod.mk (p * q)) := by
  have hcount : st.ledger.length - st.lpos = pieces.length + more.length := by
    rw [← List.length_drop, hl, List.length_append, List.length_map]
  rw [decCalc_of_fits (fits_of_infinite hx _), hcount,
    decryptLoop_pieces hx p q pieces ms more.length { st with out := [] } 0 left more hi hl hne hms]
  simp only [Streams.pastPieces, List.nil_append, Nat.zero_add]

/-- Settles O48: with the ledger consumed the loop makes no further pass. -/
theorem decDecryptsEveryPiece : Obligations.DecDecryptsEveryPiece := by
  intro s p q pieces ms rest hx hkey hwf hi hl hne hms
  have hend : s.streams.lpos + pieces.length = s.streams.ledger.length := by
    obtain ⟨-, hle⟩ := (wf_iff _).mp hwf
    have hlen := congrArg List.length hl
    rw [List.length_drop, List.length_map] at hlen
    omega
  refine exec_dec_of_ok hkey ?_
  rw [decCalc_of_pieces hx hi (hl.trans (List.append_nil _).symm) hne hms, Streams.pastPieces, hend]
  rfl

/-- Settles O49: the bad piece is read whole, and its block faults. -/
theorem decFaultsAtTheBlock : Obligations.DecFaultsAtTheBlock := by
  intro s p q pieces ms bad rest more c hx hkey _ hi hl hne hbad hms hc
  have hread : ((s.streams.pastPieces pieces ms).inp.drop (s.streams.pastPieces pieces ms).ipos).take bad.length = bad := by
    rw [pastPieces_left ms hi, List.take_left]
  refine exec_dec_of_error hkey (trap := { cause := c, info := pieces.length }) ?_
  rw [decCalc_of_pieces hx hi hl hne hms, List.length_cons, decryptLoop_of_block_error hx (pastPieces_entries ms hl) p q _ _
    (by rwa [hread]) (by rw [hread]; exact decBlock_of_error hx hc)]
  rfl

/-- Settles O50: all that is left is read, and it is less than the entry asks for. -/
theorem decFaultsOnATruncatedBlock : Obligations.DecFaultsOnATruncatedBlock := by
  intro s p q pieces ms left len more hx hkey _ hi hl hne hpos hlt hms
  have hread : ((s.streams.pastPieces pieces ms).inp.drop (s.streams.pastPieces pieces ms).ipos).take len = left := by
    rw [pastPieces_left ms hi, List.take_of_length_le hlt.le]
  refine exec_dec_of_error hkey (trap := { cause := .truncatedCiphertext, info := pieces.length }) ?_
  rw [decCalc_of_pieces hx hi hl hne hms, List.length_cons, decryptLoop_of_block_error hx (pastPieces_entries ms hl) p q _ _
    (by rw [hread]; exact List.length_pos_iff.mp hpos) (by rw [hread]; exact decBlock_of_short hlt ..)]
  rfl

/-- Settles O51: the stopping entry reads no byte; without an entry the loop makes no pass. -/
theorem decStopsSilently : Obligations.DecStopsSilently := by
  refine ⟨fun s p q pieces ms left len more hx hkey _ hi hl hne hstop hms => ?stop, fun s p q hkey hfit hend => ?empty⟩
  case stop =>
    have hnil : ((s.streams.pastPieces pieces ms).inp.drop (s.streams.pastPieces pieces ms).ipos).take len = [] := by
      rw [pastPieces_left ms hi, List.take_eq_nil_iff]; exact hstop
    refine exec_dec_of_ok hkey ?_
    rw [decCalc_of_pieces hx hi hl hne hms, List.length_cons,
      decryptLoop_of_nil_read hx (pastPieces_entries ms hl) p q _ _ hnil]
    rfl
  case empty =>
    have hcount : s.streams.ledger.length - s.streams.lpos = 0 := by rw [hend, Nat.sub_self]
    refine exec_dec_of_ok hkey ?_
    rw [decCalc_of_fits hfit, hcount]
    rfl

end Sys2Proof.Machine
end

section
/-! PROOFS. ENC and then DEC under a keypair (R180, R181): the ciphertext blocks are the pieces the ledger cuts, and a block
decrypts to its chunk where one root only ends in `0000`. -/

namespace Sys2Proof.Machine

/-! ### A ciphertext block under a keypair (R161) -/

/-- Under a keypair the roots are a listing, with infinite capacity (R154). -/
theorem Keypair.crtRoots_eq {p q : Nat} (hkey : Keypair p q) {ps : Params} (hx : ps.xbits = none) (c : Nat) :
    ∃ x y, (p : Int) * x + q * y = 1 ∧ crtRoots ps c p q = .ok (listing c p q x y) := by
  obtain ⟨hp, hq⟩ := hkey.pos
  obtain ⟨x, y, h⟩ := extendedGcd_of_coprime hx hkey.coprime hp.ne' hq.ne'
  obtain ⟨hlin, -⟩ := extendedGcd_ok h
  exact ⟨x, y, hlin, crtRoots_of_egcd_ok hx c hp.ne' hq.ne' h⟩

/-- R161: the square of a tagged number below `n` decrypts to the number, where one root only ends in `0000`. -/
theorem decryptBlock_of_one_match {p q m : Nat} (hkey : Keypair p q) {ps : Params} (hx : ps.xbits = none) (hpos : 1 ≤ m)
    (hlt : m * 10000 < p * q)
    (hone : ∀ r, crtRoots ps ((m * 10000) ^ 2 % (p * q)) p q = .ok r →
      [r.m1, r.m2, r.m3, r.m4].countP (fun v => decide (10000 ≤ v ∧ v % 10000 = 0)) = 1) :
    decryptBlock ps ((m * 10000) ^ 2 % (p * q)) p q = .ok m := by
  obtain ⟨x, y, hlin, hroots⟩ := hkey.crtRoots_eq hx ((m * 10000) ^ 2 % (p * q))
  have hcount := hone _ hroots
  rw [← List.countP_congr fun v _ => (endsSuffix_iff v).trans decide_eq_true_iff.symm] at hcount
  rcases selectRoot_eq _ _ _ _ with ⟨-, sel, hsel⟩ | ⟨hmany, -⟩
  · obtain rfl := eq_of_selectRoot_ok hsel (mem_listing_four hkey hlin rfl (by omega) hlt) ⟨by omega, by omega⟩
    rw [decryptBlock_of_ok hroots hsel]
    exact congrArg Except.ok (untag_tag m)
  · exact absurd hcount hmany

/-- R181: 0 does not decrypt: its roots are 0 and `n`, which is odd. -/
theorem decryptBlock_zero {p q : Nat} (hkey : Keypair p q) {ps : Params} (hx : ps.xbits = none) :
    decryptBlock ps 0 p q = .error .ambiguousOrCorruptCiphertext := by
  obtain ⟨x, y, -, hroots⟩ := hkey.crtRoots_eq hx 0
  obtain ⟨hp, hq⟩ := hkey.pos
  have hodd := hkey.product_odd
  have hmp : (listing 0 p q x y).mp = 0 := by
    obtain ⟨⟨-, hmod⟩, -⟩ := hkey
    rw [listing_mp hp, Nat.zero_pow (by omega), Nat.zero_mod]
  have hmq : (listing 0 p q x y).mq = 0 := by
    obtain ⟨-, ⟨-, hmod⟩, -⟩ := hkey
    rw [listing_mq hq, Nat.zero_pow (by omega), Nat.zero_mod]
  have hm1 : (listing 0 p q x y).m1 = 0 := by
    rw [← Int.natCast_inj, listing_m1_cast (Nat.mul_pos hp hq), hmp, hmq]; simp
  have hm3 : (listing 0 p q x y).m3 = 0 := by
    rw [← Int.natCast_inj, listing_m3_cast (Nat.mul_pos hp hq), hmp, hmq]; simp
  obtain ⟨-, -, h12, h34⟩ := listing_ranges (Nat.mul_pos hp hq) 0 x y
  have hnone : ∀ m ∈ (listing 0 p q x y).four, ¬ EndsInFourZeros m := by
    simp only [Roots.four, List.forall_mem_cons, EndsInFourZeros]
    refine ⟨by omega, by omega, by omega, by omega, List.forall_mem_nil _⟩
  simp only [decryptBlock, hroots, selectRoot_of_none_or_two (.inl hnone)]

/-! ### The round trip (R180) -/

/-- A chunk of what is left of `IN` has at least one byte (R55). -/
theorem chunk_ne_nil {s : State} {i : Nat} (hi : i < s.chunkCount) : s.chunk i ≠ [] :=
  chunksOf_ne_nil (chunksOf_left s ▸ List.mem_map_of_mem (List.mem_range.mpr hi))

/-- R12: a string that begins with a byte that is not zero is the numeral of a positive number. -/
theorem natToBe_beToNat_of_head {bs : List Byte} (hne : bs ≠ []) (hhead : bs.head? ≠ some 0) :
    1 ≤ beToNat bs ∧ natToBe (beToNat bs) = bs := by
  obtain ⟨b, bs, rfl⟩ := List.exists_cons_of_ne_nil hne
  have hb : b ≠ 0 := fun h => hhead (congrArg some h)
  exact ⟨(Nat.one_le_pow _ _ (by decide)).trans (pow_le_beToNat b bs hb), natToBe_beToNat b bs hb⟩

/-- Settles O52: the ciphertext blocks are the pieces, each decrypts to the integer of its chunk, and that serialises to the
chunk again. -/
theorem decryptionInvertsEncryption : Obligations.DecryptionInvertsEncryption := by
  intro s p q hps hholds hkey hipos hchunks
  obtain ⟨hp, hq⟩ := hkey.pos
  have hx : s.env.params.xbits = none := hps.1
  have henc := encEncryptsEveryChunk s p q hps hholds hp.ne' hq.ne' (hipos ▸ Nat.zero_le _)
  have hblocks : List.Forall₂ (fun cb m => decryptBlock s.env.params (beToNat cb) p q = .ok m)
      ((List.range s.chunkCount).map (s.cipher (p * q)))
      ((List.range s.chunkCount).map fun i => beToNat (s.chunk i)) := by
    rw [List.forall₂_map_left_iff, List.forall₂_map_right_iff, List.forall₂_same]
    intro i hi
    obtain ⟨hhead, hlt, hone⟩ := hchunks i (List.mem_range.mp hi)
    obtain ⟨hpos, -⟩ := natToBe_beToNat_of_head (chunk_ne_nil (List.mem_range.mp hi)) hhead
    rw [State.cipher, beToNat_natToBe]
    exact decryptBlock_of_one_match hkey hx hpos hlt hone
  have hdata : (((List.range s.chunkCount).map fun i => beToNat (s.chunk i)).map natToBe).flatten = s.streams.inp := by
    have hmap : ((List.range s.chunkCount).map fun i => beToNat (s.chunk i)).map natToBe =
        (List.range s.chunkCount).map s.chunk := by
      rw [List.map_map]
      exact List.map_congr_left fun i hi =>
        (natToBe_beToNat_of_head (chunk_ne_nil (List.mem_range.mp hi)) (hchunks i (List.mem_range.mp hi)).1).2
    rw [hmap, ← chunksOf_left, chunksOf_flatten, hipos, List.drop_zero]
  refine ⟨_, _, henc, rfl, rfl, decDecryptsEveryPiece _ p q _ _ [] hx hholds ?wf ?input ?ledger ?nonempty hblocks, rfl, rfl,
    rfl, hdata, ?count⟩
  case wf => exact (wf_iff _).mpr ⟨Nat.zero_le _, Nat.zero_le _⟩
  case input => exact (List.append_nil _).symm
  case ledger => exact List.map_map.symm
  case nonempty => exact List.forall_mem_map.mpr fun i _ => natToBe_ne_nil _
  case count => rw [List.length_map, List.length_range]

/-! ### A chunk of zero bytes (R181) -/

theorem beToNat_replicate_zero (k : Nat) : beToNat (List.replicate k 0) = 0 := by
  induction k with
  | zero => rfl
  | succ k ih => rw [List.replicate_succ, beToNat_cons, ih]; simp

/-- Settles O53: the only chunk is 0, its block is the byte 00, and 0 does not decrypt. -/
theorem allZeroChunkDoesNotSurvive : Obligations.AllZeroChunkDoesNotSurvive := by
  intro s p q k hps hholds hkey hpos hle hipos hinp
  obtain ⟨hp, hq⟩ := hkey.pos
  have hx : s.env.params.xbits = none := hps.1
  have hcount : s.chunkCount = 1 := by
    rw [State.chunkCount, hinp, hipos, List.length_replicate]; omega
  have hchunk : s.chunk 0 = List.replicate k 0 := by
    rw [State.chunk, hinp, hipos, Nat.mul_zero, Nat.add_zero, List.drop_zero, List.take_of_length_le (by simpa using hle)]
  have hcipher : s.cipher (p * q) 0 = [0] := by
    rw [State.cipher, hchunk, beToNat_replicate_zero, Nat.zero_mul, zero_pow two_ne_zero, Nat.zero_mod]; rfl
  have henc := encEncryptsEveryChunk s p q hps hholds hp.ne' hq.ne' (hipos ▸ Nat.zero_le _)
  simp only [hcount, List.range_one, List.map_cons, List.map_nil, hcipher, List.flatten_cons, List.flatten_nil,
    List.append_nil, List.length_singleton] at henc
  obtain ⟨u, hdec, -, -, hfault, -, hcode, hinfo, -⟩ := decFaultsAtTheBlock
    { s with
      regs := { s.regs with n := p * q }
      streams := { inp := [0], out := [0], ledger := [1], ipos := 0, lpos := 0 }
      blkcnt := 1
      running := none
      flags := { s.flags with done := true } }
    p q [] [] [0] [] [] .ambiguousOrCorruptCiphertext hx hholds rfl rfl rfl (List.forall_mem_nil _) (List.cons_ne_nil _ _)
    .nil (decryptBlock_zero hkey hx)
  exact ⟨_, u, henc, rfl, rfl, hdec, hfault, BitVec.eq_of_toNat_eq hcode, hinfo⟩

end Sys2Proof.Machine
end

section
/-! PROOFS. The system commands: NOP (R190) and SRST (R192). -/

namespace Sys2Proof.Machine

theorem exec_nop (s : State) : exec .nop s = .next (complete s) := rfl

theorem exec_srst (s : State) : exec .srst s = .next (State.resetIn s.env) := rfl

/-- Settles O9: SRST answers the reset state of R34 in the environment it finds. -/
theorem softResetClearsAllState : Obligations.SoftResetClearsAllState := fun s =>
  ⟨State.resetIn s.env, exec_srst s, resetIn_allReset s.env, resetIn_env s.env⟩

/-- Settles O19: the state the statement writes out is that of a completion (R84). -/
theorem nopOnlyCompletes : Obligations.NopOnlyCompletes := exec_nop

end Sys2Proof.Machine
end

section
/-! PROOFS. The faults of a running command: how it comes to a recorded fault, what that leaves alone (R206, R207), and which
faults each command has (R212). -/

namespace Sys2Proof.Machine

/-- A fault that a command ends with was raised by it: resets, completions and passes of key generation record none. -/
theorem exec_faulted {i : Instr} {s t : State} (hs : s.flags.fault = false) (he : exec i s = .next t)
    (ht : t.flags.fault = true) :
    ∃ trap o, t = raise i trap (s.withOracle o) ∧ MayRaise s.env.params i trap.cause ∧
      (i ≠ .enc → i ≠ .dec → trap.info = 0) := by
  rcases exec_ends i s t he with ⟨trap, o, hraise, hmay, -, hinfo⟩ | ⟨-, rfl⟩ | ⟨o, -, rfl⟩ | ⟨-, hw⟩
  · exact ⟨trap, o, hraise, hmay, hinfo⟩
  · exact nomatch ht
  · exact nomatch hs.symm.trans ht
  · exact nomatch hs.symm.trans (hw.fault.symm.trans ht)

/-! ### What a fault leaves alone (R206, R207) -/

/-- The oracles are read at no register number (R51). -/
@[simp] theorem withOracle_read (s : State) (o : Oracle) (g : Target) : (s.withOracle o).read g = s.read g := by
  cases g <;> rfl

/-- Settles O54: the fault entry of a running command, after draws that no register number shows. -/
theorem faultChangesOnlyDestinations : Obligations.FaultChangesOnlyDestinations := by
  intro i s t hs he ht
  obtain ⟨trap, o, rfl, -⟩ := exec_faulted hs he ht
  obtain ⟨hbusy, hdone, -, hresult, -, -, hsame, houtside, -⟩ := raise_faultedAs i trap (s.withOracle o)
  exact ⟨hbusy, hdone, hresult, fun g hg => (hsame g hg).trans (withOracle_read s o g), houtside,
    raise_wf i trap (s.withOracle o)⟩

/-! ### The table of R212 -/

theorem causesOf_codes (i : Instr) : (causesOf i).map (·.code.toNat) = codesOf i := by cases i <;> rfl

/-- R200: no two causes have one code. -/
theorem code_injective {c d : Cause} (h : c.code.toNat = d.code.toNat) : c = d := by
  cases c <;> cases d <;> revert h <;> decide

/-- Settles O56: `FCODE` is the code of a cause that the command may raise, and `FINFO` its information. -/
theorem eachCommandRaisesOnlyItsFaults : Obligations.EachCommandRaisesOnlyItsFaults := by
  intro i s t hs he ht
  obtain ⟨trap, o, rfl, hmay, hinfo⟩ := exec_faulted hs he ht
  simp only [raise_fcode, raise_finfo]
  refine ⟨?listed, fun h => hmay.capacity (code_injective h), fun h => hmay.cap (code_injective h), hinfo⟩
  case listed => rw [← causesOf_codes]; exact List.mem_map_of_mem (f := (·.code.toNat)) hmay.listed

end Sys2Proof.Machine
end

section
/-! PROOFS. A recorded fault and the host: the one fault a host move raises (R205), and that a recorded one stays until a
reset (R210); and that every step answers a next state. -/

namespace Sys2Proof.Machine

/-! ### The fault a host move raises (R205) -/

theorem running_of_idle {s : State} (h : s.busy = false) : s.running = none :=
  Option.isNone_iff_eq_none.mp (Option.isSome_eq_false_iff.mp h)

theorem whenIdle_flags {s : State} {move : State → State} (h : (move s).flags = s.flags) :
    (s.whenIdle move).flags = s.flags := by
  unfold State.whenIdle
  split
  · rfl
  · exact h

@[simp] theorem writeMove_flags (number : Byte) (bs : List Byte) (s : State) :
    (writeMove number bs s).flags = s.flags := by
  unfold writeMove
  split
  · split <;> rfl
  · rfl
  · rfl

@[simp] theorem readMove_flags (number : Byte) (s : State) : (readMove number s).flags = s.flags := by
  unfold readMove
  split
  · split <;> rfl
  · rfl

@[simp] theorem loadLedgerMove_flags (ls : List Nat) (s : State) : (loadLedgerMove ls s).flags = s.flags := by
  unfold loadLedgerMove; split <;> rfl

@[simp] theorem awaitMove_flags (s : State) : (awaitMove s).flags = s.flags := by
  unfold awaitMove; split <;> rfl

/-- A write of `CMD` that records a fault was one of a reserved word to an idle block (R84, R85). -/
theorem issue_faulted {w : Byte} {k : Nat} {s : State} (hs : s.flags.fault = false)
    (ht : (issue w k s).flags.fault = true) : s.busy = false ∧ decode w = .reserved w := by
  rcases issue_cases w k s with ⟨-, hm⟩ | ⟨-, hf, -⟩ | ⟨-, hf, -⟩ | ⟨i, -, -, hm⟩ | ⟨hready, hd, -⟩
  · rw [hm] at ht; exact nomatch hs.symm.trans ht
  · exact nomatch hs.symm.trans hf
  · exact nomatch hs.symm.trans hf
  · rw [hm] at ht; exact nomatch hs.symm.trans ht
  · exact ⟨hready.1, hd⟩

/-- A host move that records a fault is such a write: every other one leaves the flags alone or resets them (R62). -/
theorem hostMove_faulted {move : HostMove} {s : State} (hs : s.flags.fault = false)
    (ht : (hostMove move s).flags.fault = true) : s.busy = false ∧ ∃ w k, move = .cmd w k ∧ decode w = .reserved w := by
  have habsurd : (hostMove move s).flags ≠ s.flags := fun h => by rw [h, hs] at ht; exact nomatch ht
  cases move with
  | wr number bs => exact absurd (whenIdle_flags (writeMove_flags number bs s)) habsurd
  | rd number => exact absurd (readMove_flags number s) habsurd
  | loadIn bs => exact absurd (whenIdle_flags rfl) habsurd
  | loadLedger ls => exact absurd (whenIdle_flags (loadLedgerMove_flags ls s)) habsurd
  | cmd w k =>
    obtain ⟨hidle, hd⟩ := issue_faulted hs ht
    exact ⟨hidle, w, k, rfl, hd⟩
  | hardReset => exact nomatch ht
  | await => exact absurd (awaitMove_flags s) habsurd

/-- Settles O12: a ready block answers a reserved word with the fault entry (R206), and no other move records a fault. -/
theorem reservedOpcodeRaisesIllegalCommand : Obligations.ReservedOpcodeRaisesIllegalCommand := by
  refine ⟨fun s w k hready hlow hhigh => ?entry, fun s move hs ht => ?only⟩
  case entry =>
    rw [hostMove_cmd_of_reserved k hready (decode_reserved_iff.mpr ⟨hlow, hhigh⟩), running_of_idle hready.1]
    rfl
  case only =>
    obtain ⟨hidle, w, k, hmove, hd⟩ := hostMove_faulted hs ht
    exact ⟨hidle, w, k, hmove, decode_reserved_iff.mp hd⟩

/-! ### A recorded fault stays (R210) -/

/-- What R210 says of a recorded fault: it stays as it was, and no command runs. -/
def FaultKept (s t : State) : Prop := t.flags.fault = true ∧ t.fcode = s.fcode ∧ t.finfo = s.finfo ∧ t.busy = false

section
variable {s : State} (hidle : s.busy = false) (hfault : s.flags.fault = true)
include hidle hfault

/-- With a fault recorded no command is accepted, so a move that is no reset leaves the fault alone (R84). -/
theorem hostMove_keeps_fault {move : HostMove} (hhard : move ≠ .hardReset) (hsoft : ∀ k, move ≠ .cmd 0xFF k) :
    FaultKept s (hostMove move s) := by
  have hready : ¬ s.Ready := fun h => nomatch hfault.symm.trans h.2
  rcases hostMove_cases move s with ⟨e, hm, -⟩ | ⟨reg, v, -, -, hm⟩ | ⟨bs, -, hm⟩ | ⟨ls, -, -, hm⟩ | ⟨i, k, h, -⟩ |
    ⟨h, -⟩ | ⟨hreset, -⟩
  case inr.inr.inr.inr.inl => exact absurd h hready
  case inr.inr.inr.inr.inr.inl => exact absurd h hready
  case inr.inr.inr.inr.inr.inr =>
    rcases hreset with h | ⟨k, h, -⟩
    · exact absurd h hhard
    · exact absurd h (hsoft k)
  all_goals rw [hm]; exact ⟨hfault, rfl, rfl, hidle⟩

theorem hostTurn_keeps_fault (hhard : s.env.script.head? ≠ some .hardReset)
    (hsoft : ∀ k, s.env.script.head? ≠ some (.cmd 0xFF k)) : FaultKept s (hostTurn s) := by
  rcases hostTurn_cases s with ⟨-, hm⟩ | ⟨move, rest, hscript, hm⟩
  · rw [hm]; exact ⟨hfault, rfl, rfl, hidle⟩
  · simp only [hscript, List.head?_cons, ne_eq, Option.some.injEq] at hhard hsoft
    rw [hm]; exact hostMove_keeps_fault (s := s.withScript rest) hidle hfault hhard hsoft

end

/-- With no command running the sequencer does nothing. -/
theorem sequencerTurn_of_idle {s : State} (h : s.busy = false) : sequencerTurn s = .next s := by
  simp only [sequencerTurn, running_of_idle h]

/-- Settles O59: a block with a fault recorded is idle (R28), so only the host's turn could end the fault. -/
theorem faultIsStickyUntilReset : Obligations.FaultIsStickyUntilReset := by
  intro s t hinv hfault he hhard hsoft
  have hidle : s.busy = false := Bool.eq_false_iff.mpr fun hbusy => nomatch hfault.symm.trans (hinv.notFault hbusy)
  obtain ⟨hfault', hcode, hinfo, hidle'⟩ := hostTurn_keeps_fault hidle hfault hhard hsoft
  rw [step, sequencerTurn_of_idle hidle'] at he
  cases he
  exact ⟨hfault', hcode, hinfo, hidle'⟩

/-! ### Every step answers -/

/-- No meaning of a command is a stop: a fault is a next state (R206). -/
theorem exec_answers (i : Instr) (s : State) : ∃ t, exec i s = .next t := by
  cases i <;> exact ⟨_, rfl⟩

/-- Settles O5: the host's turn is total, and so is each of the three ways the sequencer's can go. -/
theorem everyStepAnswersNext : Obligations.EveryStepAnswersNext := by
  intro s
  rcases sequencerTurn_cases (hostTurn s) with ⟨-, ht⟩ | ⟨i, k, n, -, ht⟩ | ⟨i, n, -, ht⟩
  · exact ⟨_, ht⟩
  · exact ⟨_, ht⟩
  · obtain ⟨t, he⟩ := exec_answers i (hostTurn s)
    exact ⟨t, ht.trans he⟩

end Sys2Proof.Machine
end

section
/-! PROOFS. A finite capacity only adds faults (R24, R204): the operations of a command do the same under infinite
capacities, so a command differs where its calculation or its attempt has overflowed. -/

namespace Sys2Proof.Machine

/-! ### The end of a command does not look at the capacity -/

theorem unspecify_uncapped (s : State) (d : Dest) : s.uncapped.unspecify d = (s.unspecify d).uncapped := by
  cases d <;> rfl

theorem raise_uncapped (i : Instr) (t : Trap) (s : State) : raise i t s.uncapped = (raise i t s).uncapped := by
  have hfold : (destinations i).foldl State.unspecify s.uncapped = ((destinations i).foldl State.unspecify s).uncapped :=
    List.foldl_hom State.uncapped unspecify_uncapped
  rw [raise, hfold]; rfl

/-- R204, of a state `t` that a command answers and the one `u` it answers with infinite capacities. -/
def SameOrOverflowed (t u : State) : Prop := u = t.uncapped ∨ (t.flags.fault = true ∧ t.fcode = 7)

theorem raise_capacityExceeded (i : Instr) (info : Nat) (s u : State) :
    SameOrOverflowed (raise i { cause := .capacityExceeded, info := info } s) u :=
  .inr ⟨raise_fault .., raise_fcode ..⟩

/-- A command that ends in one turn and whose writes do not look at the capacity differs where its calculation overflows. -/
theorem settle_uncapped {α : Type} {result result' : Except Trap α} (h : KeepT result result') (i : Instr)
    {write : α → State → State} (hwrite : ∀ v s, write v s.uncapped = (write v s).uncapped) (s : State) :
    SameOrOverflowed (settle i result write s) (settle i result' write s.uncapped) := by
  rcases h with rfl | ⟨info, rfl⟩
  · cases result with
    | ok v => exact .inl (by rw [settle, hwrite]; rfl)
    | error trap => exact .inl (raise_uncapped i trap s)
  · exact raise_capacityExceeded ..

/-! ### Key generation -/

/-- An attempt under a finite capacity does what it does under an infinite one, or it runs out of capacity (R24). -/
def KeepA (r r' : Attempt × Oracle) : Prop := r = r' ∨ ∃ o, r = (.fault .capacityExceeded, o)

/-- The test itself looks at the round count alone (R7), which is not a capacity. -/
theorem keep_heldTest (ps : Params) (c : Nat) (o : Oracle) : Keep (heldTest ps c o) (heldTest (uncapped ps) c o) := by
  rw [heldTest_eq (ps := uncapped ps) (.inr (.inr (fits_of_infinite rfl _))), heldTest]
  split
  · exact .inr rfl
  · exact Keep.refl _

theorem keep_judgeSample (ps : Params) (bs : List Byte) (o : Oracle) :
    KeepA (judgeSample ps bs o) (judgeSample (uncapped ps) bs o) := by
  by_cases hneg : negativeSample bs = true
  · rw [judgeSample_of_negative hneg, judgeSample_of_negative hneg]; exact .inl rfl
  by_cases hfit : ps.fits (beToNat bs) = true
  · simp only [judgeSample, if_neg hneg, if_pos hfit, if_pos (fits_of_infinite (ps := uncapped ps) rfl _)]
    rcases keep_heldTest ps (beToNat bs) o with h | h <;> rw [h]
    · exact .inl rfl
    · exact .inr ⟨_, rfl⟩
  · simp only [judgeSample, if_neg hneg, if_neg hfit]; exact .inr ⟨_, rfl⟩

theorem keep_keyAttempt (ps : Params) (tries : Nat) (o : Oracle) :
    KeepA (keyAttempt ps tries o) (keyAttempt (uncapped ps) tries o) := by
  by_cases hcap : ps.retryCap = some tries
  · simp only [keyAttempt, if_pos hcap]; exact .inl rfl
  by_cases hfit : ps.fits (tries + 1 : Nat) = true
  · simp only [keyAttempt, if_neg hcap, if_pos hfit, if_pos (fits_of_infinite (ps := uncapped ps) rfl _)]
    exact keep_judgeSample ..
  · simp only [keyAttempt, if_neg hcap, if_neg hfit]; exact .inr ⟨_, rfl⟩

theorem keygenPass_uncapped (i : Instr) (dst : IntReg) (s : State) :
    SameOrOverflowed (keygenPass i dst s) (keygenPass i dst s.uncapped) := by
  rcases keep_keyAttempt s.env.params s.tries s.env.oracle with h | ⟨o, h⟩
  · have hu : keyAttempt s.uncapped.env.params s.uncapped.tries s.uncapped.env.oracle =
        keyAttempt s.env.params s.tries s.env.oracle := h.symm
    rw [keygenPass, keygenPass, hu]
    obtain ⟨attempt, o⟩ := keyAttempt s.env.params s.tries s.env.oracle
    cases attempt with
    | accept v => exact .inl rfl
    | again => exact .inl rfl
    | fault c => exact .inl (raise_uncapped i { cause := c, info := 0 } (s.withOracle o))
  · rw [keygenPass, h]; exact raise_capacityExceeded ..

/-! ### The fourteen commands -/

theorem exec_uncapped (i : Instr) (s : State) :
    ∃ t u, exec i s = .next t ∧ exec i s.uncapped = .next u ∧ SameOrOverflowed t u := by
  cases i with
  | nop => exact ⟨_, _, rfl, rfl, .inl rfl⟩
  | prime => exact ⟨_, _, rfl, rfl, settle_uncapped (.refl _) .prime (fun _ _ => by rfl) s⟩
  | modexp => exact ⟨_, _, rfl, rfl, settle_uncapped ((keep_modexpCalc ..).at 0) .modexp (fun _ _ => by rfl) s⟩
  | egcd => exact ⟨_, _, rfl, rfl, settle_uncapped ((keep_extendedGcd ..).at 0) .egcd (fun _ _ => by rfl) s⟩
  | genmod => exact ⟨_, _, rfl, rfl, settle_uncapped ((keep_hold ..).at 0) .genmod (fun _ _ => by rfl) s⟩
  | keygenp => exact ⟨_, _, rfl, rfl, keygenPass_uncapped .keygenp .p s⟩
  | keygenq => exact ⟨_, _, rfl, rfl, keygenPass_uncapped .keygenq .q s⟩
  | tag => exact ⟨_, _, rfl, rfl, settle_uncapped ((keep_hold ..).at 0) .tag (fun _ _ => by rfl) s⟩
  | untag => exact ⟨_, _, rfl, rfl, .inl rfl⟩
  | crt => exact ⟨_, _, rfl, rfl, settle_uncapped ((keep_crtRoots ..).at 0) .crt (fun _ _ => by rfl) s⟩
  | select => exact ⟨_, _, rfl, rfl, settle_uncapped (.refl _) .select (fun _ _ => by rfl) s⟩
  | enc => exact ⟨_, _, rfl, rfl, settle_uncapped (keep_encCalc ..) .enc (fun _ _ => by rfl) s⟩
  | dec => exact ⟨_, _, rfl, rfl, settle_uncapped (keep_decCalc ..) .dec (fun _ _ => by rfl) s⟩
  | srst => exact ⟨_, _, rfl, rfl, .inl rfl⟩

/-- Settles O24: the two answers of `exec` on the state and on the state with infinite capacities. -/
theorem capacityNeverChangesAValue : Obligations.CapacityNeverChangesAValue := by
  intro i s t u ht hu
  obtain ⟨t', u', ht', hu', h⟩ := exec_uncapped i s
  obtain rfl := Host.Outcome.next.inj (ht.symm.trans ht')
  obtain rfl := Host.Outcome.next.inj (hu.symm.trans hu')
  exact h

end Sys2Proof.Machine
end

section
/-! PROOFS. Reset and the end of a command: hard reset acts whatever is running (R230), and every command but key generation
ends in the turn it takes its effect (R250). -/

namespace Sys2Proof.Machine

/-! ### Hard reset -/

theorem hostMove_hardReset (s : State) : hostMove .hardReset s = State.resetIn { s.env with reply := .accepted } := rfl

/-- R230: the running command is gone before the sequencer has its turn, so none of its writes is made. -/
theorem step_of_hardReset {s : State} {rest : List HostMove} (h : s.env.script = .hardReset :: rest) :
    step s = .next (State.resetIn { s.env with script := rest, reply := .accepted }) := by
  rw [step_of_move h, hostMove_hardReset]
  exact sequencerTurn_of_idle rfl

/-- Settles O10: the step answers the reset state of R34 in the environment without the used-up move. -/
theorem hardResetActsAtAnyTime : Obligations.HardResetActsAtAnyTime := fun _ _ hscript =>
  ⟨_, step_of_hardReset hscript, resetIn_allReset _, resetIn_env _⟩

/-! ### Every command but key generation ends -/

/-- R84, R206, R192: whatever the state, a command other than key generation leaves the block idle, having completed, having
faulted, or having reset it. Only key generation asks for another pass. -/
theorem exec_idle {i : Instr} {s t : State} (hp : i ≠ .keygenp) (hq : i ≠ .keygenq) (he : exec i s = .next t) :
    t.busy = false ∧ (t.flags.done = true ∨ t.flags.fault = true ∨ i = .srst) := by
  rcases exec_ends i s t he with ⟨trap, o, rfl, -⟩ | ⟨hsrst, rfl⟩ | ⟨o, hkeygen, -⟩ | ⟨-, hw⟩
  case inl => exact ⟨rfl, .inr (.inl (raise_fault ..))⟩
  case inr.inl => exact ⟨rfl, .inr (.inr hsrst)⟩
  case inr.inr.inl => exact absurd hkeygen (not_or.mpr ⟨hp, hq⟩)
  case inr.inr.inr =>
    obtain ⟨hrunning, hdone⟩ := hw.ended
    exact ⟨by rw [State.busy, hrunning]; rfl, .inl hdone⟩

/-- Settles O57: `exec` answers a next state, and that state is idle. -/
theorem commandsEnd : Obligations.CommandsEnd := by
  intro i s hp hq
  obtain ⟨t, he⟩ := exec_answers i s
  exact ⟨t, he, exec_idle hp hq he⟩

end Sys2Proof.Machine
end
